-- ==== Sys2Proof/Word.lean ====
section
/-! DEFINITION. The machine's words: a 32-bit register or command word (R22, R80) and a byte of the output stream (R60). -/
namespace Sys2Proof

/-- A 32-bit register or command word (R22, R80). -/
abbrev Word := BitVec 32

/-- One byte of the output stream, or an 8-bit field of FORMAT (R31, R60). -/
abbrev Byte := BitVec 8

end Sys2Proof
end

