-- ==== Sys2Proof/Syntax.lean ====
section
/-! DEFINITION. The seven commands of spec/opcode_table.json (30_encoding.md R81). -/
namespace Sys2Proof

/-- A command as the assembler writes it (R86): its operand is a number, and `Instr.wf` (WellFormed.lean) says which
numbers its field holds. -/
inductive Instr where
  /-- NOP (R171). -/
  | nop
  /-- BYTE `v`: frame the byte `v` (R131). -/
  | byte (v : Nat)
  /-- BIT `b`: one one-bit burst (R130). -/
  | bit (b : Nat)
  /-- TONE.S `d`: a space-tone burst of `d` microseconds (R110). -/
  | toneS (d : Nat)
  /-- TONE.M `d`: a mark-tone burst of `d` microseconds (R111). -/
  | toneM (d : Nat)
  /-- SILENCE `d`: `d` microseconds of mid-level frames (R173). -/
  | silence (d : Nat)
  /-- END: the end of the run (R174). -/
  | endRun
  deriving DecidableEq, Repr

end Sys2Proof
end

