-- ==== Sys2Proof/WellFormed.lean ====
section
/-! DEFINITION. Which operands a command word can hold (30_encoding.md R82, R86). -/
namespace Sys2Proof

/-- An operand out of range is an assembly error (R86): `V` has 8 bits, `B` one bit, `D` 28 bits (R82). -/
def Instr.wf : Instr → Bool
  | .nop => true
  | .byte v => decide (v < 2 ^ 8)
  | .bit b => decide (b < 2)
  | .toneS d => decide (d < 2 ^ 28)
  | .toneM d => decide (d < 2 ^ 28)
  | .silence d => decide (d < 2 ^ 28)
  | .endRun => true

end Sys2Proof
end

