-- ==== Sys2Proof/Decode.lean ====
section
/-! DEFINITION. The command encoding (30_encoding.md R80 to R85): a decoder, total over all words, that rejects by name,
and the encoder and assembler step beside it. -/
namespace Sys2Proof

/-- Why a word is illegal (R84). -/
inductive Illegal where
  /-- The opcode is one of the reserved 0x7 to 0xF. -/
  | reservedOpcode
  /-- The opcode is 0x0, 0x1, 0x2 or 0x6 and a reserved bit of the argument is 1. -/
  | reservedBit
  deriving DecidableEq, Repr

/-- The field `w[hi:lo]` as a number, zero-extended (R11). -/
def field (hi lo : Nat) (w : Word) : Nat := w.toNat / 2 ^ lo % 2 ^ (hi + 1 - lo)

/-- `decode(w)` of R83. -/
def decode (w : Word) : Except Illegal Instr :=
  match field 31 28 w with
  | 0x0 => if field 27 0 w = 0 then .ok .nop else .error .reservedBit
  | 0x1 => if field 27 8 w = 0 then .ok (.byte (field 7 0 w)) else .error .reservedBit
  | 0x2 => if field 27 1 w = 0 then .ok (.bit (field 0 0 w)) else .error .reservedBit
  | 0x3 => .ok (.toneS (field 27 0 w))
  | 0x4 => .ok (.toneM (field 27 0 w))
  | 0x5 => .ok (.silence (field 27 0 w))
  | 0x6 => if field 27 0 w = 0 then .ok .endRun else .error .reservedBit
  | _ => .error .reservedOpcode

/-- The opcode of a command (R81). -/
def opcode : Instr → Nat
  | .nop => 0x0
  | .byte _ => 0x1
  | .bit _ => 0x2
  | .toneS _ => 0x3
  | .toneM _ => 0x4
  | .silence _ => 0x5
  | .endRun => 0x6

/-- The argument field of a command: its operand, or 0 (R80, R81). -/
def argument : Instr → Nat
  | .nop => 0
  | .byte v => v
  | .bit b => b
  | .toneS d => d
  | .toneM d => d
  | .silence d => d
  | .endRun => 0

/-- The word `OP, ARG` of a well-formed command (R80, R86). -/
def encode (i : Instr) : Word := BitVec.ofNat 32 (opcode i * 2 ^ 28 + argument i)

/-- What an assembler emits: an operand out of range is an error and is never truncated (R86). -/
def assemble (i : Instr) : Option Word := if i.wf then some (encode i) else none

/-- The command word whose low `nbits` bits are those of `w` and whose other bits are 0. -/
def tableWord (nbits w : Nat) : Word := BitVec.ofNat 32 (w % 2 ^ nbits)

/-- What the decoder reads from a word numbered as spec/opcode_table.json numbers it. A command is ONE 32-bit word
(R85), so no byte order enters. -/
def decodeTableWord (nbits w : Nat) : Option Instr :=
  match decode (tableWord nbits w) with
  | .ok i => some i
  | .error _ => none

end Sys2Proof
end

