-- ==== Sys2Proof/Config.lean ====
section
/-! DEFINITION. The build-time parameters of the block (00_scope.md R9) as plain data, the values the spec decides for them,
and the one free value of the model. -/
namespace Sys2Proof

/-- FREE VALUE (log entry 17; safe). The byte of an 8-bit code outside 0 to 255, such as the 256 that a replacement of `SINE_Q`
may list; the spec gives no byte for it. Nothing constrains it. -/
opaque Config.byteOfWideCode (code : Int) : Byte

end Sys2Proof

namespace Sys2Proof.Machine

/-- One entry of a replacement for `SINE_Q` (R9, R16, D10): the code at phase index `P` of the configurations with these
`qb` and `sr`. -/
structure SineEntry where
  qbits : Nat
  sr : Nat
  P : Nat
  code : Int
  deriving DecidableEq, Repr

/-- The block's build-time parameters (R9). They stand in State, so that every rule takes each of them as an argument, and no
step changes them (log entry 13). -/
structure Build where
  /-- `CMDQ_DEPTH`, the command FIFO's capacity in words. -/
  cmdqDepth : Nat
  /-- `DUR_DEN`: durations count units of `1 / DUR_DEN` seconds. -/
  durDen : Nat
  /-- `CLOCK_W`, the width of CLOCK in bits. -/
  clockWidth : Nat
  /-- `COUNT_W`, the width of BYTES_WRITTEN in bits. -/
  countWidth : Nat
  /-- `SINE_Q`, where it replaces the exact function (93_implementation_defined.md I2); the exact one stands wherever the
  table has no entry. -/
  sineTable : List SineEntry
  deriving DecidableEq, Repr

/-- The values that R9 decides; `SINE_Q` is exact. -/
def Build.decided : Build :=
  { cmdqDepth := 16, durDen := 1000000, clockWidth := 64, countWidth := 32, sineTable := [] }

end Sys2Proof.Machine
end

