-- ==== Sys2Proof/Machine/State.lean ====
section
/-! DEFINITION. The block's state as plain data (10_state.md), the state after reset (R43), and the reasons a step of the
model can stop. -/
namespace Sys2Proof.Machine

/-- STATE (R25). -/
inductive RunState where
  | idle | run | done | error
  deriving DecidableEq, Repr

/-- The codes ERRCODE can hold (R200); the reserved codes 12 to 255 are never recorded. -/
inductive ErrCode where
  | none | cfgBaud | cfgChannels | cfgQuant | cfgCarrierZero | cfgRate | cfgMultiple | cmdIllegal | cmdNotRunning
  | cfgLocked | countOverflow | clockOverflow
  deriving DecidableEq, Repr

/-- The configuration registers (R8, R28 to R31). FORMAT's bits 31:24 are not stored: they read 0. -/
structure RunConfig where
  sampleRate : Word
  baud : Word
  carrier : Word
  qbits : Byte
  channels : Byte
  stopBits : Byte
  deriving DecidableEq, Repr

/-- A burst's context `ctx` (R40). -/
inductive Ctx where
  /-- A burst from one TONE.S, TONE.M or BIT command. -/
  | single
  /-- Bit slot `j` of the framed byte `v`. -/
  | byte (v : Byte) (j : Nat)
  deriving DecidableEq, Repr

/-- The engine's micro-state `ms` (R40). -/
inductive MicroState where
  /-- No current command. -/
  | ready
  /-- The next engine step begins a burst of `count` frames at frequency `f`. -/
  | atBegin (f count : Nat) (ctx : Ctx)
  /-- A burst at frequency `f` with `r` frames to emit and next phase index `P`. -/
  | burst (f r P : Nat) (ctx : Ctx)
  /-- `r` mid-level frames to emit. -/
  | silence (r : Nat)
  deriving DecidableEq, Repr

/-- One access of the host to the register block (R60, R61): a width in bytes, a byte offset and, for a write, the word. -/
inductive Access where
  | read (width : Nat) (off : BitVec 8)
  | write (width : Nat) (off : BitVec 8) (v : Word)
  deriving DecidableEq, Repr

/-- One move of the interleaving (R19, R63): the host makes its next access, the engine takes its step, the sink begins
or stops accepting frames (R66), or power-on reset arrives (R230). -/
inductive Move where
  | host
  | engine
  | sink (accepts : Bool)
  | powerOn
  deriving DecidableEq, Repr

/-- One operation of the host's program (R63, R232): an access, or one of the reads of STATUS on which a host branches
(log entry 15). -/
inductive HostOp where
  /-- One access. -/
  | once (a : Access)
  /-- Read STATUS; in ERROR make the accesses of `report` and stop, and otherwise go on (R232 step 4). -/
  | stopOnError (report : List Access)
  /-- Read STATUS until it shows DONE or ERROR; in ERROR make the accesses of `report` and stop, in DONE go on (R232 steps 6
  and 7). -/
  | awaitEnd (report : List Access)
  /-- Read STATUS until it shows CMDQ_FULL = 0 (R237). -/
  | awaitRoom
  deriving DecidableEq, Repr

/-- The state of the block and of its environment. The first group is the build's parameters and the spec's own state; the
second is the output port and the host's held push; the third is the environment as plain data (log entries 1 to 4). -/
structure State where
  /-- The build-time parameters (R9). No step changes them. -/
  build : Build
  /-- STATE (R25). -/
  state : RunState
  /-- ERRCODE (R26). -/
  errCode : ErrCode
  /-- ERRINFO (R27). -/
  errInfo : Word
  /-- SAMPLE_RATE, BAUD, CARRIER and FORMAT (R28 to R31). -/
  cfg : RunConfig
  /-- BYTES_WRITTEN (R35), below `2^COUNT_W`. -/
  bytesWritten : Nat
  /-- CLOCK, in ticks (R36), below `2^CLOCK_W`. -/
  clock : Nat
  /-- CLOCK_HI_SHADOW (R37). -/
  clockHiShadow : Word
  /-- The command FIFO, oldest word first (R39). -/
  queue : List Word
  /-- The engine's micro-state (R40). -/
  ms : MicroState
  /-- The current command word `cw` (R40). -/
  cw : Word
  /-- A push that waits for a FIFO slot (R65). -/
  heldPush : Option Word
  /-- Every byte the sink has accepted, first byte first (R60, R67). -/
  stream : List Byte
  /-- Where in `stream` the output of the current or last run begins (R154; log entry 3). -/
  runStart : Nat
  /-- Whether the sink accepts a frame (R66; log entry 2). -/
  sinkAccepts : Bool
  /-- The interleaving still to come, first move first (R63; log entry 1). -/
  schedule : List Move
  /-- What the host has still to do, in program order (R63; log entries 1 and 15). -/
  hostProg : List HostOp
  /-- What the host's last register read returned (log entry 4). -/
  readData : Word
  deriving DecidableEq, Repr

/-- The configuration registers after reset: all zero (R43). -/
def RunConfig.reset : RunConfig :=
  { sampleRate := 0, baud := 0, carrier := 0, qbits := 0, channels := 0, stopBits := 0 }

/-- The machine right after power-on reset (R43, R230), built with the values R9 decides. The environment's fields `runStart`, `sinkAccepts`, `schedule`,
`hostProg` and `readData` have no reset value in the spec: DESIGN CHOICE (log entries 1 to 4). -/
def State.reset : State :=
  { build := Build.decided, state := .idle, errCode := .none, errInfo := 0, cfg := RunConfig.reset, bytesWritten := 0, clock := 0,
    clockHiShadow := 0, queue := [], ms := .ready, cw := 0, heldPush := none, stream := [], runStart := 0,
    sinkAccepts := true, schedule := [], hostProg := [], readData := 0 }

/-- Why a step of the model faults. Every fault of the SPEC is recorded state instead (R207), so none stands here. -/
inductive Fault where
  /-- Raised by a burst begin, frame or silence frame step whose configuration fails START's validation: the spec gives no
  frame and no phase for it, and no run reaches such a step, because START validates (R176) and RUN locks the
  configuration (R33). Safe (log entry 8). -/
  | illegalConfig
  deriving DecidableEq, Repr

/-- Why a step of the model refuses. -/
inductive Refusal where
  /-- Raised by an arm of `exec` for an instruction without a meaning. Safe. -/
  | notModelled (mnemonic : String)
  /-- Raised by a host access that is not 32 bits wide at a multiple of 4: it is outside the block's interface and a model
  has no step for it (R61). Safe (log entry 14). -/
  | accessOutsideInterface
  deriving DecidableEq, Repr

/-- A step's answer, at this machine's types. -/
abbrev Result := Host.Outcome State Fault Refusal

end Sys2Proof.Machine
end

