-- ==== Sys2Proof/Machine/Operands.lean ====
section
/-! DEFINITION. The numbers the rules compute from the configuration and from a command's operand: rates, frame size,
sample counts, tones, slot frequencies, the snap and the phase index (R10, R100, R102, R104, R105, R132). All are
mathematical integers of unbounded width (R11). -/
namespace Sys2Proof.Machine

/-- `ceil(a / b) = (a + b - 1) div b` for `b > 0` (R12). -/
def ceilDiv (a b : Nat) : Nat := (a + b - 1) / b

/-- `sr`, the sampling rate in Hz (R8, R32). -/
def RunConfig.sr (c : RunConfig) : Nat := c.sampleRate.toNat

/-- `fL`, the low-carrier frequency, which is the space tone (R8, R100). -/
def RunConfig.fL (c : RunConfig) : Nat := c.carrier.toNat

/-- `f_mark = 2 fL` (R100). -/
def RunConfig.fMark (c : RunConfig) : Nat := 2 * c.fL

/-- `baud` (R8). -/
def RunConfig.baudRate (c : RunConfig) : Nat := c.baud.toNat

/-- `S`, the number of stop bits (R8). -/
def RunConfig.stops (c : RunConfig) : Nat := c.stopBits.toNat

/-- `FB = ch × qb / 8`, the bytes of one frame (R10). -/
def RunConfig.frameBytes (c : RunConfig) : Nat := c.channels.toNat * c.qbits.toNat / 8

/-- `Kbit = ceil(sr / baud)`, the samples of one bit burst (R10, R104). -/
def RunConfig.kbit (c : RunConfig) : Nat := ceilDiv c.sr c.baudRate

/-- `Kdur(D) = ceil(D × sr / DUR_DEN)`, the samples of a duration of `d` units of `1 / DUR_DEN` seconds (R104). -/
def Build.kdur (b : Build) (c : RunConfig) (d : Nat) : Nat := ceilDiv (d * c.sr) b.durDen

/-- `M = fL / baud`, the low-carrier cycles in one bit (R15). -/
def RunConfig.cyclesPerBit (c : RunConfig) : Nat := c.fL / c.baudRate

/-- `phi(N)`: the clock rounded down to a whole number of low-carrier cycles, in ticks (R102). -/
def RunConfig.snap (c : RunConfig) (n : Nat) : Nat := n / c.sr * c.sr

/-- The next phase index after `P` at frequency `f` (R105). -/
def RunConfig.nextPhase (c : RunConfig) (f P : Nat) : Nat := (P + f) % c.sr

/-- The tone of a bit: mark for 1, space for 0 (R100, R130). -/
def RunConfig.toneOf (c : RunConfig) (b : Bool) : Nat := if b then c.fMark else c.fL

/-- The number of slots of a framed byte: start, eight data bits and `S` stop bits (R132). -/
def RunConfig.slots (c : RunConfig) : Nat := 9 + c.stops

/-- The bit that slot `j` of byte `v` carries: start 0, data bits least-significant first, stop bits 1 (R132). -/
def slotBit (v : Byte) (j : Nat) : Bool :=
  if j = 0 then false else if j ≤ 8 then v.getLsbD (j - 1) else true

/-- `slot_freq(v, j)` (R132). -/
def RunConfig.slotFreq (c : RunConfig) (v : Byte) (j : Nat) : Nat := c.toneOf (slotBit v j)

/-- Byte lane `k` of a 32-bit word: bits `8k+7 : 8k`, little-endian (R64). -/
def byteLane (w : Word) (k : Nat) : Byte := w.extractLsb' (8 * k) 8

/-- `validate()`: the first failing configuration check, or NONE (R203, R204). The rate check compares exact integers. -/
def RunConfig.validate (c : RunConfig) : ErrCode :=
  if c.baudRate = 0 then .cfgBaud
  else if ¬(c.channels.toNat = 1 ∨ c.channels.toNat = 2) then .cfgChannels
  else if ¬(c.qbits.toNat = 8 ∨ c.qbits.toNat = 16) then .cfgQuant
  else if c.fL = 0 then .cfgCarrierZero
  else if c.sr < 8 * c.fL then .cfgRate
  else if c.fL % c.baudRate ≠ 0 then .cfgMultiple
  else .none

end Sys2Proof.Machine
end

