-- ==== Sys2Proof/Machine/Flags.lean ====
section
/-! DEFINITION. The STATUS word and its flags (R24, R38), the codes of STATE and ERRCODE (R25, R200), and the two overflow
tests of a frame step (R107). Each is computed from the state; none is stored. -/
namespace Sys2Proof.Machine

/-- The value of STATE's two bits (R25). -/
def RunState.code : RunState → Nat
  | .idle => 0
  | .run => 1
  | .done => 2
  | .error => 3

/-- The code ERRCODE holds (R200). -/
def ErrCode.code : ErrCode → Nat
  | .none => 0
  | .cfgBaud => 1
  | .cfgChannels => 2
  | .cfgQuant => 3
  | .cfgCarrierZero => 4
  | .cfgRate => 5
  | .cfgMultiple => 6
  | .cmdIllegal => 7
  | .cmdNotRunning => 8
  | .cfgLocked => 9
  | .countOverflow => 10
  | .clockOverflow => 11

/-- BUSY: the engine holds a command it has not finished (R24). -/
def State.busy (s : State) : Bool := decide (s.ms ≠ .ready)

/-- CMDQ_EMPTY (R24). -/
def State.cmdqEmpty (s : State) : Bool := decide (s.queue.length = 0)

/-- CMDQ_FULL (R24). -/
def State.cmdqFull (s : State) : Bool := decide (s.queue.length = s.build.cmdqDepth)

/-- STATUS: STATE in bits 1:0, BUSY 2, CMDQ_EMPTY 3, CMDQ_FULL 4, CMDQ_COUNT 15:8, every other bit 0 (R24). -/
def State.status (s : State) : Word :=
  BitVec.ofNat 32 (s.state.code + 4 * s.busy.toNat + 8 * s.cmdqEmpty.toNat + 16 * s.cmdqFull.toNat
    + 256 * (s.queue.length % 256))

/-- A frame would take BYTES_WRITTEN above its greatest value, `2^COUNT_W - 1` (R107, R9). -/
def State.countOverflows (s : State) : Bool :=
  decide (2 ^ s.build.countWidth - 1 < s.bytesWritten + s.cfg.frameBytes)

/-- A frame would take CLOCK above its greatest value, `2^CLOCK_W - 1` (R107, R9). -/
def State.clockOverflows (s : State) : Bool := decide (2 ^ s.build.clockWidth - 1 < s.clock + s.cfg.fL)

end Sys2Proof.Machine
end

