-- ==== Sys2Proof/Machine/Ops.lean ====
section
/-! DEFINITION. The named operations on the state: taking an error (the block's only exception, R201) and the one return
from it, reset (R230); the FIFO (R34, R39, R65); the engine's own updates (R106, R107); START (R176). -/
namespace Sys2Proof.Machine

/-- `raise Error(code, info)` (R201): record the first fault, enter ERROR, discard the queue, abandon the command. CLOCK,
BYTES_WRITTEN and the stream keep their values. In ERROR nothing changes (R202). -/
def raise (code : ErrCode) (info : Word) (s : State) : State :=
  if s.state = .error then s
  else { s with errCode := code, errInfo := info, state := .error, queue := [], ms := .ready }

/-- Reset, by power-on or by CTRL.SOFT_RESET, the only way out of ERROR (R230, R231): every piece of the block's state
takes its reset value. The build stays what it is, the frames the sink has accepted stay with it, and the environment goes on
(log entries 1 to 4 and 13). -/
def resetBlock (s : State) : State :=
  { State.reset with
    build := s.build, stream := s.stream, runStart := s.stream.length, sinkAccepts := s.sinkAccepts, schedule := s.schedule,
    hostProg := s.hostProg, readData := s.readData }

/-- `ms <- m` (R13). -/
def setMs (m : MicroState) (s : State) : State := { s with ms := m }

/-- The dispatch step's `w <- Pop()` and `cw <- w`, where `w` is the head and `rest` what stands behind it (R170). -/
def popTo (w : Word) (rest : List Word) (s : State) : State := { s with queue := rest, cw := w }

/-- Append a word at the FIFO's tail (R34). -/
def append (w : Word) (s : State) : State := { s with queue := s.queue ++ [w] }

/-- Hold the host's push of `w` (R34, R65). -/
def hold (w : Word) (s : State) : State := { s with heldPush := some w }

/-- END's effect on a run with no word behind it (R174). -/
def finish (s : State) : State := { s with state := .done, ms := .ready }

/-- The clock update of a burst begin step: `CLOCK <- phi(CLOCK)` (R106). -/
def snapClock (s : State) : State := { s with clock := s.cfg.snap s.clock }

/-- One accepted frame: its bytes reach the stream, BYTES_WRITTEN grows by `FB` and CLOCK by `fL`, in one atomic change
(R107, R154, R172). -/
def emit (bytes : List Byte) (s : State) : State :=
  { s with
    stream := s.stream ++ bytes
    bytesWritten := s.bytesWritten + s.cfg.frameBytes
    clock := s.clock + s.cfg.fL }

/-- The effect of a START that passes validation (R44, R176): a fresh run, with an empty output of its own. -/
def beginRun (s : State) : State :=
  { s with clock := 0, bytesWritten := 0, state := .run, runStart := s.stream.length }

/-- The START operation (R176). -/
def start (s : State) : State :=
  match s.state with
  | .run => s
  | .error => s
  | .idle => if s.cfg.validate = .none then beginRun s else raise s.cfg.validate 0 s
  | .done => if s.cfg.validate = .none then beginRun s else raise s.cfg.validate 0 s

/-- The completion of a held push, tried after every step (R65): in RUN with a free slot the word is appended, in ERROR it
is discarded, and otherwise it stays held (log entry 6). -/
def completeHeld (s : State) : State :=
  match s.heldPush with
  | none => s
  | some w =>
    match s.state with
    | .run => if s.queue.length < s.build.cmdqDepth then { s with queue := s.queue ++ [w], heldPush := none } else s
    | .error => { s with heldPush := none }
    | .idle => s
    | .done => s

/-- The output of the current or last run (R67, R154). -/
def State.runStream (s : State) : List Byte := s.stream.drop s.runStart

end Sys2Proof.Machine
end

