-- ==== Sys2Proof/Machine/Sine.lean ====
section
/-! DEFINITION. An enclosure of the exact sine of a phase index (R16): two multiples of `2^-192` between which
`sin(2π P / sr)` lies. It is computed with natural numbers only, so the machine runs; Laws/Sine.lean proves that the exact
real sine lies between them. Beside it, an exact comparison of the sine with a rational number, for the phases at which the
enclosure does not decide the rounding; Laws/HalfTurns.lean proves it right. -/
namespace Sys2Proof.Machine

/-- The fixed point: `1` is written as `2^192` (log entry 7). -/
def Sine.one : Nat := 2 ^ 192

/-- `floor(π × 2^192)` (log entry 7). -/
def Sine.piFloor : Nat := 0x3243f6a8885a308d313198a2e03707344a4093822299f31d0

/-- Bounds of the tail `F_k(y) = 1 - y / (2k(2k+1)) × F_{k+1}(y)` of the sine's series, from `n` terms and the fact that the
tail after them lies between 0 and 1. `ylo` and `yhi` bound `y`. -/
def Sine.tail (ylo yhi : Nat) : Nat → Nat → Nat × Nat
  | 0, _ => (0, Sine.one)
  | n + 1, k =>
    let next := Sine.tail ylo yhi n (k + 1)
    let c := 2 * k * (2 * k + 1) * Sine.one
    (Sine.one - ceilDiv (yhi * next.2) c, Sine.one - ylo * next.1 / c)

/-- Bounds of `sin(π × num / den)` for `0 ≤ num / den ≤ 1/2`: `x × F_1(x²)`, and exactly one half at `num / den = 1/6`, the
one place where a tie of the quantizer can arise (R159). -/
def Sine.quarter (num den : Nat) : Nat × Nat :=
  if 6 * num = den then (Sine.one / 2, Sine.one / 2)
  else
    let xlo := Sine.piFloor * num / den
    let xhi := ceilDiv ((Sine.piFloor + 1) * num) den
    let tail := Sine.tail (xlo * xlo / Sine.one) (ceilDiv (xhi * xhi) Sine.one) 28 1
    (xlo * tail.1 / Sine.one, min Sine.one (ceilDiv (xhi * tail.2) Sine.one))

/-- Fold a half turn `sin(π × num / den)`, `0 ≤ num / den ≤ 1`, onto a quarter turn. -/
def Sine.half (num den : Nat) : Nat × Nat :=
  Sine.quarter (if den < 2 * num then den - num else num) den

/-- Bounds, in units of `2^-192`, of `Sin(P, sr) = sin(2π P / sr)` for `P < sr` (R16). -/
def Sine.enclosure (P sr : Nat) : Int × Int :=
  if sr ≤ 2 * P then
    let m := Sine.half (2 * P - sr) sr
    (-(m.2 : Int), -(m.1 : Int))
  else
    let m := Sine.half (2 * P) sr
    ((m.1 : Int), (m.2 : Int))

/-- Count the half turns of `k` more steps of the angle `φ` with `cos φ = u / v`, `|u| < v`. After `j` steps `a` and `b` have
the signs of `sin(jφ)` and `sin((j+1)φ)`, and `h` is `floor(jφ / π)`. The answer is that of the last step: `a` and `h`. It is
computed with integers only, so it is exact (log entry 7). -/
def Sine.halfTurns (u : Int) (v : Nat) : Nat → Int → Int → Nat → Int × Nat
  | 0, a, _, h => (a, h)
  | k + 1, a, b, h =>
    Sine.halfTurns u v k b (2 * u * b - v * v * a) (if 0 < (-1) ^ h * b then h else h + 1)

/-- The `p` with `0 ≤ p ≤ 2 sr` and `cos(π p / (2 sr)) = sin(2π P / sr)`. -/
def Sine.fromCrest (P sr : Nat) : Nat :=
  if 4 * P ≤ sr then sr - 4 * P else if 4 * P ≤ 3 * sr then 4 * P - sr else 5 * sr - 4 * P

/-- Whether `sin(2π P / sr) < u / v`, for `|u| < v`: `π p / (2 sr)` is more than `arccos(u / v)` exactly when `p` is more than the
half turns that `2 sr` steps of that angle make. -/
def Sine.lessThan (P sr : Nat) (u : Int) (v : Nat) : Bool :=
  decide ((Sine.halfTurns u v (2 * sr) 0 1 0).2 < Sine.fromCrest P sr)

/-- Whether `sin(2π P / sr) ≤ u / v`, for `|u| < v`. -/
def Sine.atMost (P sr : Nat) (u : Int) (v : Nat) : Bool :=
  Sine.lessThan P sr u v ||
    decide ((Sine.halfTurns u v (2 * sr) 0 1 0).2 = Sine.fromCrest P sr ∧ (Sine.halfTurns u v (2 * sr) 0 1 0).1 = 0)

end Sys2Proof.Machine
end

