-- ==== Sys2Proof/Machine/Quantizer.lean ====
section
/-! DEFINITION. The Sample Writer (42_quantizer.md): quantizing an amplitude, the quantized sine and the bytes of one frame. -/
namespace Sys2Proof.Machine

/-- `rha(num / den)`: round half away from zero (R12). -/
def rhaDiv (num : Int) (den : Nat) : Int :=
  if 0 ≤ num then (((2 * num.natAbs + den) / (2 * den) : Nat) : Int)
  else -(((2 * num.natAbs + den) / (2 * den) : Nat) : Int)

/-- `Q_8(a) = rha(128 - 127 a)` at the amplitude `a = num / den` (R150). -/
def quantize8 (num : Int) (den : Nat) : Int := rhaDiv (128 * den - 127 * num) den

/-- `Q_16(a) = rha(-32767 a)` at the amplitude `a = num / den` (R151). -/
def quantize16 (num : Int) (den : Nat) : Int := rhaDiv (-32767 * num) den

/-- `Q_qb` at the amplitude `num / den` (R150, R151). START admits no `qb` but 8 and 16 (R203). -/
def RunConfig.quantize (c : RunConfig) (num : Int) (den : Nat) : Int :=
  if c.qbits.toNat = 8 then quantize8 num den else quantize16 num den

/-- The amplitude `u / v` whose scaled value is the half-integer `code + 1/2`: `128 - 127 a` for 8 bits, `-32767 a` for 16 (R150,
R151). -/
def RunConfig.tieAmplitude (c : RunConfig) (code : Int) : Int × Nat :=
  if c.qbits.toNat = 8 then (255 - 2 * code, 254) else (-(2 * code + 1), 65534)

/-- Whether the exact code at phase index `P` is `code + 1`, where it is that or `code`: whether the scaled sine lies beyond
`code + 1/2`, or on it and rounding away from zero goes up (R12, R159). -/
def RunConfig.roundsUp (c : RunConfig) (P : Nat) (code : Int) : Bool :=
  if 0 ≤ code then Sine.atMost P c.sr (c.tieAmplitude code).1 (c.tieAmplitude code).2
  else Sine.lessThan P c.sr (c.tieAmplitude code).1 (c.tieAmplitude code).2

/-- The exact `SINE_Q(P) = Q_qb(Sin(P, sr))` (R16, R152). Both ends of the enclosure of the sine quantize to the exact code, or to
it and a neighbour; in the second case an exact comparison with the half-integer between the two decides (log entry 7). -/
def RunConfig.sineCode (c : RunConfig) (P : Nat) : Int :=
  let upper := c.quantize (Sine.enclosure P c.sr).1 Sine.one
  let lower := c.quantize (Sine.enclosure P c.sr).2 Sine.one
  if lower = upper then lower else if c.roundsUp P lower then upper else lower

/-- The mid-level code `Q_qb(0)` (R155). -/
def RunConfig.midCode (c : RunConfig) : Int := c.quantize 0 1

/-- One channel's bytes of a code: one byte, or the 16-bit two's complement low byte first (R151, R153). The spec gives no
byte for an 8-bit code outside 0 to 255, which only a replacement of `SINE_Q` can list: a free value (log entry 17). -/
def RunConfig.sampleBytes (c : RunConfig) (code : Int) : List Byte :=
  if c.qbits.toNat = 8 then [if 0 ≤ code ∧ code ≤ 255 then BitVec.ofInt 8 code else Config.byteOfWideCode code]
  else [(BitVec.ofInt 16 code).extractLsb' 0 8, (BitVec.ofInt 16 code).extractLsb' 8 8]

/-- `Frame(c)`: the same code on every channel, channel 0 first (R153). -/
def RunConfig.frame (c : RunConfig) (code : Int) : List Byte :=
  (List.replicate c.channels.toNat (c.sampleBytes code)).flatten

/-- The block's `SINE_Q(P)` (R9, R16): the code its table gives for this `qb`, `sr` and `P`, and otherwise the exact one. -/
def Build.sineQ (b : Build) (c : RunConfig) (P : Nat) : Int :=
  match b.sineTable.find? fun e => decide (e.qbits = c.qbits.toNat ∧ e.sr = c.sr ∧ e.P = P) with
  | some e => e.code
  | none => c.sineCode P

/-- The frame of phase index `P` (R152, R153). -/
def Build.toneFrame (b : Build) (c : RunConfig) (P : Nat) : List Byte := c.frame (b.sineQ c P)

/-- The mid-level frame of a silence (R155, R172). -/
def RunConfig.midFrame (c : RunConfig) : List Byte := c.frame c.midCode

/-- What a frame step and a silence frame step share (R107, R172): the two overflow tests, in that order and without the
sink; then, once the sink accepts, the frame goes out and `after` says what the engine does next. While the sink does not
accept, the engine holds (R66). -/
def frameStepWith (bytes : List Byte) (after : State → State) (s : State) : Result :=
  if s.countOverflows then .next (raise .countOverflow s.cw s)
  else if s.clockOverflows then .next (raise .clockOverflow s.cw s)
  else if s.sinkAccepts then .next (after (emit bytes s))
  else .next s

/-- The frame the output port offers, if any (R66, R107, R172): none outside RUN, between frames, or where the step would
raise an overflow. -/
def State.offered (s : State) : Option (List Byte) :=
  if s.state = .run ∧ s.countOverflows = false ∧ s.clockOverflows = false then
    match s.ms with
    | .ready => none
    | .atBegin _ _ _ => none
    | .burst _ _ P _ => some (s.build.toneFrame s.cfg P)
    | .silence _ => some s.cfg.midFrame
  else none

end Sys2Proof.Machine
end

