-- ==== Sys2Proof/Machine/Sequencing.lean ====
section
/-! DEFINITION. Command sequencing (43_sequencing.md): the commands NOP, SILENCE and END, and the silence frame step. -/
namespace Sys2Proof.Machine

/-- NOP: `ms <- Ready`, and nothing else (R171). -/
def execNop (s : State) : Result := .next (setMs .ready s)

/-- SILENCE at dispatch (R173): no frame, or `Kdur(D)` mid-level frames to come. -/
def execSilence (d : Nat) (s : State) : Result :=
  if s.build.kdur s.cfg d = 0 then .next (setMs .ready s) else .next (setMs (.silence (s.build.kdur s.cfg d)) s)

/-- END (R174): the run is done, unless a word stands behind END in the FIFO. -/
def execEnd (s : State) : Result :=
  match s.queue with
  | [] => .next (finish s)
  | w :: _ => .next (raise .cmdNotRunning w s)

/-- What the engine does after a mid-level frame has gone out (R172). -/
def afterSilence (r : Nat) (s : State) : State :=
  if r = 1 then setMs .ready s else setMs (.silence (r - 1)) s

/-- The silence frame step (R172). It does not snap the clock. -/
def silenceStep (r : Nat) (s : State) : Result :=
  if s.cfg.validate ≠ .none then .fault .illegalConfig
  else frameStepWith s.cfg.midFrame (afterSilence r) s

end Sys2Proof.Machine
end

