-- ==== Sys2Proof/Machine/Framer.lean ====
section
/-! DEFINITION. The Byte Framer (41_framer.md): the commands BIT and BYTE, and the sequence of a byte's slots. -/
namespace Sys2Proof.Machine

/-- BIT at dispatch: `ms <- Begin(B = 1 ? 2 fL : fL, Kbit, Single)` (R130). -/
def execBit (b : Nat) (s : State) : Result :=
  .next (setMs (.atBegin (s.cfg.toneOf (decide (b = 1))) s.cfg.kbit .single) s)

/-- Begin slot `j` of byte `v` (R131, R132). -/
def beginSlot (v : Byte) (j : Nat) (s : State) : State :=
  setMs (.atBegin (s.cfg.slotFreq v j) s.cfg.kbit (.byte v j)) s

/-- BYTE at dispatch: begin slot 0, the start bit (R131). -/
def execByte (v : Nat) (s : State) : Result := .next (beginSlot (BitVec.ofNat 8 v) 0 s)

/-- `next_slot(v, j)` (R132): the next slot's burst, or the command is finished. -/
def nextSlot (v : Byte) (j : Nat) (s : State) : State :=
  if j + 1 < s.cfg.slots then beginSlot v (j + 1) s else setMs .ready s

end Sys2Proof.Machine
end

