-- ==== Sys2Proof/Machine/Synthesizer.lean ====
section
/-! DEFINITION. The Carrier Synthesizer (40_synthesizer.md): the commands TONE.S and TONE.M, and the burst begin and frame
steps. -/
namespace Sys2Proof.Machine

/-- TONE.S at dispatch: `ms <- Begin(fL, Kdur(D), Single)` (R110). -/
def execToneS (d : Nat) (s : State) : Result := .next (setMs (.atBegin s.cfg.fL (s.build.kdur s.cfg d) .single) s)

/-- TONE.M at dispatch: `ms <- Begin(2 fL, Kdur(D), Single)` (R111). -/
def execToneM (d : Nat) (s : State) : Result := .next (setMs (.atBegin s.cfg.fMark (s.build.kdur s.cfg d) .single) s)

/-- `end_of_burst(ctx)` (R108). -/
def endOfBurst (ctx : Ctx) (s : State) : State :=
  match ctx with
  | .single => setMs .ready s
  | .byte v j => nextSlot v j s

/-- The burst begin step (R106): the clock snaps down, and a burst of no frames ends at once. -/
def burstBegin (f count : Nat) (ctx : Ctx) (s : State) : Result :=
  if s.cfg.validate ≠ .none then .fault .illegalConfig
  else if count = 0 then .next (endOfBurst ctx (snapClock s))
  else .next (setMs (.burst f count 0 ctx) (snapClock s))

/-- What the engine does after a frame of a burst has gone out (R107). -/
def afterFrame (f r P : Nat) (ctx : Ctx) (s : State) : State :=
  if r = 1 then endOfBurst ctx s else setMs (.burst f (r - 1) (s.cfg.nextPhase f P) ctx) s

/-- The frame step (R107). -/
def frameStep (f r P : Nat) (ctx : Ctx) (s : State) : Result :=
  if s.cfg.validate ≠ .none then .fault .illegalConfig
  else frameStepWith (s.build.toneFrame s.cfg P) (afterFrame f r P ctx) s

end Sys2Proof.Machine
end

