-- ==== Sys2Proof/Machine/Dispatch.lean ====
section
/-! DEFINITION. One arm per command: its meaning at the dispatch step, on the state in which its word has been popped and
is the current command word (43_sequencing.md R170). -/
namespace Sys2Proof.Machine

def exec (i : Instr) (s : State) : Host.Outcome State Fault Refusal :=
  match i with
  | .nop => Sys2Proof.Machine.execNop s
  | .byte v => Sys2Proof.Machine.execByte v s
  | .bit b => Sys2Proof.Machine.execBit b s
  | .toneS d => Sys2Proof.Machine.execToneS d s
  | .toneM d => Sys2Proof.Machine.execToneM d s
  | .silence d => Sys2Proof.Machine.execSilence d s
  | .endRun => Sys2Proof.Machine.execEnd s

end Sys2Proof.Machine
end

