-- ==== Sys2Proof/Machine/Engine.lean ====
section
/-! DEFINITION. The engine's steps (R41): dispatch (R170), and the choice of the one step that `ms` enables. -/
namespace Sys2Proof.Machine

/-- The dispatch of the word `w`, popped from the FIFO with `rest` behind it (R170): decode it, then take CMD_ILLEGAL or
the command's own effect. -/
def dispatchWord (w : Word) (rest : List Word) (s : State) : Result :=
  match decode w with
  | .error _ => .next (raise .cmdIllegal w (popTo w rest s))
  | .ok i => exec i (popTo w rest s)

/-- The dispatch step, or the wait for a push while the FIFO is empty (R41, R170, R215). -/
def dispatchStep (s : State) : Result :=
  match s.queue with
  | [] => .next s
  | w :: rest => dispatchWord w rest s

/-- The engine's move (R41): outside RUN it takes no step and all state is kept (R213). -/
def engineStep (s : State) : Result :=
  match s.state with
  | .idle => .next s
  | .done => .next s
  | .error => .next s
  | .run =>
    match s.ms with
    | .ready => dispatchStep s
    | .atBegin f count ctx => burstBegin f count ctx s
    | .burst f r P ctx => frameStep f r P ctx s
    | .silence r => silenceStep r s

/-- Whether an engine step is enabled (R41): a frame step that would raise an overflow does not wait for the sink. -/
def State.engineEnabled (s : State) : Bool :=
  match s.state with
  | .idle => false
  | .done => false
  | .error => false
  | .run =>
    match s.ms with
    | .ready => !s.cmdqEmpty
    | .atBegin _ _ _ => true
    | .burst _ _ _ _ => s.sinkAccepts || s.countOverflows || s.clockOverflows
    | .silence _ => s.sinkAccepts || s.countOverflows || s.clockOverflows

end Sys2Proof.Machine
end

