-- ==== Sys2Proof/Machine/HostPort.lean ====
section
/-! DEFINITION. The host's accesses to the register block (R22, R60 to R69): what each offset reads, what a write does, and
the push port of the command FIFO. -/
namespace Sys2Proof.Machine

/-- FORMAT as a word: QBITS 7:0, CHANNELS 15:8, STOP_BITS 23:16, bits 31:24 zero (R31). -/
def RunConfig.formatWord (c : RunConfig) : Word :=
  BitVec.ofNat 32 (c.qbits.toNat + 2 ^ 8 * c.channels.toNat + 2 ^ 16 * c.stopBits.toNat)

/-- The value a read of offset `off` returns (R22, R24, R37, R62): CTRL, CMD and unmapped offsets read 0. -/
def State.readValue (s : State) (off : BitVec 8) : Word :=
  match off.toNat with
  | 0x04 => s.status
  | 0x08 => BitVec.ofNat 32 s.errCode.code
  | 0x0C => s.errInfo
  | 0x10 => s.cfg.sampleRate
  | 0x14 => s.cfg.baud
  | 0x18 => s.cfg.carrier
  | 0x1C => s.cfg.formatWord
  | 0x24 => BitVec.ofNat 32 s.bytesWritten
  | 0x28 => BitVec.ofNat 32 s.clock
  | 0x2C => s.clockHiShadow
  | _ => 0

/-- `HostRead(off)` (R37, R68): a read of CLOCK_LO latches CLOCK[63:32] in CLOCK_HI_SHADOW; no other read changes the
block. The value goes to the host (log entry 4). -/
def hostRead (off : BitVec 8) (s : State) : State :=
  { s with
    readData := s.readValue off
    clockHiShadow := if off.toNat = 0x28 then BitVec.ofNat 32 (s.clock / 2 ^ 32) else s.clockHiShadow }

/-- A write to CTRL (R23): SOFT_RESET wins over START, and the other bits are ignored. -/
def writeCtrl (v : Word) (s : State) : State :=
  if v.getLsbD 1 then resetBlock s else if v.getLsbD 0 then start s else s

/-- A write to a configuration register whose new contents are `c` (R33): refused with CFG_LOCKED in RUN. -/
def writeConfig (off : BitVec 8) (c : RunConfig) (s : State) : State :=
  if s.state = .run then raise .cfgLocked (off.setWidth 32) s else { s with cfg := c }

/-- The configuration with FORMAT's three fields taken from `v` (R31). -/
def RunConfig.withFormat (c : RunConfig) (v : Word) : RunConfig :=
  { c with qbits := byteLane v 0, channels := byteLane v 1, stopBits := byteLane v 2 }

/-- A push of `w` through CMD (R34): appended in RUN, held while the FIFO is full, a fault in IDLE and DONE, discarded in
ERROR. -/
def push (w : Word) (s : State) : State :=
  match s.state with
  | .run => if s.queue.length < s.build.cmdqDepth then append w s else hold w s
  | .idle => raise .cmdNotRunning w s
  | .done => raise .cmdNotRunning w s
  | .error => s

/-- `HostWrite(off, v)` (R22, R62): writes to read-only registers and unmapped offsets are ignored. -/
def hostWrite (off : BitVec 8) (v : Word) (s : State) : State :=
  match off.toNat with
  | 0x00 => writeCtrl v s
  | 0x10 => writeConfig off { s.cfg with sampleRate := v } s
  | 0x14 => writeConfig off { s.cfg with baud := v } s
  | 0x18 => writeConfig off { s.cfg with carrier := v } s
  | 0x1C => writeConfig off (s.cfg.withFormat v) s
  | 0x20 => push v s
  | _ => s

/-- Whether an access has the one width and alignment of the interface (R61). -/
def inInterface (width : Nat) (off : BitVec 8) : Bool := decide (width = 4 ∧ off.toNat % 4 = 0)

/-- One host access (R61, R63). -/
def access (a : Access) (s : State) : Result :=
  match a with
  | .read width off => if inInterface width off then .next (hostRead off s) else .refused .accessOutsideInterface
  | .write width off v =>
    if inInterface width off then .next (hostWrite off v s) else .refused .accessOutsideInterface

/-- What is left of the host's program after `op`, whose read of STATUS returned `v`, with `rest` behind it (R232, R237).
STATE is bits 1:0 of STATUS, where 2 is DONE and 3 is ERROR, and CMDQ_FULL is bit 4 (R24, R25). -/
def HostOp.after (op : HostOp) (v : Word) (rest : List HostOp) : List HostOp :=
  match op with
  | .once _ => rest
  | .stopOnError report => if v.toNat % 4 = 3 then report.map .once else rest
  | .awaitEnd report =>
    if v.toNat % 4 = 3 then report.map .once else if v.toNat % 4 = 2 then rest else .awaitEnd report :: rest
  | .awaitRoom => if v.getLsbD 4 then .awaitRoom :: rest else rest

/-- A read of STATUS on which the host's program goes on as `op` says (R232, R237). -/
def pollStatus (op : HostOp) (rest : List HostOp) (s : State) : State :=
  hostRead 0x04 { s with hostProg := op.after s.status rest }

/-- One operation of the host's program, with `rest` behind it: one access each time (R63, R232). -/
def hostOp (op : HostOp) (rest : List HostOp) (s : State) : Result :=
  match op with
  | .once a => access a { s with hostProg := rest }
  | .stopOnError _ => .next (pollStatus op rest s)
  | .awaitEnd _ => .next (pollStatus op rest s)
  | .awaitRoom => .next (pollStatus op rest s)

/-- The host's move (R63, R65): its next operation in program order, none while a push is held or when it has no more. -/
def hostTurn (s : State) : Result :=
  match s.heldPush with
  | some _ => .next s
  | none =>
    match s.hostProg with
    | [] => .next s
    | op :: rest => hostOp op rest s

end Sys2Proof.Machine
end

