-- ==== Sys2Proof/Machine/Scheduler.lean ====
section
/-! DEFINITION. Which agent moves (R19, R63), as plain data in State (log entry 1), and what a step adds around the move. -/
namespace Sys2Proof.Machine

/-- One agent's move (R19, R63, R230). -/
def takeMove (m : Move) (s : State) : Result :=
  match m with
  | .host => hostTurn s
  | .engine => engineStep s
  | .sink b => .next { s with sinkAccepts := b }
  | .powerOn => .next (resetBlock s)

/-- The next move: the head of the schedule; past its end, the engine while it can step, and otherwise the host
(DESIGN CHOICE, log entry 1). -/
def agentMove (s : State) : Result :=
  match s.schedule with
  | [] => if s.engineEnabled then engineStep s else hostTurn s
  | m :: rest => takeMove m { s with schedule := rest }

/-- A held push completes at the first step after which it can (R65). -/
def settle (r : Result) : Result :=
  match r with
  | .next s => .next (completeHeld s)
  | .fault f => .fault f
  | .refused e => .refused e

/-- The state in which the engine's next dispatch takes the word `w`: RUN, no current command, `w` at the FIFO's head in
place of what stood there, and the engine to move (log entry 11). -/
def readyToDispatch (w : Word) (s : State) : State :=
  { s with state := .run, ms := .ready, queue := w :: s.queue.tail, schedule := .engine :: s.schedule }

end Sys2Proof.Machine
end

