-- ==== Sys2Proof/Machine/Step.lean ====
section
/-! DEFINITION. One step of the machine: one atomic move of one agent (R63), after which a held push completes if it can
(R65). -/
namespace Sys2Proof.Machine

def step (s : State) : Host.Outcome State Fault Refusal := settle (agentMove s)

/-- `s` with the given command word where the engine's next dispatch takes it, and the engine to move (log entry 11). -/
def State.withFetchWord (s : State) (nbits w : Nat) : State := readyToDispatch (tableWord nbits w) s

end Sys2Proof.Machine
end

