-- ==== Sys2Proof/Machine/HostProgram.lean ====
section
/-! DEFINITION. The host's side of a run: the pseudo-instructions and directives as commands (R87, R177), and the program
of one encode in order (R232). The block itself never runs any of this: it sees only the accesses. -/
namespace Sys2Proof.Machine

/-- A directive of the format (R87), after parsing: durations are `num / den` seconds. -/
inductive Directive where
  /-- HEADER: a mark-tone burst of at least the duration. -/
  | header (num den : Nat)
  /-- BLANK: silence for the duration. -/
  | blank (num den : Nat)
  /-- DATA `n`: up to `n` bytes of the source; with `n` = 0 the block is unbounded (R87). -/
  | data (n : Nat)
  /-- DATA without a count: every byte the source still has. -/
  | dataAll
  deriving DecidableEq, Repr

/-- `us(d) = ceil(d × 1 000 000)` for `d = num / den` seconds (R87). -/
def microseconds (num den : Nat) : Nat := (num * 1000000 + den - 1) / den

/-- The commands of one directive, and the source bytes left after it (R87). -/
def Directive.expand : Directive → List Byte → List Instr × List Byte
  | .header num den, src => ([.toneM (microseconds num den)], src)
  | .blank num den, src => ([.silence (microseconds num den)], src)
  | .data 0, src => (src.map fun v => .byte v.toNat, [])
  | .data (n + 1), src => ((src.take (n + 1)).map fun v => .byte v.toNat, src.drop (n + 1))
  | .dataAll, src => (src.map fun v => .byte v.toNat, [])

/-- The pseudo-instruction SPACEBIT (R87). -/
def spaceBit : Instr := .bit 0

/-- The pseudo-instruction MARKBIT (R87). -/
def markBit : Instr := .bit 1

/-- The commands of a list of directives in order, then END (R177). A source that runs out ends a data directive early. -/
def runCommands : List Directive → List Byte → List Instr
  | [], _ => [.endRun]
  | d :: ds, src => (d.expand src).1 ++ runCommands ds (d.expand src).2

/-- The four configuration writes, in one order (R232 step 1). -/
def configWrites (sampleRate baud carrier format : Word) : List Access :=
  [.write 4 0x10 sampleRate, .write 4 0x14 baud, .write 4 0x18 carrier, .write 4 0x1C format]

/-- The host's program for one encode (R232): `setup`, which is `configWrites` in any order; START; on ERROR, ERRCODE and no
more; the pushes; STATUS until DONE or ERROR; and on DONE, BYTES_WRITTEN. A command whose operand does not fit is an assembly
error (R86): then there is no such program. -/
def encodeProgram (setup : List Access) (cmds : List Instr) : Option (List HostOp) :=
  (cmds.mapM assemble).map fun words =>
    setup.map .once ++ [.once (.write 4 0x00 1), .stopOnError [.read 4 0x08]] ++
      words.map (fun w => .once (.write 4 0x20 w)) ++ [.awaitEnd [], .once (.read 4 0x24)]

end Sys2Proof.Machine
end

