-- ==== Sys2Proof/Safety.lean ====
section
/-! DEFINITION. The terms in which claims about the block are made: the invariant of its states, the exact real formulas of
the sine and the quantizers, and what the engine still owes the stream and the clock. -/
namespace Sys2Proof.Safety
open Sys2Proof.Machine

/-! ### The invariant -/

/-- `ctx` names a slot the byte has (R40). -/
def ctxOk (c : RunConfig) : Ctx → Prop
  | .single => True
  | .byte _ j => j < c.slots

/-- `f` is one of the two tones (R100). -/
def isTone (c : RunConfig) (f : Nat) : Prop := f = c.fL ∨ f = c.fMark

/-- The micro-state is one R40 allows: a burst or a silence has a frame to emit, and a phase index lies below `sr`. -/
def msOk (c : RunConfig) : MicroState → Prop
  | .ready => True
  | .atBegin f _ ctx => isTone c f ∧ ctxOk c ctx
  | .burst f r P ctx => isTone c f ∧ 1 ≤ r ∧ P < c.sr ∧ ctxOk c ctx
  | .silence r => 1 ≤ r

/-- The current command word is the command that the micro-state belongs to (R40). -/
def cwOk (cw : Word) : MicroState → Prop
  | .ready => True
  | .atBegin _ _ (.byte v _) => decode cw = .ok (.byte v.toNat)
  | .burst _ _ _ (.byte v _) => decode cw = .ok (.byte v.toNat)
  | .atBegin _ _ .single => (∃ b, decode cw = .ok (.bit b)) ∨ ∃ d, decode cw = .ok (.toneS d) ∨ decode cw = .ok (.toneM d)
  | .burst _ _ _ .single => (∃ b, decode cw = .ok (.bit b)) ∨ ∃ d, decode cw = .ok (.toneS d) ∨ decode cw = .ok (.toneM d)
  | .silence _ => ∃ d, decode cw = .ok (.silence d)

/-- The block is built with parameters that D4 and D9 call conformant. -/
abbrev conformant (b : Build) : Prop := 1 ≤ b.cmdqDepth ∧ b.cmdqDepth ≤ 255 ∧ 1 ≤ b.durDen

/-- What every state of the block satisfies that a run from reset can reach. -/
structure Inv (s : State) : Prop where
  /-- The build-time parameters are conformant (R9). -/
  buildConforms : conformant s.build
  /-- `|Q| ≤ CMDQ_DEPTH` (R39). -/
  queueFits : s.queue.length ≤ s.build.cmdqDepth
  /-- Outside RUN the FIFO is empty and there is no current command (R44, R175, R201). -/
  quietOutsideRun : s.state ≠ .run → s.queue = [] ∧ s.ms = .ready
  /-- A run has a configuration that START accepted (R33, R176). -/
  runIsLegal : s.state = .run → s.cfg.validate = .none
  /-- The micro-state is well formed (R40). -/
  microState : msOk s.cfg s.ms
  /-- The current word belongs to the micro-state (R40). -/
  currentWord : cwOk s.cw s.ms
  /-- A push is held only in RUN and by a full FIFO, or by a FIFO of one word whose word was END (R65; log entry 6). -/
  heldByFullQueue : s.heldPush ≠ none →
    (s.state = .run ∧ s.queue.length = s.build.cmdqDepth) ∨ (s.state = .done ∧ s.build.cmdqDepth = 1)
  /-- A code is recorded exactly in ERROR (R26, R202). -/
  codeInError : s.errCode ≠ .none ↔ s.state = .error
  /-- Without a recorded fault ERRINFO is 0 (R27). -/
  infoWithoutFault : s.errCode = .none → s.errInfo = 0
  /-- BYTES_WRITTEN is the length of the current or last run's output (R154). -/
  tally : s.runStart + s.bytesWritten = s.stream.length
  /-- BYTES_WRITTEN has `COUNT_W` bits and does not wrap (R35). -/
  countFits : s.bytesWritten < 2 ^ s.build.countWidth
  /-- CLOCK has `CLOCK_W` bits and does not wrap (R36). -/
  clockFits : s.clock < 2 ^ s.build.clockWidth

/-! ### The exact formulas over the real numbers -/

/-- `rha(x)`: round half away from zero (R12). -/
noncomputable def roundHalfAway (x : ℝ) : ℤ := if 0 ≤ x then ⌊x + 1 / 2⌋ else -⌊-x + 1 / 2⌋

/-- `Sin(P, sr) = sin(2π P / sr)` (R16). -/
noncomputable def sinPhase (P sr : ℕ) : ℝ := Real.sin (2 * Real.pi * P / sr)

/-- The value that the quantizer rounds: `128 - 127 a` for 8 bits, `-32767 a` for 16 (R150, R151). -/
noncomputable def scaled (c : RunConfig) (a : ℝ) : ℝ :=
  if c.qbits.toNat = 8 then 128 - 127 * a else -32767 * a

/-- `Q_qb(a)` (R150, R151). -/
noncomputable def exactQuantize (c : RunConfig) (a : ℝ) : ℤ := roundHalfAway (scaled c a)

/-- The exact `SINE_Q(P) = Q_qb(Sin(P, sr))` (R16, R152). -/
noncomputable def exactSineCode (c : RunConfig) (P : ℕ) : ℤ := exactQuantize c (sinPhase P c.sr)

/-- What 93_implementation_defined.md I2 asks of a code at phase index `P`: it differs from the exact code by at most 1, and it
is the exact code wherever the exact scaled value lies at least `10^-6` from every half-integer. -/
def namedProperty (c : RunConfig) (P : ℕ) (code : ℤ) : Prop :=
  |code - exactSineCode c P| ≤ 1 ∧
    ((∀ k : ℤ, (1 : ℝ) / 10 ^ 6 ≤ |scaled c (sinPhase P c.sr) - (k + 1 / 2)|) → code = exactSineCode c P)

/-- A replacement for `SINE_Q` that I2 admits: every entry of its table has the named property. -/
def tableAdmissible (b : Build) : Prop :=
  ∀ e ∈ b.sineTable, ∀ c : RunConfig, c.validate = .none → c.qbits.toNat = e.qbits → c.sr = e.sr → e.P < c.sr →
    namedProperty c e.P e.code

/-! ### What the engine still owes the stream -/

/-- The frames of `r` samples at frequency `f` from phase index `P` on (R103, R105, R152). -/
def burstBytes (b : Build) (c : RunConfig) (f : Nat) : Nat → Nat → List Byte
  | 0, _ => []
  | r + 1, P => b.toneFrame c P ++ burstBytes b c f r (c.nextPhase f P)

/-- The frames of `n` slots of byte `v` from slot `j` on (R132). -/
def slotBytes (b : Build) (c : RunConfig) (v : Byte) : Nat → Nat → List Byte
  | 0, _ => []
  | n + 1, j => burstBytes b c (c.slotFreq v j) c.kbit 0 ++ slotBytes b c v n (j + 1)

/-- `r` mid-level frames (R172). -/
def silenceBytes (c : RunConfig) (r : Nat) : List Byte := (List.replicate r c.midFrame).flatten

/-- What follows the burst of context `ctx` within its command (R108). -/
def ctxBytes (b : Build) (c : RunConfig) : Ctx → List Byte
  | .single => []
  | .byte v j => slotBytes b c v (c.slots - (j + 1)) (j + 1)

/-- What the current command has still to emit. -/
def msBytes (b : Build) (c : RunConfig) : MicroState → List Byte
  | .ready => []
  | .atBegin f k ctx => burstBytes b c f k 0 ++ ctxBytes b c ctx
  | .burst f r P ctx => burstBytes b c f r P ++ ctxBytes b c ctx
  | .silence r => silenceBytes c r

/-- Every frame of one command, by its rule (R110, R111, R130, R131, R171, R173, R174). -/
def instrBytes (b : Build) (c : RunConfig) : Instr → List Byte
  | .nop => []
  | .byte v => slotBytes b c (BitVec.ofNat 8 v) c.slots 0
  | .bit v => burstBytes b c (c.toneOf (decide (v = 1))) c.kbit 0
  | .toneS d => burstBytes b c c.fL (b.kdur c d) 0
  | .toneM d => burstBytes b c c.fMark (b.kdur c d) 0
  | .silence d => silenceBytes c (b.kdur c d)
  | .endRun => []

/-! ### What the engine still owes the clock -/

/-- CLOCK after a burst of `k` frames begun at clock `n` (R108). -/
def burstClock (c : RunConfig) (k n : Nat) : Nat := c.snap n + k * c.fL

/-- CLOCK after `m` bit bursts begun at clock `n` (R108, R132). -/
def bitsClock (c : RunConfig) : Nat → Nat → Nat
  | 0, n => n
  | m + 1, n => bitsClock c m (burstClock c c.kbit n)

/-- CLOCK after the slots that follow the burst of context `ctx` (R108, R132). -/
def ctxClock (c : RunConfig) : Ctx → Nat → Nat
  | .single, n => n
  | .byte _ j, n => bitsClock c (c.slots - (j + 1)) n

/-- CLOCK after the current command, from clock `n` on. -/
def msClock (c : RunConfig) : MicroState → Nat → Nat
  | .ready, n => n
  | .atBegin _ k ctx, n => ctxClock c ctx (burstClock c k n)
  | .burst _ r _ ctx, n => ctxClock c ctx (n + r * c.fL)
  | .silence r, n => n + r * c.fL

/-- CLOCK after one command begun at clock `n` (R108, R135, R171, R173, R174). -/
def instrClock (b : Build) (c : RunConfig) : Instr → Nat → Nat
  | .nop, n => n
  | .byte _, n => bitsClock c c.slots n
  | .bit _, n => burstClock c c.kbit n
  | .toneS d, n => burstClock c (b.kdur c d) n
  | .toneM d, n => burstClock c (b.kdur c d) n
  | .silence d, n => n + b.kdur c d * c.fL
  | .endRun, n => n

/-! ### A whole run -/

/-- The commands of a list of words, up to its first END or illegal word: no word from there on is part of the run's output
(R84, R174, R175). -/
def commandsOf : List Word → List Instr
  | [] => []
  | w :: ws =>
    match decode w with
    | .ok .endRun => []
    | .ok i => i :: commandsOf ws
    | .error _ => []

/-- Every frame of a list of commands. -/
def allBytes (b : Build) (c : RunConfig) (cmds : List Instr) : List Byte := cmds.flatMap (instrBytes b c)

/-- CLOCK after a list of commands begun at clock `n`. -/
def allClock (b : Build) (c : RunConfig) (cmds : List Instr) (n : Nat) : Nat :=
  cmds.foldl (fun n i => instrClock b c i n) n

/-- The word an operation of the host's program pushes, if it is a push (R34). -/
def pushedWord : HostOp → Option Word
  | .once (.write _ off v) => if off.toNat = 0x20 then some v else none
  | .once (.read _ _) => none
  | .stopOnError _ => none
  | .awaitEnd _ => none
  | .awaitRoom => none

/-- The words the host has still to push, in order. -/
def pushesToCome (prog : List HostOp) : List Word := prog.filterMap pushedWord

/-- The commands a run has still to take: those of the words in the FIFO, held, or still to be pushed; none once the run has
ended. -/
def commandsToCome (s : State) : List Instr :=
  if s.state = .run then commandsOf (s.queue ++ s.heldPush.toList ++ pushesToCome s.hostProg) else []

/-- The output of the run so far, and then all that it still owes. -/
def wholeOutput (s : State) : List Byte :=
  s.runStream ++ msBytes s.build s.cfg s.ms ++ allBytes s.build s.cfg (commandsToCome s)

/-- CLOCK when all that the run still owes has been emitted. -/
def wholeClock (s : State) : Nat := allClock s.build s.cfg (commandsToCome s) (msClock s.cfg s.ms s.clock)

/-- A run that has just begun, in the state a successful START leaves (R44, R176). -/
def freshRun (s : State) : Prop :=
  Inv s ∧ s.state = .run ∧ s.clock = 0 ∧ s.bytesWritten = 0 ∧ s.queue = [] ∧ s.ms = .ready ∧ s.heldPush = none ∧
    s.runStart = s.stream.length

/-- `n` steps of a run lead from `s` to `t`: every state before the last is in RUN, and what host and sink do is free. -/
def runFor : Nat → State → State → Prop
  | 0, s, t => s = t
  | n + 1, s, t => s.state = .run ∧ ∃ u, step s = .next u ∧ runFor n u t

/-- Every piece of the block's own state has its reset value (R43, R230). -/
def blockIsReset (t : State) : Prop :=
  t.state = .idle ∧ t.errCode = .none ∧ t.errInfo = 0 ∧ t.cfg = RunConfig.reset ∧ t.bytesWritten = 0 ∧ t.clock = 0 ∧
    t.clockHiShadow = 0 ∧ t.queue = [] ∧ t.ms = .ready ∧ t.cw = 0 ∧ t.offered = none

/-- `n` steps, stopping at the first fault or refusal: `Host.Core.run` of the machine, at its own types. -/
def steps : Nat → State → Result
  | 0, s => .next s
  | n + 1, s =>
    match step s with
    | .next t => steps n t
    | .fault f => .fault f
    | .refused r => .refused r

/-- The engine runs undisturbed: the schedule is over, the sink accepts and no push is held, so the engine moves at every
step while one is enabled (log entry 1). -/
def undisturbed (s : State) : Prop := s.schedule = [] ∧ s.sinkAccepts = true ∧ s.heldPush = none

end Sys2Proof.Safety
end

