-- ==== Sys2Proof/Certificates/Slice0/Obligations.lean ====
section
/-! DEFINITION. The statements about the block, from the numbered rules of spec/. Each docstring names the rules it says. -/
open Sys2Proof Sys2Proof.Machine Sys2Proof.Safety

/-! ### Encoding -/

/-- Every well-formed command, at every operand its field admits, is read back from its word (R80, R82, R83). -/
def Obligations.DecodeInvertsEncode : Prop := ∀ i : Instr, i.wf = true → decode (encode i) = .ok i

/-- A legal word has one meaning: what it decodes to is well formed and encodes to that word and no other (R80, R81). -/
def Obligations.EncodeInvertsDecode : Prop := ∀ (w : Word) (i : Instr), decode w = .ok i → i.wf = true ∧ encode i = w

/-- R84: a word is illegal exactly when its opcode is 0x7 to 0xF, or its opcode is 0x0, 0x1, 0x2 or 0x6 and a reserved bit
is 1; at dispatch an illegal word raises CMD_ILLEGAL with the word. -/
def Obligations.IllegalWordsRaiseCmdIllegal : Prop :=
  ∀ w : Word,
    ((∃ e, decode w = .error e) ↔
      (7 ≤ (w.extractLsb' 28 4).toNat ∨
        ((w.extractLsb' 28 4 = 0 ∨ w.extractLsb' 28 4 = 6) ∧ w.extractLsb' 0 28 ≠ 0) ∨
        (w.extractLsb' 28 4 = 1 ∧ w.extractLsb' 8 20 ≠ 0) ∨
        (w.extractLsb' 28 4 = 2 ∧ w.extractLsb' 1 27 ≠ 0))) ∧
      ∀ (s : State) (rest : List Word), (∃ e, decode w = .error e) →
        dispatchWord w rest s = .next (raise .cmdIllegal w (popTo w rest s))

/-- R89: the encoded examples. -/
def Obligations.EncodedExamplesDecode : Prop :=
  decode 0x00000000 = .ok .nop ∧ decode 0x100000A5 = .ok (.byte 0xA5) ∧ decode 0x20000001 = .ok (.bit 1) ∧
    decode 0x300003E8 = .ok (.toneS 1000) ∧ decode 0x400007D0 = .ok (.toneM 2000) ∧
    decode 0x500003E8 = .ok (.silence 1000) ∧ decode 0x60000000 = .ok .endRun ∧
    decode 0x70000000 = .error .reservedOpcode ∧ decode 0x100001A5 = .error .reservedBit ∧
    decode 0x20000002 = .error .reservedBit

/-- R82: every operand is the unsigned, zero-extended field of its word. -/
def Obligations.OperandsAreZeroExtendedFields : Prop :=
  ∀ w : Word,
    (∀ v, decode w = .ok (.byte v) → v = (w.extractLsb' 0 8).toNat ∧ v ≤ 255) ∧
      (∀ b, decode w = .ok (.bit b) → b = (w.extractLsb' 0 1).toNat ∧ (b = 0 ∨ b = 1)) ∧
      (∀ d, decode w = .ok (.toneS d) ∨ decode w = .ok (.toneM d) ∨ decode w = .ok (.silence d) →
        d = (w.extractLsb' 0 28).toNat ∧ d ≤ 268435455)

/-- The host's tools: the pseudo-instructions' expansions, with `us(d)` the least number of microseconds that covers `d`
seconds, and a data directive of count 0 unbounded (from R87); the assembler, for which an operand out of range is an error and
no other operand is (from R86); a run's commands in directive order, then END (from R177); and the program of one encode, whose
`setup` writes the configuration: START, then on ERROR ERRCODE and no more, the pushes, STATUS until DONE or ERROR, and on DONE
BYTES_WRITTEN (from R232). The last clauses say how that program goes on from each of its reads of STATUS (R232, R237; the
operations are the model's own, log entry 15). -/
def Obligations.HostToolsFollowTheirRules : Prop :=
  (∀ num den, 0 < den → IsLeast {u : ℕ | num * 1000000 ≤ u * den} (microseconds num den)) ∧
    (∀ num den src, (Directive.header num den).expand src = ([.toneM (microseconds num den)], src)) ∧
    (∀ num den src, (Directive.blank num den).expand src = ([.silence (microseconds num den)], src)) ∧
    (∀ n (src : List Byte), 0 < n →
      (Directive.data n).expand src = ((src.take n).map fun v => .byte v.toNat, src.drop n)) ∧
    (∀ src : List Byte, (Directive.data 0).expand src = (src.map fun v => .byte v.toNat, [])) ∧
    (∀ src : List Byte, Directive.dataAll.expand src = (src.map fun v => .byte v.toNat, [])) ∧
    spaceBit = .bit 0 ∧ markBit = .bit 1 ∧
    (∀ v, assemble (.byte v) = none ↔ 255 < v) ∧ (∀ b, assemble (.bit b) = none ↔ 1 < b) ∧
    (∀ d, (assemble (.toneS d) = none ↔ 268435455 < d) ∧ (assemble (.toneM d) = none ↔ 268435455 < d) ∧
      (assemble (.silence d) = none ↔ 268435455 < d)) ∧
    assemble .nop = some 0x00000000 ∧ assemble .endRun = some 0x60000000 ∧
    (∀ src, runCommands [] src = [.endRun]) ∧
    (∀ d ds src, runCommands (d :: ds) src = (d.expand src).1 ++ runCommands ds (d.expand src).2) ∧
    (∀ setup cmds words, cmds.mapM assemble = some words → encodeProgram setup cmds =
      some (setup.map HostOp.once ++ [.once (.write 4 0x00 1), .stopOnError [.read 4 0x08]] ++
        words.map (fun w => .once (.write 4 0x20 w)) ++ [.awaitEnd [], .once (.read 4 0x24)])) ∧
    (∀ setup cmds, cmds.mapM assemble = none → encodeProgram setup cmds = none) ∧
    ∀ (s s₀ : State) (rest : List HostOp), s.heldPush = none → s₀ = { s with readData := s.readValue 0x04 } →
      (∀ report, s.hostProg = .stopOnError report :: rest → hostTurn s =
        .next { s₀ with hostProg := if s.state = .error then report.map .once else rest }) ∧
      (∀ report, s.hostProg = .awaitEnd report :: rest → hostTurn s =
        .next { s₀ with hostProg :=
          if s.state = .error then report.map .once else if s.state = .done then rest else s.hostProg }) ∧
      (s.hostProg = .awaitRoom :: rest → hostTurn s =
        .next { s₀ with hostProg := if s.queue.length = s.build.cmdqDepth then s.hostProg else rest })

/-! ### Reset and the register block -/

/-- R43: the state after reset. A START straight after it fails with CFG_BAUD. -/
def Obligations.ResetLeavesTheStatedValues : Prop :=
  blockIsReset State.reset ∧ State.reset.cfg.sampleRate = 0 ∧ State.reset.cfg.baud = 0 ∧ State.reset.cfg.carrier = 0 ∧
    State.reset.cfg.qbits = 0 ∧ State.reset.cfg.channels = 0 ∧ State.reset.cfg.stopBits = 0 ∧
    (start State.reset).state = .error ∧ (start State.reset).errCode = .cfgBaud

/-- R230: power-on reset and SOFT_RESET do the same thing in every state: every piece of the block's state takes its reset
value in one step, and the frames the sink accepted stay with it. -/
def Obligations.ResetFromEveryState : Prop :=
  (∀ (s : State) (v : Word), v.getLsbD 1 = true →
    blockIsReset (hostWrite 0x00 v s) ∧ (hostWrite 0x00 v s).stream = s.stream) ∧
    ∀ (s : State) (rest : List Move), s.schedule = .powerOn :: rest →
      ∃ t, step s = .next t ∧ blockIsReset t ∧ t.stream = s.stream

/-- R24, R25: every field of STATUS, for a FIFO of at most 255 words (R9, D4). Writes to STATUS are ignored. -/
def Obligations.StatusFields : Prop :=
  ∀ (s : State) (v : Word), s.build.cmdqDepth ≤ 255 → s.queue.length ≤ s.build.cmdqDepth →
    (s.readValue 0x04).extractLsb' 0 2 = (match s.state with | .idle => 0 | .run => 1 | .done => 2 | .error => 3) ∧
      ((s.readValue 0x04).getLsbD 2 = true ↔ s.ms ≠ .ready) ∧
      ((s.readValue 0x04).getLsbD 3 = true ↔ s.queue.length = 0) ∧
      ((s.readValue 0x04).getLsbD 4 = true ↔ s.queue.length = s.build.cmdqDepth) ∧
      (s.readValue 0x04).extractLsb' 5 3 = 0 ∧
      (s.readValue 0x04).extractLsb' 8 8 = BitVec.ofNat 8 s.queue.length ∧
      (s.readValue 0x04).extractLsb' 16 16 = 0 ∧ hostWrite 0x04 v s = s

/-- What each register but STATUS reads (STATUS is `StatusFields`), with the codes of ERRCODE and the fields of FORMAT in every
state; that the host gets it; and that a read changes nothing of the block but CLOCK_HI_SHADOW, and that only at CLOCK_LO (from
R22, R26, R27, R28, R29, R30, R31, R35, R37, R68 and R200). BYTES_WRITTEN reads as its value wherever 32 bits hold it; the low
32 bits of a wider one are the model's choice (log entry 13). -/
def Obligations.ReadsReturnTheRegisters : Prop :=
  ∀ s : State, s.readValue 0x00 = 0 ∧
    s.readValue 0x08 = (match s.errCode with
      | .none => 0
      | .cfgBaud => 1
      | .cfgChannels => 2
      | .cfgQuant => 3
      | .cfgCarrierZero => 4
      | .cfgRate => 5
      | .cfgMultiple => 6
      | .cmdIllegal => 7
      | .cmdNotRunning => 8
      | .cfgLocked => 9
      | .countOverflow => 10
      | .clockOverflow => 11) ∧
    s.readValue 0x0C = s.errInfo ∧
    s.readValue 0x10 = s.cfg.sampleRate ∧ s.readValue 0x14 = s.cfg.baud ∧ s.readValue 0x18 = s.cfg.carrier ∧
    (s.readValue 0x1C).extractLsb' 0 8 = s.cfg.qbits ∧ (s.readValue 0x1C).extractLsb' 8 8 = s.cfg.channels ∧
    (s.readValue 0x1C).extractLsb' 16 8 = s.cfg.stopBits ∧ (s.readValue 0x1C).extractLsb' 24 8 = 0 ∧
    s.readValue 0x20 = 0 ∧ s.readValue 0x24 = BitVec.ofNat 32 s.bytesWritten ∧
    (s.bytesWritten < 2 ^ 32 → (s.readValue 0x24).toNat = s.bytesWritten) ∧
    s.readValue 0x28 = BitVec.ofNat 32 s.clock ∧ s.readValue 0x2C = s.clockHiShadow ∧
    (∀ off : BitVec 8, off ≠ 0x28 → hostRead off s = { s with readData := s.readValue off }) ∧
    hostRead 0x28 s =
      { s with readData := BitVec.ofNat 32 s.clock, clockHiShadow := BitVec.ofNat 32 (s.clock / 2 ^ 32) }

/-- R31: the three fields of FORMAT hold whatever was written to them, and bits 31:24 read 0 whatever was written. -/
def Obligations.FormatHoldsItsFields : Prop :=
  ∀ (s : State) (v : Word), s.state ≠ .run →
    (hostWrite 0x1C v s).cfg.qbits = v.extractLsb' 0 8 ∧ (hostWrite 0x1C v s).cfg.channels = v.extractLsb' 8 8 ∧
      (hostWrite 0x1C v s).cfg.stopBits = v.extractLsb' 16 8 ∧
      (hostWrite 0x1C v s).readValue 0x1C = v &&& 0x00FFFFFF

/-- R62: unmapped offsets read 0 and ignore writes, writes to read-only registers are ignored, reads of write-only registers
return 0, and none of these accesses raises a fault. -/
def Obligations.UnmappedAndReadOnlyOffsets : Prop :=
  (∀ (s : State) (off : BitVec 8) (v : Word), 0x30 ≤ off.toNat → s.readValue off = 0 ∧ hostWrite off v s = s) ∧
    (∀ (s : State) (off : BitVec 8) (v : Word),
      off = 0x04 ∨ off = 0x08 ∨ off = 0x0C ∨ off = 0x24 ∨ off = 0x28 ∨ off = 0x2C → hostWrite off v s = s) ∧
    (∀ s : State, s.readValue 0x00 = 0 ∧ s.readValue 0x20 = 0) ∧
    ∀ (s : State) (off : BitVec 8), (hostRead off s).state = s.state ∧ (hostRead off s).errCode = s.errCode

/-- R61: an access of another width or at an offset that is no multiple of 4 has no step; every other access has one. Here
the host's turn comes with that access next in program order, and `s₀` is the state once both have been taken. -/
def Obligations.AccessesOutsideTheInterfaceAreRefused : Prop :=
  ∀ (s s₀ : State) (width : Nat) (off : BitVec 8) (v : Word) (sched : List Move) (rest : List HostOp),
    s.schedule = .host :: sched → s.heldPush = none → s₀ = { s with schedule := sched, hostProg := rest } →
      (s.hostProg = .once (.read width off) :: rest →
        (¬(width = 4 ∧ off.toNat % 4 = 0) → step s = .refused .accessOutsideInterface) ∧
          (width = 4 ∧ off.toNat % 4 = 0 → step s = .next (hostRead off s₀))) ∧
      (s.hostProg = .once (.write width off v) :: rest →
        (¬(width = 4 ∧ off.toNat % 4 = 0) → step s = .refused .accessOutsideInterface) ∧
          (width = 4 ∧ off.toNat % 4 = 0 → step s = settle (.next (hostWrite off v s₀))))

/-- R23: a write to CTRL. SOFT_RESET wins over START, bits 31:2 are ignored, and CTRL reads as 0. -/
def Obligations.CtrlRequestsActions : Prop :=
  ∀ (s : State) (v : Word), s.readValue 0x00 = 0 ∧
    hostWrite 0x00 v s = if v.getLsbD 1 then resetBlock s else if v.getLsbD 0 then start s else s

/-- R33: in RUN a configuration write changes no configuration register and raises CFG_LOCKED with its offset; in every other
state it takes effect. -/
def Obligations.ConfigurationLock : Prop :=
  (∀ (s : State) (v : Word) (off : BitVec 8), s.state = .run → off = 0x10 ∨ off = 0x14 ∨ off = 0x18 ∨ off = 0x1C →
    hostWrite off v s = raise .cfgLocked (off.setWidth 32) s ∧ (hostWrite off v s).cfg = s.cfg) ∧
    ∀ (s : State) (v : Word), s.state ≠ .run →
      hostWrite 0x10 v s = { s with cfg := { s.cfg with sampleRate := v } } ∧
        hostWrite 0x14 v s = { s with cfg := { s.cfg with baud := v } } ∧
        hostWrite 0x18 v s = { s with cfg := { s.cfg with carrier := v } } ∧
        hostWrite 0x1C v s =
          { s with cfg := { s.cfg with qbits := v.extractLsb' 0 8, channels := v.extractLsb' 8 8, stopBits := v.extractLsb' 16 8 } }

/-- R34: a push appends in RUN, holds at a full FIFO, raises CMD_NOT_RUNNING in IDLE and DONE and is discarded in ERROR. A
read of CMD returns 0 and has no effect. -/
def Obligations.PushRule : Prop :=
  ∀ (s : State) (w : Word),
    (s.state = .run → s.queue.length < s.build.cmdqDepth → hostWrite 0x20 w s = { s with queue := s.queue ++ [w] }) ∧
      (s.state = .run → ¬s.queue.length < s.build.cmdqDepth → hostWrite 0x20 w s = { s with heldPush := some w }) ∧
      (s.state = .idle ∨ s.state = .done → hostWrite 0x20 w s = raise .cmdNotRunning w s) ∧
      (s.state = .error → hostWrite 0x20 w s = s) ∧
      hostRead 0x20 s = { s with readData := 0 }

/-- R65: while a push is held the host makes no other access. It completes at the first step after which STATE = RUN and the
FIFO has a free slot (the word is appended) or STATE = ERROR (it is discarded), and at no step after which STATE = RUN and the
FIFO is full. Here `u` is the state the agent's move leaves. -/
def Obligations.HeldPushCompletes : Prop :=
  (∀ (s : State) (w : Word), s.heldPush = some w → hostTurn s = .next s) ∧
    ∀ (s u : State) (w : Word), agentMove s = .next u → u.heldPush = some w →
      (u.state = .run → u.queue.length < u.build.cmdqDepth →
        step s = .next { u with queue := u.queue ++ [w], heldPush := none }) ∧
      (u.state = .error → step s = .next { u with heldPush := none }) ∧
      (u.state = .run → ¬u.queue.length < u.build.cmdqDepth → step s = .next u)

/-- R37: CLOCK_LO returns CLOCK[31:0] and latches CLOCK[63:32]; CLOCK_HI returns the latch and changes nothing; so the two
reads give the halves of one value even when engine steps fall between them. -/
def Obligations.ClockReadsAsOneValue : Prop :=
  ∀ s : State,
    (hostRead 0x28 s).readData = BitVec.ofNat 32 s.clock ∧
      (hostRead 0x28 s).clockHiShadow = BitVec.ofNat 32 (s.clock / 2 ^ 32) ∧
      hostRead 0x2C s = { s with readData := s.clockHiShadow } ∧
      (∀ t, engineStep s = .next t → t.clockHiShadow = s.clockHiShadow) ∧
      (∀ t, engineStep (hostRead 0x28 s) = .next t → s.clock < 2 ^ 64 →
        2 ^ 32 * (hostRead 0x2C t).readData.toNat + (hostRead 0x28 s).readData.toNat = s.clock) ∧
      State.reset.clockHiShadow = 0

/-! ### START and the configuration checks -/

/-- The START operation, as R176 gives it. That it also sets `runStart`, the mark of where the run's output begins, is the
model's choice (log entry 3) and no part of R176. -/
def Obligations.StartRule : Prop :=
  ∀ s : State,
    (∀ v : Word, v.getLsbD 0 = true → v.getLsbD 1 = false → hostWrite 0x00 v s = start s) ∧
    (s.state = .run ∨ s.state = .error → start s = s) ∧
      (s.state = .idle ∨ s.state = .done → s.cfg.validate ≠ .none → start s = raise s.cfg.validate 0 s) ∧
      (s.state = .idle ∨ s.state = .done → s.cfg.validate = .none →
        start s = { s with clock := 0, bytesWritten := 0, state := .run, runStart := s.stream.length })

/-- R203, R204: `validate()` answers the first failing check in the order BAUD, CHANNELS, QBITS, CARRIER zero, rate, multiple;
the rate check is exact; and a configuration that passes has `sr ≥ 8`, `fL ≥ baud ≥ 1` and an integer `M ≥ 1`. -/
def Obligations.ValidationReportsTheFirstFault : Prop :=
  ∀ c : RunConfig,
    (c.validate = .cfgBaud ↔ c.baud.toNat = 0) ∧
      (c.validate = .cfgChannels ↔ c.baud.toNat ≠ 0 ∧ c.channels ≠ 1 ∧ c.channels ≠ 2) ∧
      (c.validate = .cfgQuant ↔ c.baud.toNat ≠ 0 ∧ (c.channels = 1 ∨ c.channels = 2) ∧ c.qbits ≠ 8 ∧ c.qbits ≠ 16) ∧
      (c.validate = .cfgCarrierZero ↔ c.baud.toNat ≠ 0 ∧ (c.channels = 1 ∨ c.channels = 2) ∧
        (c.qbits = 8 ∨ c.qbits = 16) ∧ c.carrier.toNat = 0) ∧
      (c.validate = .cfgRate ↔ c.baud.toNat ≠ 0 ∧ (c.channels = 1 ∨ c.channels = 2) ∧ (c.qbits = 8 ∨ c.qbits = 16) ∧
        c.carrier.toNat ≠ 0 ∧ c.sampleRate.toNat < 8 * c.carrier.toNat) ∧
      (c.validate = .cfgMultiple ↔ c.baud.toNat ≠ 0 ∧ (c.channels = 1 ∨ c.channels = 2) ∧ (c.qbits = 8 ∨ c.qbits = 16) ∧
        c.carrier.toNat ≠ 0 ∧ 8 * c.carrier.toNat ≤ c.sampleRate.toNat ∧ c.carrier.toNat % c.baud.toNat ≠ 0) ∧
      (c.validate = .none ↔ c.baud.toNat ≠ 0 ∧ (c.channels = 1 ∨ c.channels = 2) ∧ (c.qbits = 8 ∨ c.qbits = 16) ∧
        c.carrier.toNat ≠ 0 ∧ 8 * c.carrier.toNat ≤ c.sampleRate.toNat ∧ c.carrier.toNat % c.baud.toNat = 0) ∧
      (c.validate = .none → 8 ≤ c.sampleRate.toNat ∧ c.baud.toNat ≤ c.carrier.toNat ∧ 1 ≤ c.baud.toNat ∧
        ∃ M, 1 ≤ M ∧ c.carrier.toNat = M * c.baud.toNat)

/-- R100: the two tones, and how often a legal configuration samples them. -/
def Obligations.TonesOfALegalConfiguration : Prop :=
  ∀ c : RunConfig, c.validate = .none →
    c.toneOf false = c.carrier.toNat ∧ c.toneOf true = 2 * c.carrier.toNat ∧ 8 * c.toneOf false ≤ c.sr ∧
      4 * c.toneOf true ≤ c.sr ∧ c.toneOf false < c.sr ∧ c.toneOf true < c.sr

/-! ### Faults -/

/-- R201: taking an error is one atomic change, and outside ERROR it is exactly this one; CLOCK, BYTES_WRITTEN and the stream
keep their values. -/
def Obligations.ErrorEntry : Prop :=
  ∀ (s : State) (c : ErrCode) (info : Word),
    (s.state ≠ .error →
      raise c info s = { s with errCode := c, errInfo := info, state := .error, queue := [], ms := .ready }) ∧
      (s.state = .error → raise c info s = s)

/-- R202: in ERROR the engine takes no step, pushes are discarded, START has no effect, configuration writes take effect, reads
work normally, and no step changes the recorded fault or leaves ERROR but a reset. -/
def Obligations.ErrorIsSticky : Prop :=
  ∀ s : State, s.state = .error →
    engineStep s = .next s ∧ (∀ w, hostWrite 0x20 w s = s) ∧ start s = s ∧
      (∀ off : BitVec 8, (hostRead off s).readData = s.readValue off) ∧
      (∀ v : Word, hostWrite 0x10 v s = { s with cfg := { s.cfg with sampleRate := v } } ∧
        hostWrite 0x14 v s = { s with cfg := { s.cfg with baud := v } } ∧
        hostWrite 0x18 v s = { s with cfg := { s.cfg with carrier := v } } ∧
        hostWrite 0x1C v s =
          { s with cfg := { s.cfg with qbits := v.extractLsb' 0 8, channels := v.extractLsb' 8 8, stopBits := v.extractLsb' 16 8 } }) ∧
      ∀ t, step s = .next t →
        (t.state = .error ∧ t.errCode = s.errCode ∧ t.errInfo = s.errInfo ∧ t.clock = s.clock ∧
          t.bytesWritten = s.bytesWritten ∧ t.stream = s.stream) ∨ blockIsReset t

/-- No transition of STATE exists but those of R25: every step keeps STATE, or resets the block, or is IDLE or DONE to RUN with
a legal configuration, IDLE or DONE to ERROR, RUN to DONE with nothing left in the FIFO, or RUN to ERROR. -/
def Obligations.OnlyTheStatedTransitions : Prop :=
  ∀ s t : State, step s = .next t →
    t.state = s.state ∨ blockIsReset t ∨
      ((s.state = .idle ∨ s.state = .done) ∧ t.state = .run ∧ s.cfg.validate = .none ∧ t.clock = 0 ∧ t.bytesWritten = 0) ∨
      ((s.state = .idle ∨ s.state = .done) ∧ t.state = .error ∧ t.errCode ≠ .none) ∨
      (s.state = .run ∧ t.state = .done ∧ t.queue = [] ∧ t.ms = .ready) ∨
      (s.state = .run ∧ t.state = .error ∧ t.errCode ≠ .none)

/-- No step of a run changes the configuration, but for a reset (from R8, R32 and R33); no step at all changes the build-time
parameters; and they have the values R9 decides (from R9). That they stand in State and go on over a reset is the model's choice
(log entry 13). -/
def Obligations.ConfigurationIsConstantInARun : Prop :=
  (∀ s t : State, s.state = .run → step s = .next t → t.cfg = s.cfg ∨ blockIsReset t) ∧
    (∀ s t : State, step s = .next t → t.build = s.build) ∧
    State.reset.build = { cmdqDepth := 16, durDen := 1000000, clockWidth := 64, countWidth := 32, sineTable := [] }

/-! ### The invariant -/

/-- The invariant holds at reset (R43). -/
def Obligations.ResetMeetsTheInvariant : Prop := Inv State.reset

/-- Every step keeps the invariant: the build is conformant, the FIFO fits, a run is legal, the micro-state is well formed, the
current word belongs to it, a held push means a full FIFO in RUN, or DONE in a block with CMDQ_DEPTH 1, ERRCODE means ERROR,
BYTES_WRITTEN is the run's output length, and BYTES_WRITTEN and CLOCK fit their widths (from R9, R33, R35, R36, R39, R40, R44,
R65, R154, R201). That a push stays held in DONE is the model's choice (log entry 6), and the run's output is counted from the
model's own mark `runStart` (log entry 3). -/
def Obligations.EveryStepKeepsTheInvariant : Prop := ∀ s t : State, Inv s → step s = .next t → Inv t

/-! ### Dispatch and the commands -/

/-- A step whose turn is the engine's, in RUN between commands, pops the FIFO's head, makes it the current word and runs the
command it decodes to; then a held push completes if it can. -/
def Obligations.StepRunsTheDecodedCommand : Prop :=
  ∀ (s : State) (w : Word) (rest : List Word) (sched : List Move) (i : Instr),
    s.schedule = .engine :: sched → s.state = .run → s.ms = .ready → s.queue = w :: rest → decode w = .ok i →
      step s = settle (exec i { s with schedule := sched, queue := rest, cw := w })

/-- R170: the dispatch step, case by case, on the state `s₀` in which the word has been popped and is the current word. -/
def Obligations.DispatchRule : Prop :=
  ∀ (s s₀ : State) (w : Word) (rest : List Word), s.state = .run → s.ms = .ready → s.queue = w :: rest →
    s₀ = { s with queue := rest, cw := w } →
    ((∃ e, decode w = .error e) → engineStep s = .next (raise .cmdIllegal w s₀)) ∧
      (decode w = .ok .nop → engineStep s = .next s₀) ∧
      (∀ v, decode w = .ok (.byte v) → engineStep s = .next { s₀ with
        ms := .atBegin (s.cfg.slotFreq (BitVec.ofNat 8 v) 0) s.cfg.kbit (.byte (BitVec.ofNat 8 v) 0) }) ∧
      (∀ b, decode w = .ok (.bit b) → engineStep s = .next { s₀ with
        ms := .atBegin (if b = 1 then 2 * s.cfg.carrier.toNat else s.cfg.carrier.toNat) s.cfg.kbit .single }) ∧
      (∀ d, decode w = .ok (.toneS d) → engineStep s = .next { s₀ with
        ms := .atBegin s.cfg.carrier.toNat (s.build.kdur s.cfg d) .single }) ∧
      (∀ d, decode w = .ok (.toneM d) → engineStep s = .next { s₀ with
        ms := .atBegin (2 * s.cfg.carrier.toNat) (s.build.kdur s.cfg d) .single }) ∧
      (∀ d, decode w = .ok (.silence d) → engineStep s = .next { s₀ with
        ms := if s.build.kdur s.cfg d = 0 then .ready else .silence (s.build.kdur s.cfg d) }) ∧
      (decode w = .ok .endRun →
        (rest = [] → engineStep s = .next { s₀ with state := .done }) ∧
          ∀ w' rest', rest = w' :: rest' → engineStep s = .next (raise .cmdNotRunning w' s₀))

/-- The own effect of NOP, BYTE, BIT, TONE.S, TONE.M and SILENCE at dispatch, in every state and at every operand: the
micro-state is set, and nothing else changes (from R110, R111, R130, R131, R171 and R173). At an operand that no word holds,
what `exec` does is the model's choice (log entry 10). -/
def Obligations.CommandsComplete : Prop :=
  ∀ s : State,
    exec .nop s = .next { s with ms := .ready } ∧
      (∀ v, exec (.byte v) s = .next { s with
        ms := .atBegin s.cfg.carrier.toNat s.cfg.kbit (.byte (BitVec.ofNat 8 v) 0) }) ∧
      (∀ b, exec (.bit b) s = .next { s with
        ms := .atBegin (if b = 1 then 2 * s.cfg.carrier.toNat else s.cfg.carrier.toNat) s.cfg.kbit .single }) ∧
      (∀ d, exec (.toneS d) s = .next { s with ms := .atBegin s.cfg.carrier.toNat (s.build.kdur s.cfg d) .single }) ∧
      (∀ d, exec (.toneM d) s = .next { s with ms := .atBegin (2 * s.cfg.carrier.toNat) (s.build.kdur s.cfg d) .single }) ∧
      (∀ d, exec (.silence d) s = .next { s with
        ms := if s.build.kdur s.cfg d = 0 then .ready else .silence (s.build.kdur s.cfg d) })

/-- END completes the run when no word stands behind it, and otherwise raises CMD_NOT_RUNNING with the first word behind it
(from R174). -/
def Obligations.EndCompletesOrTraps : Prop :=
  (∀ s : State, s.queue = [] → exec .endRun s = .next { s with state := .done, ms := .ready }) ∧
    ∀ (s : State) (w : Word) (rest : List Word), s.queue = w :: rest →
      exec .endRun s = .next (raise .cmdNotRunning w s)

/-- What no command's dispatch changes, for all seven commands: it emits no frame, and CLOCK, BYTES_WRITTEN, the
configuration, CLOCK_HI_SHADOW, the current word, a held push and the environment stay as they are (from R170). Every command
but END also leaves STATE, ERRCODE, ERRINFO and the FIFO as they are. -/
def Obligations.DispatchFrame : Prop :=
  ∀ (i : Instr) (s t : State), exec i s = .next t →
    t.stream = s.stream ∧ t.clock = s.clock ∧ t.bytesWritten = s.bytesWritten ∧ t.cfg = s.cfg ∧
      t.clockHiShadow = s.clockHiShadow ∧ t.cw = s.cw ∧ t.heldPush = s.heldPush ∧ t.runStart = s.runStart ∧
      t.sinkAccepts = s.sinkAccepts ∧ t.schedule = s.schedule ∧ t.hostProg = s.hostProg ∧ t.readData = s.readData ∧
      (i ≠ .endRun → t.state = s.state ∧ t.errCode = s.errCode ∧ t.errInfo = s.errInfo ∧ t.queue = s.queue)

/-! ### The engine's other steps -/

/-- R106: the burst begin step, in a run with a legal configuration. -/
def Obligations.BurstBeginRule : Prop :=
  ∀ (s : State) (f k : Nat) (ctx : Ctx), s.state = .run → s.cfg.validate = .none → s.ms = .atBegin f k ctx →
    (k = 0 → engineStep s = .next (endOfBurst ctx { s with clock := s.clock / s.cfg.sr * s.cfg.sr })) ∧
      (k ≠ 0 → engineStep s = .next { s with clock := s.clock / s.cfg.sr * s.cfg.sr, ms := .burst f k 0 ctx }) ∧
      s.clock / s.cfg.sr * s.cfg.sr ≤ s.clock

/-- R107: the frame step, in a run with a legal configuration: the count test first, then the clock test, both without the
sink; then a hold while the sink does not accept; then the frame, the tally and the clock in one step. `COUNT_W` is 32 and
`CLOCK_W` is 64 (R9), and `SINE_Q` is `s.build.sineQ`. -/
def Obligations.FrameStepRule : Prop :=
  ∀ (s : State) (f r P : Nat) (ctx : Ctx), s.state = .run → s.cfg.validate = .none → s.ms = .burst f r P ctx →
    (2 ^ s.build.countWidth - 1 < s.bytesWritten + s.cfg.frameBytes → engineStep s = .next (raise .countOverflow s.cw s)) ∧
      (s.bytesWritten + s.cfg.frameBytes ≤ 2 ^ s.build.countWidth - 1 →
        (2 ^ s.build.clockWidth - 1 < s.clock + s.cfg.fL → engineStep s = .next (raise .clockOverflow s.cw s)) ∧
        (s.clock + s.cfg.fL ≤ 2 ^ s.build.clockWidth - 1 → s.sinkAccepts = false → engineStep s = .next s) ∧
        (s.clock + s.cfg.fL ≤ 2 ^ s.build.clockWidth - 1 → s.sinkAccepts = true → ∀ u : State,
          u = { s with
            stream := s.stream ++ s.cfg.frame (s.build.sineQ s.cfg P)
            bytesWritten := s.bytesWritten + s.cfg.frameBytes
            clock := s.clock + s.cfg.fL } →
          (r = 1 → engineStep s = .next (endOfBurst ctx u)) ∧
            (r ≠ 1 → engineStep s = .next { u with ms := .burst f (r - 1) ((P + f) % s.cfg.sr) ctx })))

/-- R172: the silence frame step, in a run with a legal configuration. It does not snap the clock. `COUNT_W` is 32 and `CLOCK_W`
is 64 (R9). -/
def Obligations.SilenceStepRule : Prop :=
  ∀ (s : State) (r : Nat), s.state = .run → s.cfg.validate = .none → s.ms = .silence r →
    (2 ^ s.build.countWidth - 1 < s.bytesWritten + s.cfg.frameBytes → engineStep s = .next (raise .countOverflow s.cw s)) ∧
      (s.bytesWritten + s.cfg.frameBytes ≤ 2 ^ s.build.countWidth - 1 →
        (2 ^ s.build.clockWidth - 1 < s.clock + s.cfg.fL → engineStep s = .next (raise .clockOverflow s.cw s)) ∧
        (s.clock + s.cfg.fL ≤ 2 ^ s.build.clockWidth - 1 → s.sinkAccepts = false → engineStep s = .next s) ∧
        (s.clock + s.cfg.fL ≤ 2 ^ s.build.clockWidth - 1 → s.sinkAccepts = true → engineStep s = .next { s with
          stream := s.stream ++ s.cfg.frame s.cfg.midCode
          bytesWritten := s.bytesWritten + s.cfg.frameBytes
          clock := s.clock + s.cfg.fL
          ms := if r = 1 then .ready else .silence (r - 1) }))

/-- R132: the slots of a framed byte and the step from one slot to the next; in slot order they are space, the eight bits
least-significant first, then `S` marks, with no parity bit (from R134 and R136). -/
def Obligations.SlotSequencing : Prop :=
  ∀ (c : RunConfig) (v : Byte),
    c.slotFreq v 0 = c.carrier.toNat ∧
      (∀ j, 1 ≤ j → j ≤ 8 → c.slotFreq v j = if v.getLsbD (j - 1) then 2 * c.carrier.toNat else c.carrier.toNat) ∧
      (∀ j, 9 ≤ j → c.slotFreq v j = 2 * c.carrier.toNat) ∧
      (List.range (9 + c.stopBits.toNat)).map (c.slotFreq v) =
        c.fL :: ((List.range 8).map fun i => if v.getLsbD i then 2 * c.fL else c.fL) ++
          List.replicate c.stopBits.toNat (2 * c.fL) ∧
      ∀ (s : State) (j : Nat), s.cfg = c →
        (j + 1 < 9 + c.stopBits.toNat → endOfBurst (.byte v j) s = { s with
          ms := .atBegin (c.slotFreq v (j + 1)) c.kbit (.byte v (j + 1)) }) ∧
        (¬j + 1 < 9 + c.stopBits.toNat → endOfBurst (.byte v j) s = { s with ms := .ready })

/-- Whether an engine step is enabled, where a run has a legal configuration (which `Inv` gives): where no step is enabled,
the engine's move leaves the state as it is; where one is, it answers a different state (from R41, R213 and R215). -/
def Obligations.EngineMovesExactlyWhenEnabled : Prop :=
  ∀ s : State, (s.state = .run → s.cfg.validate = .none) →
    (s.engineEnabled = false → engineStep s = .next s) ∧
      (s.engineEnabled = true → ∃ t, engineStep s = .next t ∧ t ≠ s)

/-! ### Whole-machine rules -/

/-- A step changes BYTES_WRITTEN only with an emitted frame, by `FB`, or to 0 at a START or a reset, and after every step
BYTES_WRITTEN is the number of bytes emitted since the last START or reset (from R154). Where that count begins is the model's
own mark `runStart`, which START and reset set (log entry 3). -/
def Obligations.TallyCountsTheEmittedBytes : Prop :=
  ∀ s t : State, Inv s → step s = .next t →
    t.runStream.length = t.bytesWritten ∧
      ((t.stream = s.stream ∧ t.bytesWritten = s.bytesWritten) ∨
        (∃ frame, t.stream = s.stream ++ frame ∧ frame.length = s.cfg.frameBytes ∧
          t.bytesWritten = s.bytesWritten + s.cfg.frameBytes) ∨
        (t.stream = s.stream ∧ t.bytesWritten = 0 ∧ (blockIsReset t ∨ s.state ≠ .run ∧ t.state = .run)))

/-- The stream is written once and in order: a step appends nothing, or the one whole frame the port offers while the sink
accepts it (from R60, R66 and R67). -/
def Obligations.StreamGrowsByTheOfferedFrame : Prop :=
  ∀ s t : State, step s = .next t →
    t.stream = s.stream ∨ (s.sinkAccepts = true ∧ ∃ frame, s.offered = some frame ∧ t.stream = s.stream ++ frame)

/-- CLOCK changes only at a burst's begin step, at an emitted frame, at START and at reset (from R36). -/
def Obligations.ClockChangesOnlyAsStated : Prop :=
  ∀ s t : State, step s = .next t →
    t.clock = s.clock ∨
      (s.state = .run ∧ (∃ f k ctx, s.ms = .atBegin f k ctx) ∧ t.clock = s.cfg.snap s.clock) ∨
      (s.state = .run ∧ (∃ frame, s.offered = some frame ∧ t.stream = s.stream ++ frame) ∧
        t.clock = s.clock + s.cfg.fL) ∨
      (t.clock = 0 ∧ (blockIsReset t ∨ s.state ≠ .run ∧ t.state = .run))

/-- In a run, every step that neither faults nor resets keeps the whole output and the whole CLOCK of the run: what it has
emitted and what it still owes to the commands before the first END, pushed and still to be pushed (from R70, R75 and R108).
Where its output begins in the stream is the model's own mark `runStart` (log entry 3). -/
def Obligations.WholeOutputIsConserved : Prop :=
  ∀ s t : State, Inv s → s.state = .run → step s = .next t → t.state = .run ∨ t.state = .done →
    wholeOutput t = wholeOutput s ∧ wholeClock t = wholeClock s ∧ t.cfg = s.cfg ∧ t.build = s.build

/-- R75: the output stream, BYTES_WRITTEN and CLOCK of a run that ends in DONE are a function of the configuration and of the
words pushed, for one build: whatever else the host reads or writes in the run, whenever the sink accepts and however the moves
interleave. Both runs go from a START to the step that enters DONE, and their output is what the stream gains on the way; only the words up to the first END count, since a run in
which a word stands behind END does not end in DONE. -/
def Obligations.OutputIsIndependentOfTheInterleaving : Prop :=
  ∀ (s₁ s₂ t₁ t₂ : State) (m n : Nat), freshRun s₁ → freshRun s₂ → s₁.build = s₂.build → s₁.cfg = s₂.cfg →
    commandsOf (pushesToCome s₁.hostProg) = commandsOf (pushesToCome s₂.hostProg) →
    runFor m s₁ t₁ → runFor n s₂ t₂ → t₁.state = .done → t₂.state = .done →
      t₁.stream.drop s₁.stream.length = t₂.stream.drop s₂.stream.length ∧ t₁.bytesWritten = t₂.bytesWritten ∧
        t₁.clock = t₂.clock

/-! ### Whole commands, undisturbed -/

/-- A burst of `k` frames runs to its end in `k + 1` engine steps: the frames of its phase indices in order, `k × FB` bytes, and
CLOCK at `phi(N) + k × fL` (from R106, R107 and R108). -/
def Obligations.BurstRunsToItsEnd : Prop :=
  ∀ (s : State) (f k : Nat), undisturbed s → s.state = .run → s.cfg.validate = .none → s.ms = .atBegin f k .single →
    s.bytesWritten + k * s.cfg.frameBytes ≤ 2 ^ s.build.countWidth - 1 →
    s.cfg.snap s.clock + k * s.cfg.fL ≤ 2 ^ s.build.clockWidth - 1 →
      steps (k + 1) s = .next { s with
        ms := .ready
        clock := s.cfg.snap s.clock + k * s.cfg.fL
        bytesWritten := s.bytesWritten + k * s.cfg.frameBytes
        stream := s.stream ++ burstBytes s.build s.cfg f k 0 }

/-- TONE.S, TONE.M and BIT from dispatch to their end: `K` frames of their tone (from R110, R111 and R130). -/
def Obligations.ToneAndBitCommandsRunToTheirEnd : Prop :=
  ∀ (s : State) (i : Instr) (f k : Nat), undisturbed s → s.state = .run → s.cfg.validate = .none →
    (∃ d, i = .toneS d ∧ f = s.cfg.fL ∧ k = s.build.kdur s.cfg d) ∨ (∃ d, i = .toneM d ∧ f = 2 * s.cfg.fL ∧ k = s.build.kdur s.cfg d) ∨
      (i = .bit 0 ∧ f = s.cfg.fL ∧ k = s.cfg.kbit) ∨ (i = .bit 1 ∧ f = 2 * s.cfg.fL ∧ k = s.cfg.kbit) →
    s.bytesWritten + k * s.cfg.frameBytes ≤ 2 ^ s.build.countWidth - 1 →
    s.cfg.snap s.clock + k * s.cfg.fL ≤ 2 ^ s.build.clockWidth - 1 →
      ∃ t, exec i s = .next t ∧ steps (k + 1) t = .next { s with
        ms := .ready
        clock := s.cfg.snap s.clock + k * s.cfg.fL
        bytesWritten := s.bytesWritten + k * s.cfg.frameBytes
        stream := s.stream ++ burstBytes s.build s.cfg f k 0 }

/-- BYTE from dispatch to its end: `9 + S` bursts of `Kbit` frames, `(9 + S) × Kbit × FB` bytes, and CLOCK at
`phi(N) + (8 + S) × M × sr + Kbit × fL` (from R131, R132, R133 and R135). -/
def Obligations.ByteRunsToItsEnd : Prop :=
  ∀ (s : State) (v : Nat), undisturbed s → s.state = .run → s.cfg.validate = .none →
    s.bytesWritten + (9 + s.cfg.stops) * s.cfg.kbit * s.cfg.frameBytes ≤ 2 ^ s.build.countWidth - 1 →
    s.cfg.snap s.clock + (8 + s.cfg.stops) * s.cfg.cyclesPerBit * s.cfg.sr + s.cfg.kbit * s.cfg.fL ≤ 2 ^ s.build.clockWidth - 1 →
      ∃ t, exec (.byte v) s = .next t ∧
        steps ((9 + s.cfg.stops) * (s.cfg.kbit + 1)) t = .next { s with
          ms := .ready
          clock := s.cfg.snap s.clock + (8 + s.cfg.stops) * s.cfg.cyclesPerBit * s.cfg.sr
            + s.cfg.kbit * s.cfg.fL
          bytesWritten := s.bytesWritten + (9 + s.cfg.stops) * s.cfg.kbit * s.cfg.frameBytes
          stream := s.stream ++ slotBytes s.build s.cfg (BitVec.ofNat 8 v) (9 + s.cfg.stops) 0 }

/-- SILENCE from dispatch to its end: `Kdur(D)` mid-level frames, and CLOCK grows by their time without a snap (from R172 and
R173). -/
def Obligations.SilenceRunsToItsEnd : Prop :=
  ∀ (s : State) (d : Nat), undisturbed s → s.state = .run → s.ms = .ready → s.cfg.validate = .none →
    s.bytesWritten + s.build.kdur s.cfg d * s.cfg.frameBytes ≤ 2 ^ s.build.countWidth - 1 →
    s.clock + s.build.kdur s.cfg d * s.cfg.fL ≤ 2 ^ s.build.clockWidth - 1 →
      ∃ t, exec (.silence d) s = .next t ∧ steps (s.build.kdur s.cfg d) t = .next { s with
        ms := .ready
        clock := s.clock + s.build.kdur s.cfg d * s.cfg.fL
        bytesWritten := s.bytesWritten + s.build.kdur s.cfg d * s.cfg.frameBytes
        stream := s.stream ++ silenceBytes s.cfg (s.build.kdur s.cfg d) }

/-! ### Counts, phases and the clock -/

/-- R104: both sample counts are the least numbers of samples that last at least the duration; a bit has at least one sample in
every legal configuration, and a duration of 0 has none. `DUR_DEN` is `b.durDen` (R9). -/
def Obligations.SampleCountsAreLeast : Prop :=
  ∀ (b : Build) (c : RunConfig), 1 ≤ b.durDen → c.validate = .none →
    IsLeast {k : ℕ | (1 : ℚ) / c.baudRate ≤ (k : ℚ) / c.sr} c.kbit ∧
      (∀ d : Nat, IsLeast {k : ℕ | (d : ℚ) / b.durDen ≤ (k : ℚ) / c.sr} (b.kdur c d)) ∧
      c.kbit = (c.sr + c.baudRate - 1) / c.baudRate ∧
      (∀ d : Nat, b.kdur c d = (d * c.sr + b.durDen - 1) / b.durDen) ∧ 1 ≤ c.kbit ∧ b.kdur c 0 = 0

/-- R105: the phase index of sample `i` is `(i × f) mod sr`, and its sine is that of sample `i`'s own time (R103). -/
def Obligations.PhaseAccumulatorIsExact : Prop :=
  ∀ (c : RunConfig) (f i : Nat), 0 < c.sr →
    (c.nextPhase f)^[i] 0 = i * f % c.sr ∧
      sinPhase ((c.nextPhase f)^[i] 0) c.sr = Real.sin (2 * Real.pi * f * i / c.sr)

/-- R112: the clock after a burst, and when it has advanced. -/
def Obligations.ClockMonotonicityIsConditional : Prop :=
  (∀ (c : RunConfig) (k n : Nat), c.validate = .none →
    (burstClock c k n : ℤ) - n = (k * c.fL : ℕ) - ((n % c.sr : ℕ) : ℤ) ∧
      (c.sr ≤ k * c.fL → n < burstClock c k n) ∧ c.sr ≤ c.kbit * c.fL) ∧
    ∀ b : Build, ∃ (c : RunConfig) (n : Nat), c.validate = .none ∧ burstClock c (b.kdur c 0) n < n

/-- R113: consecutive bit bursts have their phase origins exactly one bit time apart, with no accumulated error. The phase
origin is the clock rounded down to a whole number of low-carrier cycles (R102). -/
def Obligations.BitGridDoesNotDrift : Prop :=
  ∀ (c : RunConfig) (n k : Nat), c.validate = .none →
    c.snap n = n / c.sr * c.sr ∧ c.snap n ≤ n ∧ n < c.snap n + c.sr ∧ c.sr ∣ c.snap n ∧
      c.cyclesPerBit * c.sr ≤ c.kbit * c.fL ∧ c.kbit * c.fL < c.cyclesPerBit * c.sr + c.fL ∧
      c.cyclesPerBit * c.sr + c.fL < (c.cyclesPerBit + 1) * c.sr ∧
      c.snap (bitsClock c k n) = c.snap n + k * (c.cyclesPerBit * c.sr)

/-- R114: a burst of minimum duration `d` lasts at least `d` and less than one sample longer; on the clock it spans at most its
own time and more than that less one low-carrier cycle. -/
def Obligations.DurationBounds : Prop :=
  ∀ (b : Build) (c : RunConfig) (d k n : Nat), 1 ≤ b.durDen → c.validate = .none →
    (d : ℚ) / b.durDen ≤ (b.kdur c d : ℚ) / c.sr ∧ (b.kdur c d : ℚ) / c.sr < (d : ℚ) / b.durDen + 1 / c.sr ∧
      (1 : ℚ) / c.baudRate ≤ (c.kbit : ℚ) / c.sr ∧ (c.kbit : ℚ) / c.sr < 1 / c.baudRate + 1 / c.sr ∧
      (1 : ℚ) / c.sr < 1 / (2 * c.fMark) ∧
      ((k * c.fL : ℕ) : ℤ) - c.sr < (burstClock c k n : ℤ) - n ∧ (burstClock c k n : ℤ) - n ≤ (k * c.fL : ℕ)

/-- Two bursts in a row give the frames of one when the first ends on a whole number of cycles (from R88 and R116). -/
def Obligations.SplittingAtWholeCyclesIsTransparent : Prop :=
  ∀ (b : Build) (c : RunConfig) (f k₁ k₂ : Nat), 0 < c.sr → k₁ * f % c.sr = 0 →
    burstBytes b c f (k₁ + k₂) 0 = burstBytes b c f k₁ 0 ++ burstBytes b c f k₂ 0

/-! ### The quantizer and the frame -/

/-- R150, R151: the quantizers are the exact formulas over the real amplitude `num / den`, rounded half away from zero, and
stay in their ranges. -/
def Obligations.QuantizersAreTheFormulas : Prop :=
  ∀ (num : ℤ) (den : ℕ), 0 < den →
    quantize8 num den = roundHalfAway (128 - 127 * ((num : ℝ) / den)) ∧
      quantize16 num den = roundHalfAway (-32767 * ((num : ℝ) / den)) ∧
      (|num| ≤ den → 1 ≤ quantize8 num den ∧ quantize8 num den ≤ 255 ∧ -32767 ≤ quantize16 num den ∧
        quantize16 num den ≤ 32767)

/-- R152: the code of a burst frame is the exact `Q_qb(sin(2π P / sr))`, quantized once, at every phase index of every legal
configuration, where no replacement of `SINE_Q` stands (R9, R16). -/
def Obligations.SineCodeIsExact : Prop :=
  ∀ (c : RunConfig) (P : Nat), c.validate = .none → P < c.sr →
    c.sineCode P = exactSineCode c P ∧
      ∀ b : Build, b.sineTable = [] → b.toneFrame c P = c.frame (exactSineCode c P)

/-- The code of every burst frame has the property that 93_implementation_defined.md I2 names: it differs from the exact code
by at most 1, and it is the exact code wherever the exact scaled value lies at least `10^-6` from every half-integer. So has
it for every replacement of `SINE_Q` that I2 admits (R9, R16), where a code the table lists is the code
used, and without a table the exact function stands. -/
def Obligations.SineCodeHasTheNamedProperty : Prop :=
  ∀ (b : Build) (c : RunConfig) (P : Nat), c.validate = .none → P < c.sr →
    (tableAdmissible b → namedProperty c P (b.sineQ c P)) ∧
      (b.sineTable = [] → b.sineQ c P = c.sineCode P ∧ namedProperty c P (b.sineQ c P)) ∧
      ∀ (code : ℤ) (rest : List SineEntry),
        b.sineTable = { qbits := c.qbits.toNat, sr := c.sr, P := P, code := code } :: rest → b.sineQ c P = code

/-- R157: with the exact `SINE_Q`, no code leaves the formulas' range: the 8-bit code is never 0 and the 16-bit code is never −32768. -/
def Obligations.CodesStayInRange : Prop :=
  ∀ (c : RunConfig) (P : Nat), c.validate = .none → P < c.sr →
    (c.qbits = 8 → 1 ≤ c.sineCode P ∧ c.sineCode P ≤ 255) ∧
      (c.qbits = 16 → -32767 ≤ c.sineCode P ∧ c.sineCode P ≤ 32767)

/-- R155: the mid-level code, which is the code of every burst's first frame, for every `SINE_Q` that I2 admits, and of every
silence frame. Both quantizers invert the amplitude, so the first half-cycle of a burst lies at or below the mid-level and the
second at or above it, with the exact `SINE_Q` (from R156). -/
def Obligations.MidLevelAndPolarity : Prop :=
  (quantize8 1 1 = 1 ∧ quantize16 1 1 = -32767 ∧ quantize8 (-1) 1 = 255 ∧ quantize16 (-1) 1 = 32767) ∧
  ∀ c : RunConfig, c.validate = .none →
    (c.qbits = 8 → c.midCode = 128 ∧ c.midFrame = List.replicate c.channels.toNat 0x80) ∧
      (c.qbits = 16 → c.midCode = 0 ∧ c.midFrame = List.replicate (2 * c.channels.toNat) 0x00) ∧
      (∀ b : Build, tableAdmissible b → b.sineQ c 0 = c.midCode ∧ b.toneFrame c 0 = c.midFrame) ∧
      ∀ P : Nat, P < c.sr → (2 * P < c.sr → c.sineCode P ≤ c.midCode) ∧ (c.sr ≤ 2 * P → c.midCode ≤ c.sineCode P)

/-- R153: the bytes of a frame in the four legal formats, and their number `FB`. Which byte an 8-bit code outside 0 to 255 gives,
the spec does not say and nothing here does (log entry 17). -/
def Obligations.FrameLayout : Prop :=
  ∀ (c : RunConfig) (code : ℤ),
    (c.qbits = 8 → c.channels = 1 → ∃ byte : Byte, c.frame code = [byte] ∧ c.frameBytes = 1 ∧
        (0 ≤ code → code ≤ 255 → (byte.toNat : ℤ) = code)) ∧
      (c.qbits = 8 → c.channels = 2 → ∃ byte : Byte, c.frame code = [byte, byte] ∧ c.frameBytes = 2 ∧
        (0 ≤ code → code ≤ 255 → (byte.toNat : ℤ) = code)) ∧
      (c.qbits = 16 → c.channels = 1 →
        c.frame code = [(BitVec.ofInt 16 code).extractLsb' 0 8, (BitVec.ofInt 16 code).extractLsb' 8 8] ∧
          c.frameBytes = 2) ∧
      (c.qbits = 16 → c.channels = 2 →
        c.frame code = [(BitVec.ofInt 16 code).extractLsb' 0 8, (BitVec.ofInt 16 code).extractLsb' 8 8,
          (BitVec.ofInt 16 code).extractLsb' 0 8, (BitVec.ofInt 16 code).extractLsb' 8 8] ∧ c.frameBytes = 4)

/-- R158: the 16-bit quantizer is odd; the 8-bit one is symmetric about 128 except at a tie, where it rounds up on both
sides. Here `k` names the tie `128 - 127 a = k + 1/2`. -/
def Obligations.QuantizerSymmetry : Prop :=
  ∀ (num : ℤ) (den : ℕ), 0 < den → |num| ≤ den →
    quantize16 (-num) den = -quantize16 num den ∧
      ((∀ k : ℤ, 2 * (128 * (den : ℤ) - 127 * num) ≠ (2 * k + 1) * den) →
        quantize8 (-num) den = 256 - quantize8 num den) ∧
      ∀ k : ℤ, 2 * (128 * (den : ℤ) - 127 * num) = (2 * k + 1) * den →
        quantize8 num den = k + 1 ∧ quantize8 (-num) den = 256 - k

/-- The exact ties of the quantizer, at the twelfths of a cycle where the sine is ±1/2, are rounded away from zero, with
the exact `SINE_Q` (from R159). -/
def Obligations.ExactTies : Prop :=
  ∀ (c : RunConfig) (P : Nat), c.validate = .none → P < c.sr →
    (12 * P = c.sr ∨ 12 * P = 5 * c.sr →
      (c.qbits = 8 → c.sineCode P = 65) ∧ (c.qbits = 16 → c.sineCode P = -16384)) ∧
    (12 * P = 7 * c.sr ∨ 12 * P = 11 * c.sr →
      (c.qbits = 8 → c.sineCode P = 192) ∧ (c.qbits = 16 → c.sineCode P = 16384))
end

