-- ==== Sys2Proof/Laws/State.lean ====
section
/-! SUPPORT. One lemma per field per update of the state, each true by rfl, so that no proof unfolds a record update. -/
namespace Sys2Proof.Machine

section
variable (m : MicroState) (s : State)
@[simp] theorem setMs_build : (setMs m s).build = s.build := rfl
@[simp] theorem setMs_state : (setMs m s).state = s.state := rfl
@[simp] theorem setMs_errCode : (setMs m s).errCode = s.errCode := rfl
@[simp] theorem setMs_errInfo : (setMs m s).errInfo = s.errInfo := rfl
@[simp] theorem setMs_cfg : (setMs m s).cfg = s.cfg := rfl
@[simp] theorem setMs_bytesWritten : (setMs m s).bytesWritten = s.bytesWritten := rfl
@[simp] theorem setMs_clock : (setMs m s).clock = s.clock := rfl
@[simp] theorem setMs_clockHiShadow : (setMs m s).clockHiShadow = s.clockHiShadow := rfl
@[simp] theorem setMs_queue : (setMs m s).queue = s.queue := rfl
@[simp] theorem setMs_ms : (setMs m s).ms = m := rfl
@[simp] theorem setMs_cw : (setMs m s).cw = s.cw := rfl
@[simp] theorem setMs_heldPush : (setMs m s).heldPush = s.heldPush := rfl
@[simp] theorem setMs_stream : (setMs m s).stream = s.stream := rfl
@[simp] theorem setMs_runStart : (setMs m s).runStart = s.runStart := rfl
@[simp] theorem setMs_sinkAccepts : (setMs m s).sinkAccepts = s.sinkAccepts := rfl
@[simp] theorem setMs_schedule : (setMs m s).schedule = s.schedule := rfl
@[simp] theorem setMs_hostProg : (setMs m s).hostProg = s.hostProg := rfl
@[simp] theorem setMs_readData : (setMs m s).readData = s.readData := rfl
end

section
variable (w : Word) (rest : List Word) (s : State)
@[simp] theorem popTo_build : (popTo w rest s).build = s.build := rfl
@[simp] theorem popTo_state : (popTo w rest s).state = s.state := rfl
@[simp] theorem popTo_errCode : (popTo w rest s).errCode = s.errCode := rfl
@[simp] theorem popTo_errInfo : (popTo w rest s).errInfo = s.errInfo := rfl
@[simp] theorem popTo_cfg : (popTo w rest s).cfg = s.cfg := rfl
@[simp] theorem popTo_bytesWritten : (popTo w rest s).bytesWritten = s.bytesWritten := rfl
@[simp] theorem popTo_clock : (popTo w rest s).clock = s.clock := rfl
@[simp] theorem popTo_clockHiShadow : (popTo w rest s).clockHiShadow = s.clockHiShadow := rfl
@[simp] theorem popTo_queue : (popTo w rest s).queue = rest := rfl
@[simp] theorem popTo_ms : (popTo w rest s).ms = s.ms := rfl
@[simp] theorem popTo_cw : (popTo w rest s).cw = w := rfl
@[simp] theorem popTo_heldPush : (popTo w rest s).heldPush = s.heldPush := rfl
@[simp] theorem popTo_stream : (popTo w rest s).stream = s.stream := rfl
@[simp] theorem popTo_runStart : (popTo w rest s).runStart = s.runStart := rfl
@[simp] theorem popTo_sinkAccepts : (popTo w rest s).sinkAccepts = s.sinkAccepts := rfl
@[simp] theorem popTo_schedule : (popTo w rest s).schedule = s.schedule := rfl
@[simp] theorem popTo_hostProg : (popTo w rest s).hostProg = s.hostProg := rfl
@[simp] theorem popTo_readData : (popTo w rest s).readData = s.readData := rfl
end

section
variable (w : Word) (s : State)
@[simp] theorem append_build : (append w s).build = s.build := rfl
@[simp] theorem append_state : (append w s).state = s.state := rfl
@[simp] theorem append_errCode : (append w s).errCode = s.errCode := rfl
@[simp] theorem append_errInfo : (append w s).errInfo = s.errInfo := rfl
@[simp] theorem append_cfg : (append w s).cfg = s.cfg := rfl
@[simp] theorem append_bytesWritten : (append w s).bytesWritten = s.bytesWritten := rfl
@[simp] theorem append_clock : (append w s).clock = s.clock := rfl
@[simp] theorem append_clockHiShadow : (append w s).clockHiShadow = s.clockHiShadow := rfl
@[simp] theorem append_queue : (append w s).queue = s.queue ++ [w] := rfl
@[simp] theorem append_ms : (append w s).ms = s.ms := rfl
@[simp] theorem append_cw : (append w s).cw = s.cw := rfl
@[simp] theorem append_heldPush : (append w s).heldPush = s.heldPush := rfl
@[simp] theorem append_stream : (append w s).stream = s.stream := rfl
@[simp] theorem append_runStart : (append w s).runStart = s.runStart := rfl
@[simp] theorem append_sinkAccepts : (append w s).sinkAccepts = s.sinkAccepts := rfl
@[simp] theorem append_schedule : (append w s).schedule = s.schedule := rfl
@[simp] theorem append_hostProg : (append w s).hostProg = s.hostProg := rfl
@[simp] theorem append_readData : (append w s).readData = s.readData := rfl
end

section
variable (w : Word) (s : State)
@[simp] theorem hold_build : (hold w s).build = s.build := rfl
@[simp] theorem hold_state : (hold w s).state = s.state := rfl
@[simp] theorem hold_errCode : (hold w s).errCode = s.errCode := rfl
@[simp] theorem hold_errInfo : (hold w s).errInfo = s.errInfo := rfl
@[simp] theorem hold_cfg : (hold w s).cfg = s.cfg := rfl
@[simp] theorem hold_bytesWritten : (hold w s).bytesWritten = s.bytesWritten := rfl
@[simp] theorem hold_clock : (hold w s).clock = s.clock := rfl
@[simp] theorem hold_clockHiShadow : (hold w s).clockHiShadow = s.clockHiShadow := rfl
@[simp] theorem hold_queue : (hold w s).queue = s.queue := rfl
@[simp] theorem hold_ms : (hold w s).ms = s.ms := rfl
@[simp] theorem hold_cw : (hold w s).cw = s.cw := rfl
@[simp] theorem hold_heldPush : (hold w s).heldPush = some w := rfl
@[simp] theorem hold_stream : (hold w s).stream = s.stream := rfl
@[simp] theorem hold_runStart : (hold w s).runStart = s.runStart := rfl
@[simp] theorem hold_sinkAccepts : (hold w s).sinkAccepts = s.sinkAccepts := rfl
@[simp] theorem hold_schedule : (hold w s).schedule = s.schedule := rfl
@[simp] theorem hold_hostProg : (hold w s).hostProg = s.hostProg := rfl
@[simp] theorem hold_readData : (hold w s).readData = s.readData := rfl
end

section
variable (s : State)
@[simp] theorem finish_build : (finish s).build = s.build := rfl
@[simp] theorem finish_state : (finish s).state = .done := rfl
@[simp] theorem finish_errCode : (finish s).errCode = s.errCode := rfl
@[simp] theorem finish_errInfo : (finish s).errInfo = s.errInfo := rfl
@[simp] theorem finish_cfg : (finish s).cfg = s.cfg := rfl
@[simp] theorem finish_bytesWritten : (finish s).bytesWritten = s.bytesWritten := rfl
@[simp] theorem finish_clock : (finish s).clock = s.clock := rfl
@[simp] theorem finish_clockHiShadow : (finish s).clockHiShadow = s.clockHiShadow := rfl
@[simp] theorem finish_queue : (finish s).queue = s.queue := rfl
@[simp] theorem finish_ms : (finish s).ms = .ready := rfl
@[simp] theorem finish_cw : (finish s).cw = s.cw := rfl
@[simp] theorem finish_heldPush : (finish s).heldPush = s.heldPush := rfl
@[simp] theorem finish_stream : (finish s).stream = s.stream := rfl
@[simp] theorem finish_runStart : (finish s).runStart = s.runStart := rfl
@[simp] theorem finish_sinkAccepts : (finish s).sinkAccepts = s.sinkAccepts := rfl
@[simp] theorem finish_schedule : (finish s).schedule = s.schedule := rfl
@[simp] theorem finish_hostProg : (finish s).hostProg = s.hostProg := rfl
@[simp] theorem finish_readData : (finish s).readData = s.readData := rfl
end

section
variable (s : State)
@[simp] theorem snapClock_build : (snapClock s).build = s.build := rfl
@[simp] theorem snapClock_state : (snapClock s).state = s.state := rfl
@[simp] theorem snapClock_errCode : (snapClock s).errCode = s.errCode := rfl
@[simp] theorem snapClock_errInfo : (snapClock s).errInfo = s.errInfo := rfl
@[simp] theorem snapClock_cfg : (snapClock s).cfg = s.cfg := rfl
@[simp] theorem snapClock_bytesWritten : (snapClock s).bytesWritten = s.bytesWritten := rfl
@[simp] theorem snapClock_clock : (snapClock s).clock = s.cfg.snap s.clock := rfl
@[simp] theorem snapClock_clockHiShadow : (snapClock s).clockHiShadow = s.clockHiShadow := rfl
@[simp] theorem snapClock_queue : (snapClock s).queue = s.queue := rfl
@[simp] theorem snapClock_ms : (snapClock s).ms = s.ms := rfl
@[simp] theorem snapClock_cw : (snapClock s).cw = s.cw := rfl
@[simp] theorem snapClock_heldPush : (snapClock s).heldPush = s.heldPush := rfl
@[simp] theorem snapClock_stream : (snapClock s).stream = s.stream := rfl
@[simp] theorem snapClock_runStart : (snapClock s).runStart = s.runStart := rfl
@[simp] theorem snapClock_sinkAccepts : (snapClock s).sinkAccepts = s.sinkAccepts := rfl
@[simp] theorem snapClock_schedule : (snapClock s).schedule = s.schedule := rfl
@[simp] theorem snapClock_hostProg : (snapClock s).hostProg = s.hostProg := rfl
@[simp] theorem snapClock_readData : (snapClock s).readData = s.readData := rfl
end

section
variable (bs : List Byte) (s : State)
@[simp] theorem emit_build : (emit bs s).build = s.build := rfl
@[simp] theorem emit_state : (emit bs s).state = s.state := rfl
@[simp] theorem emit_errCode : (emit bs s).errCode = s.errCode := rfl
@[simp] theorem emit_errInfo : (emit bs s).errInfo = s.errInfo := rfl
@[simp] theorem emit_cfg : (emit bs s).cfg = s.cfg := rfl
@[simp] theorem emit_bytesWritten : (emit bs s).bytesWritten = s.bytesWritten + s.cfg.frameBytes := rfl
@[simp] theorem emit_clock : (emit bs s).clock = s.clock + s.cfg.fL := rfl
@[simp] theorem emit_clockHiShadow : (emit bs s).clockHiShadow = s.clockHiShadow := rfl
@[simp] theorem emit_queue : (emit bs s).queue = s.queue := rfl
@[simp] theorem emit_ms : (emit bs s).ms = s.ms := rfl
@[simp] theorem emit_cw : (emit bs s).cw = s.cw := rfl
@[simp] theorem emit_heldPush : (emit bs s).heldPush = s.heldPush := rfl
@[simp] theorem emit_stream : (emit bs s).stream = s.stream ++ bs := rfl
@[simp] theorem emit_runStart : (emit bs s).runStart = s.runStart := rfl
@[simp] theorem emit_sinkAccepts : (emit bs s).sinkAccepts = s.sinkAccepts := rfl
@[simp] theorem emit_schedule : (emit bs s).schedule = s.schedule := rfl
@[simp] theorem emit_hostProg : (emit bs s).hostProg = s.hostProg := rfl
@[simp] theorem emit_readData : (emit bs s).readData = s.readData := rfl
end

section
variable (s : State)
@[simp] theorem beginRun_build : (beginRun s).build = s.build := rfl
@[simp] theorem beginRun_state : (beginRun s).state = .run := rfl
@[simp] theorem beginRun_errCode : (beginRun s).errCode = s.errCode := rfl
@[simp] theorem beginRun_errInfo : (beginRun s).errInfo = s.errInfo := rfl
@[simp] theorem beginRun_cfg : (beginRun s).cfg = s.cfg := rfl
@[simp] theorem beginRun_bytesWritten : (beginRun s).bytesWritten = 0 := rfl
@[simp] theorem beginRun_clock : (beginRun s).clock = 0 := rfl
@[simp] theorem beginRun_clockHiShadow : (beginRun s).clockHiShadow = s.clockHiShadow := rfl
@[simp] theorem beginRun_queue : (beginRun s).queue = s.queue := rfl
@[simp] theorem beginRun_ms : (beginRun s).ms = s.ms := rfl
@[simp] theorem beginRun_cw : (beginRun s).cw = s.cw := rfl
@[simp] theorem beginRun_heldPush : (beginRun s).heldPush = s.heldPush := rfl
@[simp] theorem beginRun_stream : (beginRun s).stream = s.stream := rfl
@[simp] theorem beginRun_runStart : (beginRun s).runStart = s.stream.length := rfl
@[simp] theorem beginRun_sinkAccepts : (beginRun s).sinkAccepts = s.sinkAccepts := rfl
@[simp] theorem beginRun_schedule : (beginRun s).schedule = s.schedule := rfl
@[simp] theorem beginRun_hostProg : (beginRun s).hostProg = s.hostProg := rfl
@[simp] theorem beginRun_readData : (beginRun s).readData = s.readData := rfl
end

section
variable (s : State)
@[simp] theorem resetBlock_build : (resetBlock s).build = s.build := rfl
@[simp] theorem resetBlock_state : (resetBlock s).state = .idle := rfl
@[simp] theorem resetBlock_errCode : (resetBlock s).errCode = .none := rfl
@[simp] theorem resetBlock_errInfo : (resetBlock s).errInfo = 0 := rfl
@[simp] theorem resetBlock_cfg : (resetBlock s).cfg = RunConfig.reset := rfl
@[simp] theorem resetBlock_bytesWritten : (resetBlock s).bytesWritten = 0 := rfl
@[simp] theorem resetBlock_clock : (resetBlock s).clock = 0 := rfl
@[simp] theorem resetBlock_clockHiShadow : (resetBlock s).clockHiShadow = 0 := rfl
@[simp] theorem resetBlock_queue : (resetBlock s).queue = [] := rfl
@[simp] theorem resetBlock_ms : (resetBlock s).ms = .ready := rfl
@[simp] theorem resetBlock_cw : (resetBlock s).cw = 0 := rfl
@[simp] theorem resetBlock_heldPush : (resetBlock s).heldPush = none := rfl
@[simp] theorem resetBlock_stream : (resetBlock s).stream = s.stream := rfl
@[simp] theorem resetBlock_runStart : (resetBlock s).runStart = s.stream.length := rfl
@[simp] theorem resetBlock_sinkAccepts : (resetBlock s).sinkAccepts = s.sinkAccepts := rfl
@[simp] theorem resetBlock_schedule : (resetBlock s).schedule = s.schedule := rfl
@[simp] theorem resetBlock_hostProg : (resetBlock s).hostProg = s.hostProg := rfl
@[simp] theorem resetBlock_readData : (resetBlock s).readData = s.readData := rfl
end

section
variable (off : BitVec 8) (s : State)
@[simp] theorem hostRead_build : (hostRead off s).build = s.build := rfl
@[simp] theorem hostRead_state : (hostRead off s).state = s.state := rfl
@[simp] theorem hostRead_errCode : (hostRead off s).errCode = s.errCode := rfl
@[simp] theorem hostRead_errInfo : (hostRead off s).errInfo = s.errInfo := rfl
@[simp] theorem hostRead_cfg : (hostRead off s).cfg = s.cfg := rfl
@[simp] theorem hostRead_bytesWritten : (hostRead off s).bytesWritten = s.bytesWritten := rfl
@[simp] theorem hostRead_clock : (hostRead off s).clock = s.clock := rfl
@[simp] theorem hostRead_clockHiShadow : (hostRead off s).clockHiShadow = if off.toNat = 0x28 then BitVec.ofNat 32 (s.clock / 2 ^ 32) else s.clockHiShadow := rfl
@[simp] theorem hostRead_queue : (hostRead off s).queue = s.queue := rfl
@[simp] theorem hostRead_ms : (hostRead off s).ms = s.ms := rfl
@[simp] theorem hostRead_cw : (hostRead off s).cw = s.cw := rfl
@[simp] theorem hostRead_heldPush : (hostRead off s).heldPush = s.heldPush := rfl
@[simp] theorem hostRead_stream : (hostRead off s).stream = s.stream := rfl
@[simp] theorem hostRead_runStart : (hostRead off s).runStart = s.runStart := rfl
@[simp] theorem hostRead_sinkAccepts : (hostRead off s).sinkAccepts = s.sinkAccepts := rfl
@[simp] theorem hostRead_schedule : (hostRead off s).schedule = s.schedule := rfl
@[simp] theorem hostRead_hostProg : (hostRead off s).hostProg = s.hostProg := rfl
@[simp] theorem hostRead_readData : (hostRead off s).readData = s.readValue off := rfl
end

section
variable (v : Byte) (j : Nat) (s : State)
@[simp] theorem beginSlot_build : (beginSlot v j s).build = s.build := rfl
@[simp] theorem beginSlot_state : (beginSlot v j s).state = s.state := rfl
@[simp] theorem beginSlot_errCode : (beginSlot v j s).errCode = s.errCode := rfl
@[simp] theorem beginSlot_errInfo : (beginSlot v j s).errInfo = s.errInfo := rfl
@[simp] theorem beginSlot_cfg : (beginSlot v j s).cfg = s.cfg := rfl
@[simp] theorem beginSlot_bytesWritten : (beginSlot v j s).bytesWritten = s.bytesWritten := rfl
@[simp] theorem beginSlot_clock : (beginSlot v j s).clock = s.clock := rfl
@[simp] theorem beginSlot_clockHiShadow : (beginSlot v j s).clockHiShadow = s.clockHiShadow := rfl
@[simp] theorem beginSlot_queue : (beginSlot v j s).queue = s.queue := rfl
@[simp] theorem beginSlot_ms : (beginSlot v j s).ms = .atBegin (s.cfg.slotFreq v j) s.cfg.kbit (.byte v j) := rfl
@[simp] theorem beginSlot_cw : (beginSlot v j s).cw = s.cw := rfl
@[simp] theorem beginSlot_heldPush : (beginSlot v j s).heldPush = s.heldPush := rfl
@[simp] theorem beginSlot_stream : (beginSlot v j s).stream = s.stream := rfl
@[simp] theorem beginSlot_runStart : (beginSlot v j s).runStart = s.runStart := rfl
@[simp] theorem beginSlot_sinkAccepts : (beginSlot v j s).sinkAccepts = s.sinkAccepts := rfl
@[simp] theorem beginSlot_schedule : (beginSlot v j s).schedule = s.schedule := rfl
@[simp] theorem beginSlot_hostProg : (beginSlot v j s).hostProg = s.hostProg := rfl
@[simp] theorem beginSlot_readData : (beginSlot v j s).readData = s.readData := rfl
end

end Sys2Proof.Machine
end

