-- ==== Sys2Proof/Laws/Ops.lean ====
section
/-! SUPPORT. What the shared operations can do, said once for each: taking an error, the completion of a held push, START,
the end of a burst, and the frame step both kinds of frame share. -/
namespace Sys2Proof.Machine

/-! ### Taking an error (R201, R202) -/

section
variable (c : ErrCode) (info : Word) (s : State)

/-- Outside ERROR, `raise` records the fault, empties the queue and abandons the command. -/
theorem raise_of_ne (h : s.state ≠ .error) :
    raise c info s = { s with errCode := c, errInfo := info, state := .error, queue := [], ms := .ready } := if_neg h

/-- In ERROR, `raise` changes nothing. -/
theorem raise_of_error (h : s.state = .error) : raise c info s = s := if_pos h

@[simp] theorem raise_state : (raise c info s).state = .error := by unfold raise; split <;> simp_all
@[simp] theorem raise_build : (raise c info s).build = s.build := by unfold raise; split <;> rfl
@[simp] theorem raise_cfg : (raise c info s).cfg = s.cfg := by unfold raise; split <;> rfl
@[simp] theorem raise_bytesWritten : (raise c info s).bytesWritten = s.bytesWritten := by unfold raise; split <;> rfl
@[simp] theorem raise_clock : (raise c info s).clock = s.clock := by unfold raise; split <;> rfl
@[simp] theorem raise_clockHiShadow : (raise c info s).clockHiShadow = s.clockHiShadow := by unfold raise; split <;> rfl
@[simp] theorem raise_cw : (raise c info s).cw = s.cw := by unfold raise; split <;> rfl
@[simp] theorem raise_heldPush : (raise c info s).heldPush = s.heldPush := by unfold raise; split <;> rfl
@[simp] theorem raise_stream : (raise c info s).stream = s.stream := by unfold raise; split <;> rfl
@[simp] theorem raise_runStart : (raise c info s).runStart = s.runStart := by unfold raise; split <;> rfl
@[simp] theorem raise_sinkAccepts : (raise c info s).sinkAccepts = s.sinkAccepts := by unfold raise; split <;> rfl
@[simp] theorem raise_schedule : (raise c info s).schedule = s.schedule := by unfold raise; split <;> rfl
@[simp] theorem raise_hostProg : (raise c info s).hostProg = s.hostProg := by unfold raise; split <;> rfl
@[simp] theorem raise_readData : (raise c info s).readData = s.readData := by unfold raise; split <;> rfl

end

/-! ### The end of a burst (R108, R132) -/

/-- The micro-state after a burst of context `ctx` has ended. -/
def msAfterBurst (c : RunConfig) : Ctx → MicroState
  | .single => .ready
  | .byte v j => if j + 1 < c.slots then .atBegin (c.slotFreq v (j + 1)) c.kbit (.byte v (j + 1)) else .ready

/-- The end of a burst changes the micro-state and nothing else. -/
theorem endOfBurst_eq (ctx : Ctx) (s : State) : endOfBurst ctx s = setMs (msAfterBurst s.cfg ctx) s := by
  cases ctx with
  | single => rfl
  | byte v j => simp only [endOfBurst, nextSlot, msAfterBurst]; split <;> rfl

/-- The micro-state after one frame of a burst (R107). -/
def msAfterFrame (c : RunConfig) (f r P : Nat) (ctx : Ctx) : MicroState :=
  if r = 1 then msAfterBurst c ctx else .burst f (r - 1) (c.nextPhase f P) ctx

theorem afterFrame_eq (f r P : Nat) (ctx : Ctx) (s : State) :
    afterFrame f r P ctx s = setMs (msAfterFrame s.cfg f r P ctx) s := by
  unfold afterFrame msAfterFrame; split
  · exact endOfBurst_eq ctx s
  · rfl

/-- The micro-state after one mid-level frame (R172). -/
def msAfterSilence (r : Nat) : MicroState := if r = 1 then .ready else .silence (r - 1)

theorem afterSilence_eq (r : Nat) (s : State) : afterSilence r s = setMs (msAfterSilence r) s := by
  unfold afterSilence msAfterSilence; split <;> rfl

/-- The micro-state after a burst begin step (R106). -/
def msAfterBegin (c : RunConfig) (f k : Nat) (ctx : Ctx) : MicroState :=
  if k = 0 then msAfterBurst c ctx else .burst f k 0 ctx

/-- All that a burst begin step can do. -/
theorem burstBegin_eq (f k : Nat) (ctx : Ctx) (s : State) :
    burstBegin f k ctx s = if s.cfg.validate = .none then .next (setMs (msAfterBegin s.cfg f k ctx) (snapClock s))
      else .fault .illegalConfig := by
  unfold burstBegin msAfterBegin
  by_cases h : s.cfg.validate = .none <;> by_cases hk : k = 0 <;> simp [h, hk, endOfBurst_eq]

/-! ### The frame step (R107, R172) -/

/-- All that the shared frame step can do: an overflow, a hold, or one frame. -/
theorem frameStepWith_cases {bytes : List Byte} {after : State → State} {s u : State}
    (h : frameStepWith bytes after s = .next u) :
    (s.countOverflows = true ∧ u = raise .countOverflow s.cw s) ∨
    (s.countOverflows = false ∧ s.clockOverflows = true ∧ u = raise .clockOverflow s.cw s) ∨
    (s.countOverflows = false ∧ s.clockOverflows = false ∧ s.sinkAccepts = false ∧ u = s) ∨
    (s.countOverflows = false ∧ s.clockOverflows = false ∧ s.sinkAccepts = true ∧ u = after (emit bytes s)) := by
  unfold frameStepWith at h
  split at h
  · next h1 => simp only [Host.Outcome.next.injEq] at h; exact .inl ⟨h1, h.symm⟩
  · next h1 =>
    split at h
    · next h2 => simp only [Host.Outcome.next.injEq] at h; exact .inr (.inl ⟨by simpa using h1, h2, h.symm⟩)
    · next h2 =>
      split at h
      · next h3 =>
        simp only [Host.Outcome.next.injEq] at h
        exact .inr (.inr (.inr ⟨by simpa using h1, by simpa using h2, h3, h.symm⟩))
      · next h3 =>
        simp only [Host.Outcome.next.injEq] at h
        exact .inr (.inr (.inl ⟨by simpa using h1, by simpa using h2, by simpa using h3, h.symm⟩))

/-! ### The held push (R65) -/

/-- All that the completion of a held push can do. -/
theorem completeHeld_cases (s : State) :
    completeHeld s = s ∨
    (∃ w, s.heldPush = some w ∧ s.state = .run ∧ s.queue.length < s.build.cmdqDepth ∧
      completeHeld s = { s with queue := s.queue ++ [w], heldPush := none }) ∨
    ((∃ w, s.heldPush = some w) ∧ s.state = .error ∧ completeHeld s = { s with heldPush := none }) := by
  unfold completeHeld
  cases hh : s.heldPush with
  | none => exact .inl rfl
  | some w =>
    cases hs : s.state with
    | idle => exact .inl rfl
    | done => exact .inl rfl
    | error => exact .inr (.inr ⟨⟨w, rfl⟩, rfl, rfl⟩)
    | run =>
      simp only
      split
      · next hq => exact .inr (.inl ⟨w, rfl, trivial, hq, rfl⟩)
      · exact .inl rfl

/-- With no push held there is nothing to complete. -/
theorem completeHeld_of_none {s : State} (h : s.heldPush = none) : completeHeld s = s := by
  unfold completeHeld; rw [h]

section
variable (s : State)

@[simp] theorem completeHeld_build : (completeHeld s).build = s.build := by
  rcases completeHeld_cases s with h | ⟨w, -, -, -, h⟩ | ⟨-, -, h⟩ <;> rw [h]
@[simp] theorem completeHeld_state : (completeHeld s).state = s.state := by
  rcases completeHeld_cases s with h | ⟨w, -, -, -, h⟩ | ⟨-, -, h⟩ <;> rw [h]
@[simp] theorem completeHeld_errCode : (completeHeld s).errCode = s.errCode := by
  rcases completeHeld_cases s with h | ⟨w, -, -, -, h⟩ | ⟨-, -, h⟩ <;> rw [h]
@[simp] theorem completeHeld_errInfo : (completeHeld s).errInfo = s.errInfo := by
  rcases completeHeld_cases s with h | ⟨w, -, -, -, h⟩ | ⟨-, -, h⟩ <;> rw [h]
@[simp] theorem completeHeld_cfg : (completeHeld s).cfg = s.cfg := by
  rcases completeHeld_cases s with h | ⟨w, -, -, -, h⟩ | ⟨-, -, h⟩ <;> rw [h]
@[simp] theorem completeHeld_bytesWritten : (completeHeld s).bytesWritten = s.bytesWritten := by
  rcases completeHeld_cases s with h | ⟨w, -, -, -, h⟩ | ⟨-, -, h⟩ <;> rw [h]
@[simp] theorem completeHeld_clock : (completeHeld s).clock = s.clock := by
  rcases completeHeld_cases s with h | ⟨w, -, -, -, h⟩ | ⟨-, -, h⟩ <;> rw [h]
@[simp] theorem completeHeld_clockHiShadow : (completeHeld s).clockHiShadow = s.clockHiShadow := by
  rcases completeHeld_cases s with h | ⟨w, -, -, -, h⟩ | ⟨-, -, h⟩ <;> rw [h]
@[simp] theorem completeHeld_ms : (completeHeld s).ms = s.ms := by
  rcases completeHeld_cases s with h | ⟨w, -, -, -, h⟩ | ⟨-, -, h⟩ <;> rw [h]
@[simp] theorem completeHeld_cw : (completeHeld s).cw = s.cw := by
  rcases completeHeld_cases s with h | ⟨w, -, -, -, h⟩ | ⟨-, -, h⟩ <;> rw [h]
@[simp] theorem completeHeld_stream : (completeHeld s).stream = s.stream := by
  rcases completeHeld_cases s with h | ⟨w, -, -, -, h⟩ | ⟨-, -, h⟩ <;> rw [h]
@[simp] theorem completeHeld_runStart : (completeHeld s).runStart = s.runStart := by
  rcases completeHeld_cases s with h | ⟨w, -, -, -, h⟩ | ⟨-, -, h⟩ <;> rw [h]
@[simp] theorem completeHeld_sinkAccepts : (completeHeld s).sinkAccepts = s.sinkAccepts := by
  rcases completeHeld_cases s with h | ⟨w, -, -, -, h⟩ | ⟨-, -, h⟩ <;> rw [h]
@[simp] theorem completeHeld_schedule : (completeHeld s).schedule = s.schedule := by
  rcases completeHeld_cases s with h | ⟨w, -, -, -, h⟩ | ⟨-, -, h⟩ <;> rw [h]
@[simp] theorem completeHeld_hostProg : (completeHeld s).hostProg = s.hostProg := by
  rcases completeHeld_cases s with h | ⟨w, -, -, -, h⟩ | ⟨-, -, h⟩ <;> rw [h]
@[simp] theorem completeHeld_readData : (completeHeld s).readData = s.readData := by
  rcases completeHeld_cases s with h | ⟨w, -, -, -, h⟩ | ⟨-, -, h⟩ <;> rw [h]

/-- The FIFO's words and the held word, in order, are the same before and after a completion in RUN. -/
theorem completeHeld_words (h : s.state = .run) :
    (completeHeld s).queue ++ (completeHeld s).heldPush.toList = s.queue ++ s.heldPush.toList := by
  rcases completeHeld_cases s with h' | ⟨w, hw, -, -, h'⟩ | ⟨-, he, -⟩
  · rw [h']
  · rw [h', hw]; simp
  · simp [h] at he

end

/-! ### STATUS (R24, R25) -/

/-- The STATE field of STATUS is the code of STATE. -/
theorem status_state (s : State) : s.status.toNat % 4 = s.state.code := by
  have hc : s.state.code < 4 := by cases s.state <;> decide
  unfold State.status
  rw [BitVec.toNat_ofNat]
  omega

/-- CMDQ_FULL is bit 4 of STATUS. -/
theorem status_full (s : State) : s.status.getLsbD 4 = decide (s.queue.length = s.build.cmdqDepth) := by
  have hc : s.state.code < 4 := by cases s.state <;> decide
  have hb : s.busy.toNat < 2 := Bool.toNat_lt _
  have he : s.cmdqEmpty.toNat < 2 := Bool.toNat_lt _
  have hf : s.cmdqFull.toNat = (decide (s.queue.length = s.build.cmdqDepth)).toNat := rfl
  unfold State.status
  rw [BitVec.getLsbD_ofNat, Nat.testBit_eq_decide_div_mod_eq, hf]
  cases decide (s.queue.length = s.build.cmdqDepth) <;> simp <;> omega

/-! ### START (R176) -/

/-- All that START can do. -/
theorem start_cases (s : State) :
    start s = s ∨
    ((s.state = .idle ∨ s.state = .done) ∧ s.cfg.validate = .none ∧ start s = beginRun s) ∨
    ((s.state = .idle ∨ s.state = .done) ∧ s.cfg.validate ≠ .none ∧ start s = raise s.cfg.validate 0 s) := by
  unfold start
  cases hs : s.state with
  | run => exact .inl rfl
  | error => exact .inl rfl
  | idle => by_cases h : s.cfg.validate = .none <;> simp [h]
  | done => by_cases h : s.cfg.validate = .none <;> simp [h]

end Sys2Proof.Machine
end

