-- ==== Sys2Proof/Laws/Moves.lean ====
section
/-! SUPPORT. What one step can do, said once: the inversion lemmas of the engine's move, the host's move and the step, from
which every property of a step follows. -/
namespace Sys2Proof.Machine

/-- The micro-state in which a command other than END leaves the dispatch step (R170). -/
def msAtDispatch (b : Build) (c : RunConfig) : Instr → MicroState
  | .nop => .ready
  | .byte v => .atBegin (c.slotFreq (BitVec.ofNat 8 v) 0) c.kbit (.byte (BitVec.ofNat 8 v) 0)
  | .bit v => .atBegin (c.toneOf (decide (v = 1))) c.kbit .single
  | .toneS d => .atBegin c.fL (b.kdur c d) .single
  | .toneM d => .atBegin c.fMark (b.kdur c d) .single
  | .silence d => if b.kdur c d = 0 then .ready else .silence (b.kdur c d)
  | .endRun => .ready

/-- A command other than END sets the micro-state and nothing else. -/
theorem exec_eq {i : Instr} (h : i ≠ .endRun) (s : State) : exec i s = .next (setMs (msAtDispatch s.build s.cfg i) s) := by
  cases i with
  | endRun => exact absurd rfl h
  | silence d =>
    unfold exec execSilence msAtDispatch
    by_cases hk : s.build.kdur s.cfg d = 0 <;> simp [hk]
  | nop => rfl
  | byte v => rfl
  | bit b => rfl
  | toneS d => rfl
  | toneM d => rfl

/-- All that the engine's move can answer with, when it answers a next state. -/
inductive EngineMove (s : State) : State → Prop
  /-- No step is enabled, or the sink holds the engine. -/
  | rests : EngineMove s s
  /-- A command other than END is dispatched. -/
  | starts (w : Word) (rest : List Word) (i : Instr) (hr : s.state = .run) (hm : s.ms = .ready)
      (hq : s.queue = w :: rest) (hd : decode w = .ok i) (hi : i ≠ .endRun) :
      EngineMove s (setMs (msAtDispatch s.build s.cfg i) (popTo w rest s))
  /-- END ends the run. -/
  | finishes (w : Word) (hr : s.state = .run) (hm : s.ms = .ready) (hq : s.queue = [w])
      (hd : decode w = .ok .endRun) : EngineMove s (finish (popTo w [] s))
  /-- A fault is raised: at dispatch on the state with the word popped, at a frame step on the state as it is. -/
  | faults (c : ErrCode) (info : Word) (s₀ : State) (hr : s.state = .run)
      (hs : s₀ = s ∨ ∃ w rest, s.queue = w :: rest ∧ s.ms = .ready ∧ s₀ = popTo w rest s) (hc : c ≠ .none) :
      EngineMove s (raise c info s₀)
  /-- A burst begins. -/
  | begins (f k : Nat) (ctx : Ctx) (hr : s.state = .run) (hm : s.ms = .atBegin f k ctx) (hv : s.cfg.validate = .none) :
      EngineMove s (setMs (msAfterBegin s.cfg f k ctx) (snapClock s))
  /-- A frame of a burst goes out. -/
  | toneFrame (f r P : Nat) (ctx : Ctx) (hr : s.state = .run) (hm : s.ms = .burst f r P ctx)
      (hv : s.cfg.validate = .none) (h1 : s.countOverflows = false) (h2 : s.clockOverflows = false)
      (h3 : s.sinkAccepts = true) :
      EngineMove s (setMs (msAfterFrame s.cfg f r P ctx) (emit (s.build.toneFrame s.cfg P) s))
  /-- A mid-level frame goes out. -/
  | midFrame (r : Nat) (hr : s.state = .run) (hm : s.ms = .silence r) (hv : s.cfg.validate = .none)
      (h1 : s.countOverflows = false) (h2 : s.clockOverflows = false) (h3 : s.sinkAccepts = true) :
      EngineMove s (setMs (msAfterSilence r) (emit s.cfg.midFrame s))

/-- The inversion lemma of the engine's move. -/
theorem engineStep_cases {s u : State} (h : engineStep s = .next u) : EngineMove s u := by
  unfold engineStep at h
  split at h
  · cases h; exact .rests
  · cases h; exact .rests
  · cases h; exact .rests
  · next hr =>
    split at h
    · next hm =>
      unfold dispatchStep at h
      split at h
      · cases h; exact .rests
      · next w rest hq =>
        unfold dispatchWord at h
        split at h
        · cases h
          exact .faults _ _ _ hr (.inr ⟨w, rest, hq, hm, rfl⟩) (by decide)
        · next i hd =>
          by_cases hi : i = .endRun
          · subst hi
            simp only [exec, execEnd, popTo_queue] at h
            split at h
            · cases h; exact .finishes w hr hm hq hd
            · next w' rest' =>
              cases h
              exact .faults _ _ _ hr (.inr ⟨w, w' :: rest', hq, hm, rfl⟩) (by decide)
          · rw [exec_eq hi] at h
            cases h
            exact .starts w rest i hr hm hq hd hi
    · next f k ctx hm =>
      rw [burstBegin_eq] at h
      split at h
      · next hv => cases h; exact .begins f k ctx hr hm hv
      · cases h
    · next f r P ctx hm =>
      unfold frameStep at h
      split at h
      · cases h
      · next hv =>
        rcases frameStepWith_cases h with ⟨-, rfl⟩ | ⟨-, -, rfl⟩ | ⟨-, -, -, rfl⟩ | ⟨h1, h2, h3, rfl⟩
        · exact .faults _ _ _ hr (.inl rfl) (by decide)
        · exact .faults _ _ _ hr (.inl rfl) (by decide)
        · exact .rests
        · rw [afterFrame_eq]
          exact .toneFrame f r P ctx hr hm (not_not.mp hv) h1 h2 h3
    · next r hm =>
      unfold silenceStep at h
      split at h
      · cases h
      · next hv =>
        rcases frameStepWith_cases h with ⟨-, rfl⟩ | ⟨-, -, rfl⟩ | ⟨-, -, -, rfl⟩ | ⟨h1, h2, h3, rfl⟩
        · exact .faults _ _ _ hr (.inl rfl) (by decide)
        · exact .faults _ _ _ hr (.inl rfl) (by decide)
        · exact .rests
        · rw [afterSilence_eq]
          exact .midFrame r hr hm (not_not.mp hv) h1 h2 h3

/-- All that a write of `v` at offset `off` can do. -/
inductive WriteEffect (off : BitVec 8) (v : Word) (s : State) : State → Prop
  /-- Nothing: a read-only or unmapped offset, a CTRL write without effect, or a push in ERROR. -/
  | ignored (h : off.toNat ≠ 0x20 ∨ s.state = .error) : WriteEffect off v s s
  | resets (ho : off.toNat = 0x00) : WriteEffect off v s (resetBlock s)
  | beginsRun (ho : off.toNat = 0x00) (h : s.state = .idle ∨ s.state = .done) (hv : s.cfg.validate = .none) :
      WriteEffect off v s (beginRun s)
  | faults (c : ErrCode) (info : Word) (hs : s.state ≠ .error) (hc : c ≠ .none) :
      WriteEffect off v s (raise c info s)
  | configures (c : RunConfig) (ho : off.toNat ≠ 0x20) (h : s.state ≠ .run) : WriteEffect off v s { s with cfg := c }
  | appends (ho : off.toNat = 0x20) (h : s.state = .run) (hq : s.queue.length < s.build.cmdqDepth) :
      WriteEffect off v s (append v s)
  | holds (ho : off.toNat = 0x20) (h : s.state = .run) (hq : ¬s.queue.length < s.build.cmdqDepth) :
      WriteEffect off v s (hold v s)

theorem writeConfig_effect {off : BitVec 8} (ho : off.toNat ≠ 0x20) (v : Word) (c : RunConfig) (s : State) :
    WriteEffect off v s (writeConfig off c s) := by
  unfold writeConfig
  split
  · next h => exact .faults _ _ (by rw [h]; decide) (by decide)
  · next h => exact .configures c ho h

theorem push_effect {off : BitVec 8} (ho : off.toNat = 0x20) (v : Word) (s : State) :
    WriteEffect off v s (push v s) := by
  unfold push
  split
  · next h =>
    split
    · next hq => exact .appends ho h hq
    · next hq => exact .holds ho h hq
  · next h => exact .faults _ _ (by rw [h]; decide) (by decide)
  · next h => exact .faults _ _ (by rw [h]; decide) (by decide)
  · next h => exact .ignored (.inr h)

/-- The inversion lemma of a register write. -/
theorem hostWrite_effect (off : BitVec 8) (v : Word) (s : State) : WriteEffect off v s (hostWrite off v s) := by
  unfold hostWrite
  split
  · next ho =>
    have ho' : off.toNat ≠ 0x20 := by omega
    unfold writeCtrl
    split
    · exact .resets ho
    · split
      · rcases start_cases s with h | ⟨hs, hv, h⟩ | ⟨hs, hv, h⟩ <;> rw [h]
        · exact .ignored (.inl ho')
        · exact .beginsRun ho hs hv
        · exact .faults _ _ (by rcases hs with h | h <;> rw [h] <;> decide) hv
      · exact .ignored (.inl ho')
  · next ho => exact writeConfig_effect (by omega) ..
  · next ho => exact writeConfig_effect (by omega) ..
  · next ho => exact writeConfig_effect (by omega) ..
  · next ho => exact writeConfig_effect (by omega) ..
  · next ho => exact push_effect ho ..
  · next ho => exact .ignored (.inl (by simpa using ho))

/-- All that the host's move can answer with, when it answers a next state. -/
inductive HostMove (s : State) : State → Prop
  | waits : HostMove s s
  | reads (width : Nat) (off : BitVec 8) (rest : List HostOp) (hh : s.heldPush = none)
      (hp : s.hostProg = .once (.read width off) :: rest) (hi : inInterface width off = true) :
      HostMove s (hostRead off { s with hostProg := rest })
  | writes (width : Nat) (off : BitVec 8) (v : Word) (rest : List HostOp) (hh : s.heldPush = none)
      (hp : s.hostProg = .once (.write width off v) :: rest) (hi : inInterface width off = true) :
      HostMove s (hostWrite off v { s with hostProg := rest })
  /-- A read of STATUS on which the host's program branches. -/
  | polls (op : HostOp) (rest : List HostOp) (hh : s.heldPush = none) (hp : s.hostProg = op :: rest)
      (hop : ∀ a, op ≠ .once a) :
      HostMove s { s with hostProg := op.after s.status rest, readData := s.status }

/-- The inversion lemma of the host's move. -/
theorem hostTurn_cases {s u : State} (h : hostTurn s = .next u) : HostMove s u := by
  unfold hostTurn at h
  split at h
  · cases h; exact .waits
  · next hh =>
    split at h
    · cases h; exact .waits
    · next op rest hp =>
      unfold hostOp at h
      cases op with
      | once a =>
        unfold access at h
        cases a with
        | read width off =>
          simp only at h
          split at h
          · next hi => cases h; exact .reads width off rest hh hp hi
          · cases h
        | write width off v =>
          simp only at h
          split at h
          · next hi => cases h; exact .writes width off v rest hh hp hi
          · cases h
      | stopOnError report => cases h; exact .polls _ rest hh hp (by simp)
      | awaitEnd report => cases h; exact .polls _ rest hh hp (by simp)
      | awaitRoom => cases h; exact .polls _ rest hh hp (by simp)

/-- The state an agent moves from: the schedule's head has been taken. -/
def advance (s : State) : State := { s with schedule := s.schedule.tail }

/-- The inversion lemma of a step: an agent's move from `advance s`, and then the completion of a held push. -/
theorem step_cases {s t : State} (h : step s = .next t) :
    ∃ u, t = completeHeld u ∧
      (EngineMove (advance s) u ∨ HostMove (advance s) u ∨ (∃ b, u = { advance s with sinkAccepts := b }) ∨
        (u = resetBlock (advance s) ∧ Move.powerOn ∈ s.schedule)) := by
  have key : ∃ u, agentMove s = .next u ∧ t = completeHeld u := by
    unfold step settle at h
    split at h
    · next u hu => cases h; exact ⟨u, hu, rfl⟩
    · cases h
    · cases h
  obtain ⟨u, hu, rfl⟩ := key
  refine ⟨u, rfl, ?_⟩
  unfold agentMove at hu
  split at hu
  · next hs =>
    have ha : advance s = s := by unfold advance; rw [hs]; cases s; simp_all
    rw [ha]
    split at hu
    · exact .inl (engineStep_cases hu)
    · exact .inr (.inl (hostTurn_cases hu))
  · next m rest hs =>
    have ha : advance s = { s with schedule := rest } := by unfold advance; rw [hs]; rfl
    rw [ha]
    unfold takeMove at hu
    cases m with
    | host => exact .inr (.inl (hostTurn_cases hu))
    | engine => exact .inl (engineStep_cases hu)
    | sink b => cases hu; exact .inr (.inr (.inl ⟨b, rfl⟩))
    | powerOn => cases hu; exact .inr (.inr (.inr ⟨rfl, by simp [hs]⟩))

end Sys2Proof.Machine
end

