-- ==== Sys2Proof/Laws/Facts.lean ====
section
/-! SUPPORT. What a legal configuration gives, what one emitted frame adds, and how the parts of the invariant follow the
micro-state; and sequences of steps. -/
namespace Sys2Proof.Machine
open Sys2Proof.Safety

/-! ### A legal configuration (R203) -/

/-- Each check that a configuration START accepts has passed. -/
theorem legal_checks {c : RunConfig} (h : c.validate = .none) :
    c.baudRate ≠ 0 ∧ (c.channels.toNat = 1 ∨ c.channels.toNat = 2) ∧ (c.qbits.toNat = 8 ∨ c.qbits.toNat = 16) ∧
      c.fL ≠ 0 ∧ 8 * c.fL ≤ c.sr ∧ c.fL % c.baudRate = 0 := by
  unfold RunConfig.validate at h
  split_ifs at h
  simp_all

/-- The positive numbers of a legal configuration. -/
theorem legal_pos {c : RunConfig} (h : c.validate = .none) : 0 < c.sr ∧ 0 < c.baudRate ∧ 0 < c.fL := by
  obtain ⟨hb, -, -, hf, h8, -⟩ := legal_checks h
  omega

/-- Every frame of a legal configuration has `FB` bytes (R153). -/
theorem frame_length {c : RunConfig} (h : c.validate = .none) (code : ℤ) : (c.frame code).length = c.frameBytes := by
  obtain ⟨-, hc, hq, -⟩ := legal_checks h
  unfold RunConfig.frame RunConfig.frameBytes RunConfig.sampleBytes
  rcases hc with hc | hc <;> rcases hq with hq | hq <;> simp [hc, hq, List.replicate]

/-- A frame of a legal configuration has at least one byte. -/
theorem frameBytes_pos {c : RunConfig} (h : c.validate = .none) : 0 < c.frameBytes := by
  obtain ⟨-, hc, hq, -⟩ := legal_checks h
  unfold RunConfig.frameBytes
  rcases hc with hc | hc <;> rcases hq with hq | hq <;> simp [hc, hq]

/-- The snap never raises the clock (R102). -/
theorem snap_le (c : RunConfig) (n : Nat) : c.snap n ≤ n := Nat.div_mul_le_self _ _

/-! ### One emitted frame (R107, R154) -/

/-- Without a count overflow, BYTES_WRITTEN still fits its width. -/
theorem emit_countFits (bytes : List Byte) {s : State} (h : s.countOverflows = false) :
    (emit bytes s).bytesWritten < 2 ^ s.build.countWidth := by
  have h' := of_decide_eq_false h
  have := Nat.two_pow_pos s.build.countWidth
  rw [emit_bytesWritten]
  omega

/-- Without a clock overflow, CLOCK still fits its width. -/
theorem emit_clockFits (bytes : List Byte) {s : State} (h : s.clockOverflows = false) :
    (emit bytes s).clock < 2 ^ s.build.clockWidth := by
  have h' := of_decide_eq_false h
  have := Nat.two_pow_pos s.build.clockWidth
  rw [emit_clock]
  omega

/-! ### The micro-state's part of the invariant (R40) -/

/-- A byte has at least its nine slots before the stop bits. -/
theorem slots_ge (c : RunConfig) : 9 ≤ c.slots := Nat.le_add_right 9 _

/-- The tone of a bit is one of the two tones. -/
theorem toneOf_isTone (c : RunConfig) (b : Bool) : isTone c (c.toneOf b) := by
  cases b
  · exact .inl rfl
  · exact .inr rfl

/-- A dispatched command leaves a well-formed micro-state. -/
theorem msOk_atDispatch (b : Build) (c : RunConfig) (i : Instr) : msOk c (msAtDispatch b c i) := by
  cases i with
  | nop => trivial
  | byte v => exact ⟨toneOf_isTone .., Nat.lt_of_lt_of_le (by decide) (slots_ge c)⟩
  | bit v => exact ⟨toneOf_isTone .., trivial⟩
  | toneS d => exact ⟨.inl rfl, trivial⟩
  | toneM d => exact ⟨.inr rfl, trivial⟩
  | silence d =>
    simp only [msAtDispatch]
    split
    · trivial
    · next h => exact Nat.one_le_iff_ne_zero.mpr h
  | endRun => trivial

/-- The end of a burst leaves a well-formed micro-state. -/
theorem msOk_afterBurst (c : RunConfig) (ctx : Ctx) : msOk c (msAfterBurst c ctx) := by
  cases ctx with
  | single => trivial
  | byte v j =>
    simp only [msAfterBurst]
    split
    · next h => exact ⟨toneOf_isTone .., h⟩
    · trivial

/-- A decoded BYTE carries a byte (R82). -/
theorem decode_byte_lt {w : Word} {v : Nat} (h : decode w = .ok (.byte v)) : v < 256 := by
  unfold decode at h
  split at h
  all_goals try split at h
  all_goals simp at h
  subst h
  unfold field
  omega

/-- The word of a dispatched command belongs to the micro-state it leaves. -/
theorem cwOk_atDispatch (b : Build) (c : RunConfig) {w : Word} {i : Instr} (h : decode w = .ok i) :
    cwOk w (msAtDispatch b c i) := by
  cases i with
  | nop => trivial
  | byte v =>
    show decode w = _
    rw [h, BitVec.toNat_ofNat, Nat.mod_eq_of_lt (decode_byte_lt h)]
  | bit v => exact .inl ⟨v, h⟩
  | toneS d => exact .inr ⟨d, .inl h⟩
  | toneM d => exact .inr ⟨d, .inr h⟩
  | silence d =>
    simp only [msAtDispatch]
    split
    · trivial
    · exact ⟨d, h⟩
  | endRun => trivial

/-- The current word still belongs to the micro-state after a burst. -/
theorem cwOk_afterBurst (c : RunConfig) {cw : Word} {f k : Nat} {ctx : Ctx} (h : cwOk cw (.atBegin f k ctx)) :
    cwOk cw (msAfterBurst c ctx) := by
  cases ctx with
  | single => trivial
  | byte v j =>
    simp only [msAfterBurst]
    split
    · exact h
    · trivial

/-- Under the invariant a held push has nothing to complete it: the FIFO is full, or the run is over (R65). -/
theorem completeHeld_of_inv {s : State} (hi : Inv s) : completeHeld s = s := by
  unfold completeHeld
  cases hx : s.heldPush with
  | none => rfl
  | some w => rcases hi.heldByFullQueue (by simp [hx]) with ⟨h, hq⟩ | ⟨h, -⟩ <;> simp [*]

/-- The output port offers no frame after reset (R43). -/
theorem reset_offers_no_frame : State.reset.offered = none := by decide

/-! ### Sequences of steps -/

/-- `steps` is the host's run of the machine. -/
theorem steps_eq_run (n : Nat) (s : State) : steps n s = Host.Core.run core n s := by
  induction n generalizing s with
  | zero => rfl
  | succ n ih =>
    simp only [steps, Host.Core.run]
    show (match step s with | .next t => steps n t | .fault f => .fault f | .refused r => .refused r) = _
    cases h : step s with
    | next t => simp only [ih, core, h]
    | fault f => simp only [core, h]
    | refused r => simp only [core, h]

/-- Steps in a row. -/
theorem steps_add {m : Nat} (n : Nat) {s t : State} (h : steps m s = .next t) : steps (m + n) s = steps n t := by
  induction m generalizing s with
  | zero =>
    cases h
    rw [Nat.zero_add]
  | succ m ih =>
    rw [show m + 1 + n = (m + n) + 1 by omega]
    simp only [steps] at h ⊢
    split at h
    · exact ih h
    · cases h
    · cases h

/-- One step. -/
theorem steps_one {s t : State} (h : step s = .next t) : steps 1 s = .next t := by simp [steps, h]

/-- With an empty schedule the engine moves while a step is enabled (log entry 1). -/
theorem step_of_engine {s t : State} (hu : s.schedule = []) (he : s.engineEnabled = true) (h : engineStep s = .next t)
    (ht : t.heldPush = none) : step s = .next t := by
  unfold step agentMove
  rw [hu]
  simp only [he, if_true, h, settle, completeHeld_of_none ht]

end Sys2Proof.Machine
end

