-- ==== Sys2Proof/Laws/Sine.lean ====
section
/-! SUPPORT. The enclosure of the sine is sound (log entry 7): the exact real `sin(2π P / sr)` lies between its two ends.
The sine's alternating series bounds each tail, and Machin's formula bounds π. -/
namespace Sys2Proof.Machine

/-- `ceilDiv` rounds up. -/
theorem ceilDiv_ge {a b : Nat} (hb : 0 < b) : (a : ℝ) / b ≤ (ceilDiv a b : ℕ) := by
  rw [div_le_iff₀ (by exact_mod_cast hb)]
  have h : a ≤ ceilDiv a b * b := by
    unfold ceilDiv
    have := Nat.div_add_mod (a + b - 1) b
    have := Nat.mod_lt (a + b - 1) hb
    rw [Nat.mul_comm]; omega
  exact_mod_cast h

/-- The `m`-th term of the sine's series, without its sign. -/
noncomputable def Sine.term (m : ℕ) (x : ℝ) : ℝ := x ^ (2 * m + 1) / (2 * m + 1).factorial

/-- What the first `m` terms of the series leave of the sine, with the sign that makes it positive. -/
noncomputable def Sine.rest (m : ℕ) (x : ℝ) : ℝ :=
  (-1) ^ m * (Real.sin x - ∑ i ∈ Finset.range m, (-1) ^ i * Sine.term i x)

theorem Sine.term_succ (m : ℕ) (x : ℝ) :
    Sine.term (m + 1) x = Sine.term m x * (x ^ 2 / ((2 * m + 2) * (2 * m + 3))) := by
  have h : (2 * (m + 1) + 1).factorial = (2 * m + 3) * ((2 * m + 2) * (2 * m + 1).factorial) := by
    rw [show 2 * (m + 1) + 1 = (2 * m + 2) + 1 by ring, Nat.factorial_succ, Nat.factorial_succ]
  unfold Sine.term
  rw [h, show 2 * (m + 1) + 1 = 2 * m + 1 + 2 by ring, pow_add]
  push_cast
  have : ((2 * m + 1).factorial : ℝ) ≠ 0 := by positivity
  field_simp

theorem Sine.rest_succ (m : ℕ) (x : ℝ) : Sine.rest m x + Sine.rest (m + 1) x = Sine.term m x := by
  unfold Sine.rest
  rw [Finset.sum_range_succ, pow_succ]
  have h : ((-1 : ℝ) ^ m) * (-1) ^ m = 1 := by rw [← mul_pow]; norm_num
  linear_combination (Sine.term m x) * h

theorem Sine.term_antitone {x : ℝ} (h0 : 0 ≤ x) (h1 : x ^ 2 ≤ 6) : Antitone (fun m => Sine.term m x) := by
  refine antitone_nat_of_succ_le fun m => ?_
  have ht : 0 ≤ Sine.term m x := by unfold Sine.term; positivity
  rw [Sine.term_succ]
  refine mul_le_of_le_one_right ht ?_
  rw [div_le_one (by positivity)]
  have : (0 : ℝ) ≤ m := by positivity
  nlinarith

theorem Sine.rest_nonneg {x : ℝ} (h0 : 0 ≤ x) (h1 : x ^ 2 ≤ 6) (m : ℕ) : 0 ≤ Sine.rest m x := by
  have ht : Filter.Tendsto (fun n => ∑ i ∈ Finset.range n, (-1) ^ i * Sine.term i x) Filter.atTop (nhds (Real.sin x)) := by
    have := (Real.hasSum_sin x).tendsto_sum_nat
    simpa only [Sine.term, mul_div_assoc] using this
  have ha := Sine.term_antitone h0 h1
  unfold Sine.rest
  obtain ⟨k, rfl | rfl⟩ := Nat.even_or_odd' m
  · have := ha.alternating_series_le_tendsto ht k
    rw [pow_mul]; norm_num; exact this
  · have := ha.tendsto_le_alternating_series ht k
    rw [pow_succ, pow_mul]; norm_num; exact this

/-- The tail's bounds enclose what the series leaves, relative to the first term left out. -/
theorem Sine.tail_sound {x : ℝ} (h0 : 0 ≤ x) (h1 : x ^ 2 ≤ 6) {ylo yhi : ℕ}
    (hlo : (ylo : ℝ) ≤ x ^ 2 * Sine.one) (hhi : x ^ 2 * Sine.one ≤ yhi) :
    ∀ n m : ℕ, ((Sine.tail ylo yhi n (m + 1)).1 : ℝ) * Sine.term m x ≤ Sine.rest m x * Sine.one ∧
      Sine.rest m x * Sine.one ≤ (Sine.tail ylo yhi n (m + 1)).2 * Sine.term m x := by
  have ht : ∀ m, 0 ≤ Sine.term m x := fun m => by unfold Sine.term; positivity
  have hone : (0 : ℝ) < (Sine.one : ℕ) := by unfold Sine.one; positivity
  intro n
  induction n with
  | zero =>
    intro m
    have h := Sine.rest_succ m x
    have h2 := Sine.rest_nonneg h0 h1 m
    have h3 := Sine.rest_nonneg h0 h1 (m + 1)
    simp only [Sine.tail, Nat.cast_zero, zero_mul]
    constructor
    · positivity
    · nlinarith
  | succ n ih =>
    intro m
    obtain ⟨il, ih'⟩ := ih (m + 1)
    have h := Sine.rest_succ m x
    have h2 := Sine.rest_nonneg h0 h1 m
    set lo := (Sine.tail ylo yhi n (m + 1 + 1)).1 with hlo'
    set hi := (Sine.tail ylo yhi n (m + 1 + 1)).2 with hhi'
    rw [Sine.term_succ] at il ih'
    simp only [Sine.tail, ← hlo', ← hhi']
    set c : ℕ := 2 * (m + 1) * (2 * (m + 1) + 1) * Sine.one with hc
    have hcp : 0 < c := by
      have : 0 < Sine.one := by unfold Sine.one; positivity
      positivity
    have hcr : (c : ℝ) = (2 * m + 2) * (2 * m + 3) * Sine.one := by rw [hc]; push_cast; ring
    have hd : (0 : ℝ) < (2 * m + 2) * (2 * m + 3) := by positivity
    have e1 : ((yhi * hi : ℕ) : ℝ) / c ≤ (ceilDiv (yhi * hi) c : ℕ) := ceilDiv_ge hcp
    have e2 : ((ylo * lo / c : ℕ) : ℝ) ≤ ((ylo * lo : ℕ) : ℝ) / c := Nat.cast_div_le
    have s1 : Sine.rest m x * Sine.one = Sine.term m x * Sine.one - Sine.rest (m + 1) x * Sine.one := by
      rw [← h]; ring
    constructor
    · by_cases hle : ceilDiv (yhi * hi) c ≤ Sine.one
      · rw [Nat.cast_sub hle, s1]
        have k1 : Sine.rest (m + 1) x * Sine.one ≤ Sine.term m x * (((yhi * hi : ℕ) : ℝ) / c) := by
          refine ih'.trans ?_
          have : x ^ 2 / ((2 * m + 2) * (2 * m + 3)) ≤ (yhi : ℝ) / c := by
            rw [hcr, div_le_div_iff₀ hd (by positivity)]
            nlinarith
          calc (hi : ℝ) * (Sine.term m x * (x ^ 2 / ((2 * m + 2) * (2 * m + 3))))
              ≤ (hi : ℝ) * (Sine.term m x * ((yhi : ℝ) / c)) := by gcongr; exact ht m
            _ = _ := by push_cast; ring
        have k2 := mul_le_mul_of_nonneg_left e1 (ht m)
        nlinarith
      · rw [Nat.sub_eq_zero_of_le (by omega)]
        simp only [Nat.cast_zero, zero_mul]; positivity
    · have k1 : Sine.term m x * (((ylo * lo : ℕ) : ℝ) / c) ≤ Sine.rest (m + 1) x * Sine.one := by
        refine le_trans ?_ il
        have : (ylo : ℝ) / c ≤ x ^ 2 / ((2 * m + 2) * (2 * m + 3)) := by
          rw [hcr, div_le_div_iff₀ (by positivity) hd]
          nlinarith
        calc _ = (lo : ℝ) * (Sine.term m x * ((ylo : ℝ) / c)) := by push_cast; ring
          _ ≤ _ := by gcongr; exact ht m
      have k2 := mul_le_mul_of_nonneg_left e2 (ht m)
      have hle : ((Sine.one - ylo * lo / c : ℕ) : ℝ) ≥ (Sine.one : ℝ) - ((ylo * lo / c : ℕ) : ℝ) := by
        rw [ge_iff_le, sub_le_iff_le_add]
        exact_mod_cast (by omega : Sine.one ≤ Sine.one - ylo * lo / c + ylo * lo / c)
      rw [s1]
      have := mul_le_mul_of_nonneg_right hle (ht m)
      nlinarith

/-- The alternating sums of the arctangent's series bound it. -/
theorem Sine.arctan_alternating {x : ℝ} (h0 : 0 < x) (h1 : x < 1) (k : ℕ) :
    ∑ i ∈ Finset.range (2 * k), (-1) ^ i * (x ^ (2 * i + 1) / ((2 * i + 1 : ℕ) : ℝ)) ≤ Real.arctan x ∧
      Real.arctan x ≤ ∑ i ∈ Finset.range (2 * k + 1), (-1) ^ i * (x ^ (2 * i + 1) / ((2 * i + 1 : ℕ) : ℝ)) := by
  have ht : Filter.Tendsto (fun n => ∑ i ∈ Finset.range n, (-1) ^ i * (x ^ (2 * i + 1) / ((2 * i + 1 : ℕ) : ℝ)))
      Filter.atTop (nhds (Real.arctan x)) := by
    have := (Real.hasSum_arctan (x := x) (by rw [Real.norm_eq_abs, abs_of_pos h0]; exact h1)).tendsto_sum_nat
    simpa only [mul_div_assoc] using this
  have ha : Antitone (fun i : ℕ => x ^ (2 * i + 1) / ((2 * i + 1 : ℕ) : ℝ)) := by
    refine antitone_nat_of_succ_le fun m => ?_
    gcongr ?_ / ?_
    · exact pow_le_pow_of_le_one h0.le h1.le (by omega)
    · push_cast; linarith
  exact ⟨ha.alternating_series_le_tendsto ht k, ha.tendsto_le_alternating_series ht k⟩

/-- `piFloor` is the integer part of `π × 2^192`. -/
theorem Sine.pi_bounds : (Sine.piFloor : ℝ) ≤ Real.pi * Sine.one ∧ Real.pi * Sine.one ≤ (Sine.piFloor + 1 : ℕ) := by
  have hm := Real.four_mul_arctan_inv_5_sub_arctan_inv_239
  obtain ⟨a1, -⟩ := Sine.arctan_alternating (x := 5⁻¹) (by norm_num) (by norm_num) 21
  obtain ⟨-, a2⟩ := Sine.arctan_alternating (x := 5⁻¹) (by norm_num) (by norm_num) 21
  obtain ⟨b1, -⟩ := Sine.arctan_alternating (x := 239⁻¹) (by norm_num) (by norm_num) 7
  obtain ⟨-, b2⟩ := Sine.arctan_alternating (x := 239⁻¹) (by norm_num) (by norm_num) 7
  norm_num [Finset.sum_range_succ] at a1 a2 b1 b2
  unfold Sine.piFloor Sine.one
  constructor
  · push_cast; linarith
  · push_cast; linarith

theorem Sine.one_pos : (0 : ℝ) < (Sine.one : ℕ) := by unfold Sine.one; positivity

/-- `lo` and `hi` enclose the real `a`, in units of `2^-192`. -/
def Sine.Encloses (e : ℕ × ℕ) (a : ℝ) : Prop := (e.1 : ℝ) ≤ a * Sine.one ∧ a * Sine.one ≤ e.2

theorem Sine.quarter_sound {num den : ℕ} (hd : 0 < den) (h : 2 * num ≤ den) :
    Sine.Encloses (Sine.quarter num den) (Real.sin (Real.pi * (num / den))) := by
  unfold Sine.Encloses Sine.quarter
  have h1 := Sine.one_pos
  have hdr : (0 : ℝ) < den := by exact_mod_cast hd
  split
  · next h6 =>
    have : Real.pi * ((num : ℝ) / den) = Real.pi / 6 := by
      rw [← h6]; push_cast
      have : (num : ℝ) ≠ 0 := by
        have : 0 < num := by omega
        positivity
      field_simp
    rw [this, Real.sin_pi_div_six]
    have : Sine.one = 2 * (Sine.one / 2) := by unfold Sine.one; norm_num
    have hr : (Sine.one : ℝ) = 2 * ((Sine.one / 2 : ℕ) : ℝ) := by exact_mod_cast this
    constructor <;> linarith
  · next h6 =>
    obtain ⟨p1, p2⟩ := Sine.pi_bounds
    have hx1 : (num : ℝ) / den ≤ 1 / 2 := by
      rw [div_le_div_iff₀ hdr (by norm_num)]
      exact_mod_cast (by omega : num * 2 ≤ 1 * den)
    have hx0 : (0 : ℝ) ≤ (num : ℝ) / den := by positivity
    set x : ℝ := Real.pi * (num / den) with hx
    have x0 : 0 ≤ x := by have := Real.pi_pos; positivity
    have xle : x ≤ Real.pi / 2 := by rw [hx]; nlinarith [Real.pi_pos]
    have x6 : x ^ 2 ≤ 6 := by nlinarith [Real.pi_lt_d2]
    set xlo := Sine.piFloor * num / den with hxlo
    set xhi := ceilDiv ((Sine.piFloor + 1) * num) den with hxhi
    have lo1 : (xlo : ℝ) ≤ x * Sine.one := by
      calc (xlo : ℝ) ≤ ((Sine.piFloor * num : ℕ) : ℝ) / den := Nat.cast_div_le
        _ = (Sine.piFloor : ℝ) * ((num : ℝ) / den) := by push_cast; ring
        _ ≤ (Real.pi * Sine.one) * ((num : ℝ) / den) := by gcongr
        _ = x * Sine.one := by rw [hx]; ring
    have hi1 : x * Sine.one ≤ xhi := by
      calc x * Sine.one = (Real.pi * Sine.one) * ((num : ℝ) / den) := by rw [hx]; ring
        _ ≤ ((Sine.piFloor + 1 : ℕ) : ℝ) * ((num : ℝ) / den) := by gcongr
        _ = (((Sine.piFloor + 1) * num : ℕ) : ℝ) / den := by push_cast; ring
        _ ≤ xhi := ceilDiv_ge hd
    have hone : 0 < Sine.one := by exact_mod_cast h1
    have y1 : ((xlo * xlo / Sine.one : ℕ) : ℝ) ≤ x ^ 2 * Sine.one := by
      refine (Nat.cast_div_le).trans ?_
      rw [div_le_iff₀ h1]; push_cast
      nlinarith [mul_le_mul lo1 lo1 (by positivity) (by positivity)]
    have y2 : x ^ 2 * Sine.one ≤ (ceilDiv (xhi * xhi) Sine.one : ℕ) := by
      refine le_trans ?_ (ceilDiv_ge hone)
      rw [le_div_iff₀ h1]; push_cast
      nlinarith [mul_le_mul hi1 hi1 (by positivity) (by positivity)]
    obtain ⟨t1, t2⟩ := Sine.tail_sound x0 x6 y1 y2 28 0
    have r0 : Sine.rest 0 x = Real.sin x := by simp [Sine.rest]
    have s0 : Sine.term 0 x = x := by simp [Sine.term]
    rw [r0, s0] at t1 t2
    set tl := Sine.tail (xlo * xlo / Sine.one) (ceilDiv (xhi * xhi) Sine.one) 28 (0 + 1) with htl
    constructor
    · refine (Nat.cast_div_le).trans ?_
      rw [div_le_iff₀ h1]; push_cast
      calc (xlo : ℝ) * tl.1 ≤ (x * Sine.one) * tl.1 := by gcongr
        _ ≤ _ := by nlinarith
    · rw [Nat.cast_min]
      refine le_min ?_ ?_
      · nlinarith [Real.sin_le_one x]
      · refine le_trans ?_ (ceilDiv_ge hone)
        rw [le_div_iff₀ h1]; push_cast
        calc Real.sin x * Sine.one * Sine.one ≤ (tl.2 * x) * Sine.one := by gcongr
          _ = (x * Sine.one) * tl.2 := by ring
          _ ≤ _ := by gcongr

theorem Sine.half_sound {num den : ℕ} (hd : 0 < den) (h : num ≤ den) :
    Sine.Encloses (Sine.half num den) (Real.sin (Real.pi * (num / den))) := by
  unfold Sine.half
  split
  · next h2 =>
    have := Sine.quarter_sound (num := den - num) hd (by omega)
    rw [Nat.cast_sub h, sub_div, div_self (by positivity), mul_sub, mul_one, Real.sin_pi_sub] at this
    exact this
  · exact Sine.quarter_sound hd (by omega)

/-- The enclosure of R16's sine is sound: the exact real lies between its two ends. -/
theorem Sine.enclosure_sound {P sr : ℕ} (h : P < sr) :
    ((Sine.enclosure P sr).1 : ℝ) ≤ Real.sin (2 * Real.pi * P / sr) * Sine.one ∧
      Real.sin (2 * Real.pi * P / sr) * Sine.one ≤ ((Sine.enclosure P sr).2 : ℝ) := by
  have hd : 0 < sr := by omega
  have hdr : (sr : ℝ) ≠ 0 := by positivity
  unfold Sine.enclosure
  split
  · next h2 =>
    obtain ⟨a, b⟩ := Sine.half_sound (num := 2 * P - sr) hd (by omega)
    have e : Real.pi * (((2 * P - sr : ℕ) : ℝ) / sr) = 2 * Real.pi * P / sr - Real.pi := by
      rw [Nat.cast_sub h2]; push_cast; field_simp
    rw [e, Real.sin_sub_pi] at a b
    push_cast
    constructor <;> linarith
  · obtain ⟨a, b⟩ := Sine.half_sound (num := 2 * P) hd (by omega)
    have e : Real.pi * (((2 * P : ℕ) : ℝ) / sr) = 2 * Real.pi * P / sr := by push_cast; ring
    rw [e] at a b
    exact ⟨by exact_mod_cast a, by exact_mod_cast b⟩
end Sys2Proof.Machine
end

