-- ==== Sys2Proof/Laws/HalfTurns.lean ====
section
/-! SUPPORT. The exact comparison of the sine of a phase index with a rational number (R16, R159): what the count of half turns
counts, and that `Sine.lessThan` and `Sine.atMost` say what their names say. -/
namespace Sys2Proof.Machine

/-- After `j` steps of the angle `φ`: `a` and `b` have the signs of `sin(jφ)` and `sin((j+1)φ)`, and `h` half turns are over. -/
structure Sine.TurnsAt (φ : ℝ) (v j : ℕ) (a b : ℤ) (h : ℕ) : Prop where
  here : a * (v * Real.sin φ) = v ^ j * Real.sin (j * φ)
  next : b * (v * Real.sin φ) = v ^ (j + 1) * Real.sin ((j + 1) * φ)
  begun : h * Real.pi ≤ j * φ
  unfinished : j * φ < (h + 1) * Real.pi

/-- The sine of an angle less than a whole turn beyond `h` half turns is positive, up to the sign of `h`, exactly in the first
half turn of it. -/
theorem Sine.sign_iff {h : ℕ} {x : ℝ} (h0 : h * Real.pi < x) (h1 : x < (h + 2) * Real.pi) :
    0 < (-1 : ℝ) ^ h * Real.sin x ↔ x < (h + 1) * Real.pi := by
  have e : (-1 : ℝ) ^ h * Real.sin x = Real.sin (x - h * Real.pi) := by
    rw [Real.sin_sub_nat_mul_pi]
  rw [e]
  constructor
  · intro hp
    by_contra hc
    have : Real.sin (x - h * Real.pi - Real.pi) ≥ 0 :=
      Real.sin_nonneg_of_nonneg_of_le_pi (by linarith) (by linarith)
    rw [Real.sin_sub_pi] at this
    linarith
  · intro hx
    exact Real.sin_pos_of_pos_of_lt_pi (by linarith) (by linarith)

/-- One step keeps the meaning of the count. -/
theorem Sine.TurnsAt.step {φ : ℝ} {u : ℤ} {v j : ℕ} {a b : ℤ} {h : ℕ} (hv : 0 < v) (h0 : 0 < φ) (h1 : φ < Real.pi)
    (hu : (v : ℝ) * Real.cos φ = u) (t : Sine.TurnsAt φ v j a b h) :
    Sine.TurnsAt φ v (j + 1) b (2 * u * b - v * v * a) (if 0 < (-1) ^ h * b then h else h + 1) := by
  obtain ⟨ta, tb, t0, t1⟩ := t
  have hv' : (0 : ℝ) < v := by exact_mod_cast hv
  have hs : 0 < Real.sin φ := Real.sin_pos_of_pos_of_lt_pi h0 h1
  have hsign : 0 < (-1) ^ h * b ↔ ((j + 1 : ℕ) : ℝ) * φ < (h + 1) * Real.pi := by
    rw [← Sine.sign_iff (by push_cast; linarith) (by push_cast; linarith)]
    have e : ((-1 : ℝ) ^ h * b) * (v * Real.sin φ) = v ^ (j + 1) * ((-1) ^ h * Real.sin ((j + 1 : ℕ) * φ)) := by
      rw [mul_assoc, tb]; push_cast; ring
    have hvs : 0 < v * Real.sin φ := by positivity
    have hvp : (0 : ℝ) < v ^ (j + 1) := by positivity
    have hb : (0 < (-1) ^ h * b) ↔ (0 : ℝ) < (-1) ^ h * b := by
      have : (((-1) ^ h * b : ℤ) : ℝ) = (-1) ^ h * b := by push_cast; ring
      rw [← this]; exact_mod_cast Iff.rfl
    rw [hb, ← mul_pos_iff_of_pos_right hvs, e, mul_pos_iff_of_pos_left hvp]
  refine ⟨by exact_mod_cast tb, ?_, ?_, ?_⟩
  · have hadd : Real.sin ((((j + 1 : ℕ) : ℝ) + 1) * φ) = 2 * Real.cos φ * Real.sin ((j + 1) * φ) - Real.sin (j * φ) := by
      have e1 : (((j + 1 : ℕ) : ℝ) + 1) * φ = (j + 1) * φ + φ := by push_cast; ring
      have e2 : (j : ℝ) * φ = (j + 1) * φ - φ := by ring
      rw [e1, e2, Real.sin_add, Real.sin_sub]; ring
    rw [hadd]; push_cast
    calc ((2 * u * b - v * v * a : ℝ)) * (v * Real.sin φ)
        = 2 * u * (b * (v * Real.sin φ)) - v * v * (a * (v * Real.sin φ)) := by ring
      _ = _ := by rw [ta, tb, ← hu]; ring
  · split
    · push_cast; linarith
    · next hn => rw [hsign, not_lt] at hn; push_cast at hn ⊢; linarith
  · split
    · next hp => exact hsign.mp hp
    · push_cast; linarith

/-- All that the count of half turns says, from any step on. -/
theorem Sine.halfTurns_spec {φ : ℝ} {u : ℤ} {v : ℕ} (hv : 0 < v) (h0 : 0 < φ) (h1 : φ < Real.pi)
    (hu : (v : ℝ) * Real.cos φ = u) (k : ℕ) {j : ℕ} {a b : ℤ} {h : ℕ} (t : Sine.TurnsAt φ v j a b h) :
    ∃ b', Sine.TurnsAt φ v (j + k) (Sine.halfTurns u v k a b h).1 b' (Sine.halfTurns u v k a b h).2 := by
  induction k generalizing j a b h with
  | zero => exact ⟨b, t⟩
  | succ k ih =>
    have := ih (t.step hv h0 h1 hu)
    rwa [show j + 1 + k = j + (k + 1) by omega] at this

/-- The angle from the crest has the sine of the phase index as its cosine. -/
theorem Sine.cos_fromCrest {P sr : ℕ} (h : P < sr) :
    Real.cos (Real.pi * Sine.fromCrest P sr / (2 * sr)) = Real.sin (2 * Real.pi * P / sr) := by
  have hs : (0 : ℝ) < sr := by exact_mod_cast (by omega : 0 < sr)
  rw [← Real.cos_pi_div_two_sub]
  unfold Sine.fromCrest
  split
  · next h' =>
    congr 1; rw [Nat.cast_sub h']; push_cast; field_simp; ring
  · split
    · next h1 _ =>
      rw [← Real.cos_neg]; congr 1; rw [Nat.cast_sub (by omega)]; push_cast; field_simp; ring
    · rw [← Real.cos_two_pi_sub, ← Real.cos_neg]
      rw [show -(2 * Real.pi - Real.pi * ((5 * sr - 4 * P : ℕ) : ℝ) / (2 * sr)) = Real.pi / 2 - 2 * Real.pi * P / sr by
        rw [Nat.cast_sub (by omega)]; push_cast; field_simp; ring]

theorem Sine.fromCrest_le {P sr : ℕ} (h : P < sr) : Sine.fromCrest P sr ≤ 2 * sr := by
  unfold Sine.fromCrest; split
  · omega
  · split <;> omega

/-- The two comparisons, together: strictly below, and at. -/
theorem Sine.compare_spec {P sr : ℕ} (h : P < sr) {u : ℤ} {v : ℕ} (hu : |u| < v) :
    (Sine.lessThan P sr u v = true ↔ Real.sin (2 * Real.pi * P / sr) < u / v) ∧
      (Sine.atMost P sr u v = true ↔ Real.sin (2 * Real.pi * P / sr) ≤ u / v) := by
  have hv : 0 < v := by have := abs_nonneg u; omega
  have hv' : (0 : ℝ) < v := by exact_mod_cast hv
  have hs : (0 : ℝ) < sr := by exact_mod_cast (by omega : 0 < sr)
  have hlt := abs_lt.mp hu
  have hl : -1 < (u : ℝ) / v := by
    rw [lt_div_iff₀ hv']; have : (-(v : ℤ) : ℝ) < u := by exact_mod_cast hlt.1
    push_cast at this; linarith
  have hr : (u : ℝ) / v < 1 := by
    rw [div_lt_one hv']; exact_mod_cast hlt.2
  set φ := Real.arccos (u / v) with hφ
  have hcos : Real.cos φ = u / v := Real.cos_arccos hl.le hr.le
  have h0 : 0 < φ := Real.arccos_pos.mpr hr
  have h1 : φ < Real.pi := lt_of_le_of_ne (Real.arccos_le_pi _) (fun he => by rw [hφ, Real.arccos_eq_pi] at he; linarith)
  have hc : (v : ℝ) * Real.cos φ = u := by rw [hcos]; field_simp
  have t0 : Sine.TurnsAt φ v 0 0 1 0 := ⟨by simp, by simp, by simp, by simpa using Real.pi_pos⟩
  obtain ⟨b', t⟩ := Sine.halfTurns_spec hv h0 h1 hc (2 * sr) t0
  rw [Nat.zero_add] at t
  set a := (Sine.halfTurns u v (2 * sr) 0 1 0).1 with ha
  set n := (Sine.halfTurns u v (2 * sr) 0 1 0).2 with hn
  set p := Sine.fromCrest P sr with hp
  obtain ⟨th, -, tl, tu⟩ := t
  have hsin : 0 < Real.sin φ := Real.sin_pos_of_pos_of_lt_pi h0 h1
  have hq : (((2 * sr : ℕ) : ℝ)) = 2 * sr := by push_cast; ring
  rw [hq] at th tl tu
  -- the angle from the crest, in half turns
  have hple : (p : ℝ) ≤ 2 * sr := by exact_mod_cast Sine.fromCrest_le h
  have hψ0 : 0 ≤ Real.pi * p / (2 * sr) := by positivity
  have hψ1 : Real.pi * p / (2 * sr) ≤ Real.pi := by
    rw [div_le_iff₀ (by positivity)]; exact mul_le_mul_of_nonneg_left hple Real.pi_pos.le
  have hlt' : Real.sin (2 * Real.pi * P / sr) < u / v ↔ 2 * sr * φ < p * Real.pi := by
    rw [← Sine.cos_fromCrest h, ← hcos, (Real.strictAntiOn_cos).lt_iff_gt ⟨hψ0, hψ1⟩ ⟨h0.le, h1.le⟩,
      lt_div_iff₀ (by positivity)]
    constructor <;> intro h <;> linarith
  have heq : Real.sin (2 * Real.pi * P / sr) = u / v ↔ 2 * sr * φ = p * Real.pi := by
    rw [← Sine.cos_fromCrest h, ← hcos, (Real.injOn_cos).eq_iff ⟨hψ0, hψ1⟩ ⟨h0.le, h1.le⟩, div_eq_iff (by positivity)]
    constructor <;> intro h <;> linarith
  have hless : n < p ↔ 2 * sr * φ < p * Real.pi := by
    constructor
    · intro hnp
      have : (n : ℝ) + 1 ≤ p := by exact_mod_cast hnp
      exact tu.trans_le (mul_le_mul_of_nonneg_right this Real.pi_pos.le)
    · intro hlt
      have : (n : ℝ) * Real.pi < p * Real.pi := tl.trans_lt hlt
      exact_mod_cast lt_of_mul_lt_mul_right this Real.pi_pos.le
  have hequal : n = p ∧ a = 0 ↔ 2 * sr * φ = p * Real.pi := by
    constructor
    · rintro ⟨hnp, ha0⟩
      rw [ha0] at th
      rw [← hnp]
      have hz : Real.sin (2 * sr * φ) = 0 := by
        have : (v : ℝ) ^ (2 * sr) ≠ 0 := by positivity
        have th : (v : ℝ) ^ (2 * sr) * Real.sin (2 * sr * φ) = 0 := by simpa using th.symm
        exact (mul_eq_zero.mp th).resolve_left this
      by_contra hne
      have hpos : 0 < 2 * sr * φ - n * Real.pi := by
        rcases lt_or_eq_of_le tl with h | h
        · linarith
        · exact absurd h.symm hne
      have : 0 < Real.sin (2 * sr * φ - n * Real.pi) := Real.sin_pos_of_pos_of_lt_pi hpos (by linarith)
      rw [Real.sin_sub_nat_mul_pi, hz] at this
      simp at this
    · intro he
      have hnp : n = p := by
        rw [he] at tl tu
        have l : (n : ℝ) ≤ p := le_of_mul_le_mul_right tl Real.pi_pos
        have r : (p : ℝ) < n + 1 := lt_of_mul_lt_mul_right tu Real.pi_pos.le
        have l : n ≤ p := by exact_mod_cast l
        have r : p < n + 1 := by exact_mod_cast r
        omega
      refine ⟨hnp, ?_⟩
      rw [he, Real.sin_nat_mul_pi, mul_zero] at th
      have : (a : ℝ) = 0 := (mul_eq_zero.mp th).resolve_right (by positivity)
      exact_mod_cast this
  constructor
  · unfold Sine.lessThan
    rw [decide_eq_true_eq, ← hn, ← hp, hless, hlt']
  · unfold Sine.atMost Sine.lessThan
    rw [Bool.or_eq_true, decide_eq_true_eq, decide_eq_true_eq, ← hn, ← hp, ← ha, hless, hequal, ← hlt', ← heq, le_iff_lt_or_eq]

end Sys2Proof.Machine
end

