-- ==== Sys2Proof/Laws/PerInstr.lean ====
section
/-! SUPPORT. Statements about every command as syntax, one lemma per constructor. `EncodedFields`: a well-formed command's
word holds its opcode in bits 31:28 and its operand, zero-extended, in bits 27:0 (R80, R81, R82). -/
namespace Sys2Proof.Laws

/-- A word with opcode `op` and argument `a` holds exactly those fields. -/
theorem fields_of_word {op a : Nat} (ho : op < 2 ^ 4) (ha : a < 2 ^ 28) :
    (BitVec.ofNat 32 (op * 2 ^ 28 + a)).toNat / 2 ^ 28 = op ∧ (BitVec.ofNat 32 (op * 2 ^ 28 + a)).toNat % 2 ^ 28 = a := by
  rw [BitVec.toNat_ofNat, Nat.mod_eq_of_lt (by omega)]
  omega

/-- What a well-formed command's word holds. -/
def EncodedFields.Statement (i : Instr) : Prop :=
  i.wf = true → (encode i).toNat / 2 ^ 28 = opcode i ∧ (encode i).toNat % 2 ^ 28 = argument i

theorem EncodedFields.nop : EncodedFields.Statement .nop := fun _ => fields_of_word (by decide) (by decide)

theorem EncodedFields.byte (v : Nat) : EncodedFields.Statement (.byte v) := fun h =>
  fields_of_word (op := 1) (by decide) ((of_decide_eq_true h).trans (by decide))

theorem EncodedFields.bit (b : Nat) : EncodedFields.Statement (.bit b) := fun h =>
  fields_of_word (op := 2) (by decide) ((of_decide_eq_true h).trans (by decide))

theorem EncodedFields.toneS (d : Nat) : EncodedFields.Statement (.toneS d) := fun h =>
  fields_of_word (op := 3) (by decide) (of_decide_eq_true h)

theorem EncodedFields.toneM (d : Nat) : EncodedFields.Statement (.toneM d) := fun h =>
  fields_of_word (op := 4) (by decide) (of_decide_eq_true h)

theorem EncodedFields.silence (d : Nat) : EncodedFields.Statement (.silence d) := fun h =>
  fields_of_word (op := 5) (by decide) (of_decide_eq_true h)

theorem EncodedFields.endRun : EncodedFields.Statement .endRun := fun _ => fields_of_word (by decide) (by decide)

end Sys2Proof.Laws
end

