-- ==== Sys2Proof/Laws/Quantizer.lean ====
section
/-! SUPPORT. The quantizer over the real numbers (R12, R150, R151): the rounding, its monotonicity, and the width of the
enclosure of the sine. -/
namespace Sys2Proof.Machine
open Sys2Proof.Safety

/-- `rhaDiv` is round half away from zero of the quotient (R12). -/
theorem rhaDiv_eq (num : ℤ) (den : ℕ) (hd : 0 < den) : rhaDiv num den = roundHalfAway ((num:ℝ)/den) := by
  have hdr : (0:ℝ) < den := by exact_mod_cast hd
  have key : ∀ n : ℕ, (((2*n+den)/(2*den) : ℕ) : ℤ) = ⌊(n:ℝ)/den + 1/2⌋ := by
    intro n
    rw [← Int.natCast_floor_eq_floor (by positivity)]
    congr 1
    have : (n:ℝ)/den + 1/2 = ((2*n+den : ℕ):ℝ)/((2*den : ℕ):ℝ) := by push_cast; field_simp
    rw [this, Nat.floor_div_eq_div]
  unfold rhaDiv roundHalfAway
  by_cases h : 0 ≤ num
  · rw [if_pos h, if_pos (by positivity), key]
    congr 2
    simp [Nat.cast_natAbs, abs_of_nonneg h]
  · have hn : (num:ℝ) < 0 := by exact_mod_cast (by omega : num < 0)
    rw [if_neg h, if_neg (by rw [not_le]; exact div_neg_of_neg_of_pos hn hdr), key]
    congr 3
    rw [Nat.cast_natAbs, abs_of_neg (by omega)]; push_cast; rw [neg_div]

/-- Rounding is monotone. -/
theorem roundHalfAway_mono {x y : ℝ} (h : x ≤ y) : roundHalfAway x ≤ roundHalfAway y := by
  unfold roundHalfAway
  split <;> split
  · exact Int.floor_le_floor (by linarith)
  · linarith
  · next h1 h2 =>
    have : 0 ≤ ⌊-x+1/2⌋ := Int.floor_nonneg.mpr (by linarith)
    have : 0 ≤ ⌊y+1/2⌋ := Int.floor_nonneg.mpr (by linarith)
    omega
  · have : ⌊-y+1/2⌋ ≤ ⌊-x+1/2⌋ := Int.floor_le_floor (by linarith)
    omega

/-- Rounding moves a value by at most one half. -/
theorem roundHalfAway_near (x : ℝ) : (roundHalfAway x : ℝ) - 1/2 ≤ x ∧ x ≤ roundHalfAway x + 1/2 := by
  unfold roundHalfAway
  split
  · have a := Int.floor_le (x+1/2)
    have b := Int.lt_floor_add_one (x+1/2)
    constructor <;> linarith
  · have a := Int.floor_le (-x+1/2)
    have b := Int.lt_floor_add_one (-x+1/2)
    push_cast
    constructor <;> linarith

/-- The machine's quantizer is the exact formula at the amplitude `num / den` (R150, R151). -/
theorem quantize_eq (c : RunConfig) (num : ℤ) (den : ℕ) (hd : 0 < den) :
    c.quantize num den = exactQuantize c ((num:ℝ)/den) := by
  have hdr : (den:ℝ) ≠ 0 := by positivity
  unfold RunConfig.quantize exactQuantize scaled quantize8 quantize16
  split
  · rw [rhaDiv_eq _ _ hd]; congr 1; push_cast; field_simp
  · rw [rhaDiv_eq _ _ hd]; congr 1; push_cast; field_simp

/-- Both quantizers reverse the order of amplitudes (R156). -/
theorem exactQuantize_anti (c : RunConfig) {x y : ℝ} (h : x ≤ y) : exactQuantize c y ≤ exactQuantize c x := by
  unfold exactQuantize scaled
  split <;> exact roundHalfAway_mono (by linarith)

/-- A rounded-up quotient is at most one above the rounded-down one. -/
theorem ceilDiv_le_succ (a b : ℕ) (hb : 0 < b) : ceilDiv a b ≤ a / b + 1 := by
  unfold ceilDiv
  have := Nat.div_le_div_right (c := b) (show a + b - 1 ≤ a + b by omega)
  rw [Nat.add_div_right _ hb] at this; omega

/-- The upper bound of a tail is at most 1. -/
theorem Sine.tail_le_one (ylo yhi n k : ℕ) : (Sine.tail ylo yhi n k).2 ≤ Sine.one := by
  cases n <;> simp [Sine.tail]

/-- A bound of the width of `Sine.tail`, in units of `2^-192`. -/
def Sine.tailWidth : Nat → Nat → Nat
  | 0, _ => Sine.one
  | n+1, k => 3 * Sine.tailWidth n (k+1) / (2*k*(2*k+1)) + 6

/-- The two bounds of a tail are close. -/
theorem Sine.tail_width {ylo yhi : ℕ} (hd : yhi ≤ ylo + 16) (h3 : yhi ≤ 3 * Sine.one) :
   ∀ n k, 1 ≤ k → (Sine.tail ylo yhi n k).2 ≤ (Sine.tail ylo yhi n k).1 + Sine.tailWidth n k := by
  intro n
  induction n with
  | zero => intro k _; simp [Sine.tail, Sine.tailWidth]
  | succ n ih =>
    intro k hk
    have ih := ih (k+1) (by omega)
    have hle := Sine.tail_le_one ylo yhi n (k+1)
    simp only [Sine.tail, Sine.tailWidth]
    set lo := (Sine.tail ylo yhi n (k+1)).1
    set hi := (Sine.tail ylo yhi n (k+1)).2
    set w := Sine.tailWidth n (k+1)
    set q := 2*k*(2*k+1) with hq
    have hq6 : 6 ≤ q := by
      rw [hq]; nlinarith
    have hone : 0 < Sine.one := by unfold Sine.one; positivity
    have hc := ceilDiv_le_succ (yhi*hi) (q*Sine.one) (by positivity)
    -- yhi*hi ≤ ylo*lo + 8*one + 3*one*w
    have e : yhi*hi ≤ ylo*lo + (16 + 3*w)*Sine.one := by
      calc yhi*hi ≤ yhi*(lo+w) := Nat.mul_le_mul_left _ ih
        _ = yhi*lo + yhi*w := by ring
        _ ≤ (ylo+16)*lo + (3*Sine.one)*w := by gcongr
        _ = ylo*lo + 16*lo + 3*Sine.one*w := by ring
        _ ≤ ylo*lo + 16*Sine.one + 3*Sine.one*w := by
          have : lo ≤ Sine.one := by
            show (Sine.tail ylo yhi n (k+1)).1 ≤ _
            cases n <;> simp [Sine.tail]
          gcongr
        _ = _ := by ring
    have e2 : yhi*hi/(q*Sine.one) ≤ ylo*lo/(q*Sine.one) + ((16+3*w)/q + 1) := by
      have h1 := Nat.div_le_div_right (c := q*Sine.one) e
      have h2 : (ylo*lo + (16+3*w)*Sine.one)/(q*Sine.one) ≤ ylo*lo/(q*Sine.one) + (16+3*w)*Sine.one/(q*Sine.one) + 1 := by
        have := Nat.add_div (a := ylo*lo) (b := (16+3*w)*Sine.one) (c := q*Sine.one) (by positivity)
        rw [this]; split <;> omega
      rw [Nat.mul_div_mul_right _ _ hone] at h2
      omega
    have e3 : (16+3*w)/q ≤ 3*w/q + 3 := by
      have := Nat.add_div (a := 16) (b := 3*w) (c := q) (by omega)
      have h8 : 16/q ≤ 2 := by
        rw [Nat.div_le_iff_le_mul_add_pred (by omega)]; omega
      rw [this]; split <;> omega
    generalize ceilDiv (yhi*hi) (q*Sine.one) = A at *
    generalize (16+3*w)/q = B at *
    generalize 3*w/q = C at *
    generalize ylo*lo/(q*Sine.one) = D at *
    generalize yhi*hi/(q*Sine.one) = E at *
    omega

/-- The width that the 28 terms of `Sine.quarter` leave. -/
theorem Sine.tailWidth_28 : Sine.tailWidth 28 1 ≤ 24 := by decide +kernel

/-- The two bounds of a quarter turn are close. -/
theorem Sine.quarter_width (num den : ℕ) (hd : 0 < den) (h : 2*num ≤ den) :
    (Sine.quarter num den).2 ≤ (Sine.quarter num den).1 + 100 := by
  unfold Sine.quarter
  split
  · simp
  simp only
  set xlo := Sine.piFloor * num / den with hxlo
  set xhi := ceilDiv ((Sine.piFloor+1)*num) den with hxhi
  have hone : 0 < Sine.one := by unfold Sine.one; positivity
  have hx : xhi ≤ xlo + 3 := by
    have h1 := ceilDiv_le_succ ((Sine.piFloor+1)*num) den hd
    have h2 : (Sine.piFloor+1)*num ≤ Sine.piFloor*num + den := by
      have : num ≤ den := by omega
      linarith
    have h3 := Nat.div_le_div_right (c := den) h2
    rw [Nat.add_div_right _ hd] at h3
    omega
  have hxlo2 : 2*xlo ≤ Sine.piFloor := by
    have h1 : xlo * den ≤ Sine.piFloor*num := Nat.div_mul_le_self _ _
    have h2 : xlo*2*den ≤ Sine.piFloor*den := by
      have : Sine.piFloor*(2*num) ≤ Sine.piFloor*den := Nat.mul_le_mul_left _ h
      linarith
    have := Nat.le_of_mul_le_mul_right h2 hd
    omega
  have hpi : 2*Sine.piFloor ≤ 7*Sine.one := by unfold Sine.piFloor Sine.one; norm_num
  have hpi1 : 10*Sine.piFloor ≤ 32*Sine.one := by unfold Sine.piFloor Sine.one; norm_num
  have h100 : 100 ≤ Sine.one := by unfold Sine.one; norm_num
  have hxl : 10*xlo ≤ 16*Sine.one := by omega
  have hsq : xhi*xhi ≤ xlo*xlo + 10*Sine.one := by
    calc xhi*xhi ≤ (xlo+3)*(xlo+3) := Nat.mul_le_mul hx hx
      _ = xlo*xlo + 6*xlo + 9 := by ring
      _ ≤ _ := by omega
  have hy : ceilDiv (xhi*xhi) Sine.one ≤ xlo*xlo/Sine.one + 16 := by
    have h1 := ceilDiv_le_succ (xhi*xhi) Sine.one hone
    have h2 := Nat.div_le_div_right (c := Sine.one) hsq
    rw [Nat.add_mul_div_right _ _ hone] at h2
    omega
  have hy3 : ceilDiv (xhi*xhi) Sine.one ≤ 3*Sine.one := by
    have h1 : xlo*xlo/Sine.one*100 ≤ 256*Sine.one := by
      have h2 : xlo*xlo*100 ≤ 256*Sine.one*Sine.one := by nlinarith
      have h3 := Nat.div_mul_le_self (xlo*xlo) Sine.one
      have : xlo*xlo/Sine.one*100*Sine.one ≤ 256*Sine.one*Sine.one := by nlinarith
      exact Nat.le_of_mul_le_mul_right this hone
    omega
  have ht := Sine.tail_width (ylo := xlo*xlo/Sine.one) (yhi := ceilDiv (xhi*xhi) Sine.one) hy hy3 28 1 le_rfl
  have h24 := Sine.tailWidth_28
  have hle := Sine.tail_le_one (xlo*xlo/Sine.one) (ceilDiv (xhi*xhi) Sine.one) 28 1
  set tl := Sine.tail (xlo*xlo/Sine.one) (ceilDiv (xhi*xhi) Sine.one) 28 1
  refine (min_le_right _ _).trans ?_
  have h1 := ceilDiv_le_succ (xhi*tl.2) Sine.one hone
  have h2 : xhi*tl.2 ≤ xlo*tl.1 + 60*Sine.one := by
    calc xhi*tl.2 ≤ (xlo+3)*tl.2 := Nat.mul_le_mul_right _ hx
      _ = xlo*tl.2 + 3*tl.2 := by ring
      _ ≤ xlo*(tl.1+24) + 3*Sine.one := by gcongr; omega
      _ = xlo*tl.1 + (24*xlo + 3*Sine.one) := by ring
      _ ≤ _ := by omega
  have h3 := Nat.div_le_div_right (c := Sine.one) h2
  rw [Nat.add_mul_div_right _ _ hone] at h3
  omega

/-- The enclosure of a sine is at most `100 × 2^-192` wide. -/
theorem Sine.enclosure_width {P sr : ℕ} (h : P < sr) : (Sine.enclosure P sr).2 ≤ (Sine.enclosure P sr).1 + 100 := by
  unfold Sine.enclosure Sine.half
  split
  · have := Sine.quarter_width (if sr < 2*(2*P-sr) then sr-(2*P-sr) else 2*P-sr) sr (by omega) (by split <;> omega)
    simp only; omega
  · have := Sine.quarter_width (if sr < 2*(2*P) then sr-2*P else 2*P) sr (by omega) (by split <;> omega)
    simp only; omega

/-! ### The exact code (R152) -/

/-- The exact code lies between the codes of the two ends of the enclosure. -/
theorem exactSineCode_between (c : RunConfig) {P : ℕ} (h : P < c.sr) :
    c.quantize (Sine.enclosure P c.sr).2 Sine.one ≤ exactSineCode c P ∧
      exactSineCode c P ≤ c.quantize (Sine.enclosure P c.sr).1 Sine.one := by
  have h1 := Sine.one_pos
  have hone : 0 < Sine.one := by exact_mod_cast h1
  obtain ⟨a, b⟩ := Sine.enclosure_sound h
  rw [quantize_eq _ _ _ hone, quantize_eq _ _ _ hone]
  unfold exactSineCode
  constructor
  · apply exactQuantize_anti; rw [le_div_iff₀ h1]; exact b
  · apply exactQuantize_anti; rw [div_le_iff₀ h1]; exact a

/-- All that `sineCode` can answer: the code of one end of the enclosure, as `roundsUp` decides where they differ. -/
theorem sineCode_cases (c : RunConfig) (P : ℕ) :
    (c.quantize (Sine.enclosure P c.sr).2 Sine.one = c.quantize (Sine.enclosure P c.sr).1 Sine.one ∧
      c.sineCode P = c.quantize (Sine.enclosure P c.sr).2 Sine.one) ∨
    (c.roundsUp P (c.quantize (Sine.enclosure P c.sr).2 Sine.one) = true ∧
      c.sineCode P = c.quantize (Sine.enclosure P c.sr).1 Sine.one) ∨
    (c.roundsUp P (c.quantize (Sine.enclosure P c.sr).2 Sine.one) = false ∧
      c.sineCode P = c.quantize (Sine.enclosure P c.sr).2 Sine.one) := by
  unfold RunConfig.sineCode
  simp only
  split
  · next h => exact .inl ⟨h, rfl⟩
  · split
    · next h => exact .inr (.inl ⟨h, rfl⟩)
    · next h => exact .inr (.inr ⟨by simpa using h, rfl⟩)

/-- A number rounds above `k` exactly where it lies beyond `k + 1/2`, or on it with `k ≥ 0` (R12). -/
theorem roundHalfAway_gt_iff (x : ℝ) (k : ℤ) :
    k < roundHalfAway x ↔ if 0 ≤ k then (k : ℝ) + 1 / 2 ≤ x else (k : ℝ) + 1 / 2 < x := by
  unfold roundHalfAway
  split
  · next hx =>
    split
    · rw [← Int.add_one_le_iff, Int.le_floor]; push_cast; constructor <;> intro h <;> linarith
    · next hk =>
      have hk' : (k : ℝ) ≤ -1 := by exact_mod_cast (by omega : k ≤ -1)
      have : 0 ≤ ⌊x + 1 / 2⌋ := Int.floor_nonneg.mpr (by linarith)
      constructor <;> intro _
      · linarith
      · omega
  · next hx =>
    rw [not_le] at hx
    split
    · next hk =>
      have hk' : (0 : ℝ) ≤ k := by exact_mod_cast hk
      have : 0 ≤ ⌊-x + 1 / 2⌋ := Int.floor_nonneg.mpr (by linarith)
      constructor <;> intro h
      · omega
      · linarith
    · rw [lt_neg, Int.floor_lt]; push_cast; constructor <;> intro h <;> linarith

/-- `roundsUp` says that the exact code lies above `code`, for every code whose tie lies at an amplitude inside the unit. -/
theorem roundsUp_iff (c : RunConfig) {P : ℕ} (h : P < c.sr) {code : ℤ}
    (hc : |(c.tieAmplitude code).1| < (c.tieAmplitude code).2) :
    c.roundsUp P code = true ↔ code < exactSineCode c P := by
  obtain ⟨hl, hm⟩ := Sine.compare_spec h hc
  have e1 : sinPhase P c.sr < (c.tieAmplitude code).1 / (c.tieAmplitude code).2 ↔
      (code : ℝ) + 1 / 2 < scaled c (sinPhase P c.sr) := by
    unfold scaled RunConfig.tieAmplitude
    split <;> rw [lt_div_iff₀ (by norm_num)] <;> push_cast <;> constructor <;> intro h <;> linarith
  have e2 : sinPhase P c.sr ≤ (c.tieAmplitude code).1 / (c.tieAmplitude code).2 ↔
      (code : ℝ) + 1 / 2 ≤ scaled c (sinPhase P c.sr) := by
    unfold scaled RunConfig.tieAmplitude
    split <;> rw [le_div_iff₀ (by norm_num)] <;> push_cast <;> constructor <;> intro h <;> linarith
  unfold exactSineCode exactQuantize
  rw [roundHalfAway_gt_iff, ← e1, ← e2]
  unfold RunConfig.roundsUp
  split
  · exact hm
  · exact hl

/-! ### The block's `SINE_Q` (R9, R16) -/

/-- All that the block's `SINE_Q` can answer: the exact code, or a code its table lists for this configuration and phase. -/
theorem sineQ_cases (b : Build) (c : RunConfig) (P : Nat) :
    b.sineQ c P = c.sineCode P ∨
      ∃ e ∈ b.sineTable, e.qbits = c.qbits.toNat ∧ e.sr = c.sr ∧ e.P = P ∧ b.sineQ c P = e.code := by
  cases h : b.sineTable.find? fun e => decide (e.qbits = c.qbits.toNat ∧ e.sr = c.sr ∧ e.P = P) with
  | none => exact .inl (by simp only [Build.sineQ, h])
  | some e =>
    have hp := List.find?_some h
    simp only [decide_eq_true_eq] at hp
    obtain ⟨h1, h2, h3⟩ := hp
    exact .inr ⟨e, List.mem_of_find?_eq_some h, h1, h2, h3, by simp only [Build.sineQ, h]⟩

/-- Without a table the exact function stands. -/
theorem sineQ_of_empty {b : Build} (h : b.sineTable = []) (c : RunConfig) (P : Nat) : b.sineQ c P = c.sineCode P := by
  simp [Build.sineQ, h]

end Sys2Proof.Machine
end

