-- ==== Sys2Proof/Machine/Assembler.lean ====
section
/-! DEFINITION. The assembler's lines (30_encoding.md R86): one command per line, `;` starts a comment. Part of the host's
tools; the block sees only the words. -/
namespace Sys2Proof.Machine

/-- The value of a digit, below 16 (R86). -/
def digitValue (ch : Char) : Option Nat :=
  let n := ch.toNat
  if 48 ≤ n ∧ n ≤ 57 then some (n - 48)
  else if 65 ≤ n ∧ n ≤ 70 then some (n - 55)
  else if 97 ≤ n ∧ n ≤ 102 then some (n - 87)
  else none

/-- The number the digits of `base` spell, after the part read so far; `none` for no digit at all or another character. -/
def readDigits (base : Nat) (sofar : Option Nat) : List Char → Option Nat
  | [] => sofar
  | ch :: rest =>
    match digitValue ch with
    | none => none
    | some v => if v < base then readDigits base (some (sofar.getD 0 * base + v)) rest else none

/-- A decimal operand (R86). -/
def readDecimal (cs : List Char) : Option Nat := readDigits 10 none cs

/-- A decimal or `0x` hexadecimal operand, the form BYTE takes (R86). -/
def readNumber : List Char → Option Nat
  | '0' :: 'x' :: rest => readDigits 16 none rest
  | cs => readDecimal cs

/-- The line without its comment (R86). -/
def dropComment (line : List Char) : List Char := line.takeWhile (fun ch => decide (ch ≠ ';'))

/-- The words of a line: its maximal runs of characters that are no blank (log entry 16). -/
def lineWords : List Char → List Char → List (List Char)
  | [], [] => []
  | [], w => [w.reverse]
  | ch :: rest, w =>
    if ch = ' ' ∨ ch = '\t' then (if w = [] then lineWords rest [] else w.reverse :: lineWords rest [])
    else lineWords rest (ch :: w)

/-- The command of a mnemonic and its operand (R86). -/
def readCommand (mnemonic : List Char) (operand : List (List Char)) : Option Instr :=
  match operand with
  | [] => if mnemonic = "NOP".toList then some .nop else if mnemonic = "END".toList then some .endRun else none
  | [v] =>
    if mnemonic = "BYTE".toList then (readNumber v).map .byte
    else if mnemonic = "BIT".toList then (readDecimal v).map .bit
    else if mnemonic = "TONE.S".toList then (readDecimal v).map .toneS
    else if mnemonic = "TONE.M".toList then (readDecimal v).map .toneM
    else if mnemonic = "SILENCE".toList then (readDecimal v).map .silence
    else none
  | _ :: _ :: _ => none

/-- What one line assembles to (R86): an error (`none`), nothing (a blank or comment line), or one word. An operand out of
range is an error. -/
def assembleLine (line : List Char) : Option (Option Word) :=
  match lineWords (dropComment line) [] with
  | [] => some none
  | mnemonic :: operand => ((readCommand mnemonic operand).bind assemble).map some

end Sys2Proof.Machine
end

