-- ==== Sys2Proof/Tests/Slice0.lean ====
section
/-! SUPPORT. Small tests, each against a vector of spec/95_test_vectors.md or a rule, and a witness for every statement of
Certificates/Slice0/Obligations.lean that has hypotheses: concrete data that meet all of them together. -/
namespace Sys2Proof.Tests
open Sys2Proof.Machine Sys2Proof.Safety

/-! ### Helpers -/

/-- Whether a result is a next state that passes a check. -/
def answers (r : Result) (p : State → Bool) : Bool :=
  match r with
  | .next t => p t
  | .fault _ => false
  | .refused _ => false

theorem next_of_answers {r : Result} {p : State → Bool} (h : answers r p = true) : ∃ t, r = .next t ∧ p t = true := by
  cases r with
  | next t => exact ⟨t, rfl, h⟩
  | fault f => cases h
  | refused e => cases h

/-- A configuration from its numbers `(sr, baud, fL, qb, ch, S)`, as spec/95_test_vectors.md writes them. -/
def config (sr baud fL : Word) (qb ch stops : Byte) : RunConfig :=
  { sampleRate := sr, baud := baud, carrier := fL, qbits := qb, channels := ch, stopBits := stops }

/-- Config (9600, 1200, 1200, 8, 1, 1). -/
def mono8 : RunConfig := config 9600 1200 1200 8 1 1

/-- The configuration of V1. -/
def scenario : RunConfig := config 11025 600 1200 8 1 3

/-- Just after a START, with the given FIFO. -/
def running (c : RunConfig) (q : List Word) : State := { State.reset with state := .run, cfg := c, queue := q }

/-- In a run, with the given micro-state and the current word that belongs to it. -/
def working (c : RunConfig) (m : MicroState) (cw : Word) : State := { running c [] with ms := m, cw := cw }

/-- After a recorded fault. -/
def failed : State := { State.reset with state := .error, errCode := .cfgMultiple }

/-- After END. -/
def ended : State := { State.reset with state := .done, cfg := mono8 }

/-- A run with sixteen words queued. -/
def crowded : State := running mono8 (List.replicate 16 0)

/-- A run with sixteen NOPs queued and a push held. -/
def holding : State := { crowded with heldPush := some 0x60000000 }

/-- A host with the given program, the block in the given run state. -/
def hosting (st : RunState) (prog : List HostOp) : State := { running mono8 [] with state := st, hostProg := prog }

/-! ### Well-formedness (R86) -/

theorem test_wf_refuses_byte_256 : (Instr.byte 256).wf = false := by decide
theorem test_wf_refuses_bit_2 : (Instr.bit 2).wf = false := by decide
theorem test_wf_refuses_toneS_overlong : (Instr.toneS (2 ^ 28)).wf = false := by decide
theorem test_wf_refuses_toneM_overlong : (Instr.toneM (2 ^ 28)).wf = false := by decide
theorem test_wf_refuses_silence_overlong : (Instr.silence (2 ^ 28)).wf = false := by decide
theorem test_wf_accepts_the_bounds : (Instr.nop).wf ∧ (Instr.byte 255).wf ∧ (Instr.bit 1).wf ∧ (Instr.toneS (2 ^ 28 - 1)).wf ∧
    (Instr.toneM 0).wf ∧ (Instr.silence (2 ^ 28 - 1)).wf ∧ (Instr.endRun).wf := by decide

/-! ### Encoding: words written out bit by bit, opcode nibble first (R80, R81, R89) -/

theorem test_decode_nop : decode 0b0000_0000000000000000000000000000#32 = .ok .nop := by decide
theorem test_decode_byte : decode 0b0001_00000000000000000000_10100101#32 = .ok (.byte 0xA5) := by decide
theorem test_decode_bit : decode 0b0010_000000000000000000000000000_1#32 = .ok (.bit 1) := by decide
theorem test_decode_toneS : decode 0b0011_0000000000000000001111101000#32 = .ok (.toneS 1000) := by decide
theorem test_decode_toneM : decode 0b0100_0000000000000000011111010000#32 = .ok (.toneM 2000) := by decide
theorem test_decode_silence : decode 0b0101_1000000000000000000000000001#32 = .ok (.silence (2 ^ 27 + 1)) := by decide
theorem test_decode_end : decode 0b0110_0000000000000000000000000000#32 = .ok .endRun := by decide
theorem test_decode_reserved_opcode : decode 0b0111_0000000000000000000000000000#32 = .error .reservedOpcode := by decide
theorem test_decode_reserved_bit_of_end : decode 0b0110_0000000000000000000000010000#32 = .error .reservedBit := by decide
theorem test_encode_byte : encode (.byte 0xA5) = 0x100000A5 := by decide
theorem test_assemble_line_byte : assembleLine "BYTE 0xA5 ; a data byte".toList = some (some 0x100000A5) := by decide
theorem test_assemble_line_silence : assembleLine "SILENCE 268435456".toList = none := by decide

/-! ### The host's program (R87, R232) -/

theorem test_data_without_count_is_unbounded : (Directive.data 0).expand [1, 2, 3] = ([.byte 1, .byte 2, .byte 3], []) := by decide
theorem test_data_counts : (Directive.data 2).expand [1, 2, 3] = ([.byte 1, .byte 2], [3]) := by decide
theorem test_encode_program : encodeProgram (configWrites 9600 1200 1200 0x010108) [.byte 0xA5, .endRun] = some
    [.once (.write 4 0x10 9600), .once (.write 4 0x14 1200), .once (.write 4 0x18 1200), .once (.write 4 0x1C 0x010108),
      .once (.write 4 0x00 1), .stopOnError [.read 4 0x08], .once (.write 4 0x20 0x100000A5),
      .once (.write 4 0x20 0x60000000), .awaitEnd [], .once (.read 4 0x24)] := by decide
theorem test_host_stops_on_error : answers (hostTurn (hosting .error [.stopOnError [.read 4 0x08], .once (.write 4 0x20 0)]))
    (fun t => decide (t.hostProg = [.once (.read 4 0x08)])) = true := by decide
theorem test_host_polls_in_run : answers (hostTurn (hosting .run [.awaitEnd [], .once (.read 4 0x24)]))
    (fun t => decide (t.hostProg = [.awaitEnd [], .once (.read 4 0x24)] ∧ t.readData = 0x00000009)) = true := by decide

/-! ### The build-time parameters (R9) -/

theorem test_depth_one : (hostWrite 0x20 0 { running mono8 [0] with build := { Build.decided with cmdqDepth := 1 } }).heldPush
    = some 0 := by decide
theorem test_table_replaces_the_code : Build.toneFrame { Build.decided with sineTable := [⟨8, 9600, 1200, 39⟩] } mono8 1200
    = [39] := by decide

/-! ### Sample values: V10, V11, V15, V12 -/

theorem test_codes_8bit_space : (List.range 8).map (fun i => mono8.sineCode (1200 * i)) =
    [128, 38, 1, 38, 128, 218, 255, 218] := by decide +kernel
theorem test_codes_16bit_space : (List.range 8).map (fun i => (config 9600 1200 1200 16 1 1).sineCode (1200 * i)) =
    [0, -23170, -32767, -23170, 0, 23170, 32767, 23170] := by decide +kernel
theorem test_codes_at_ties : [1200, 6000, 8400, 13200].map (config 14400 1200 1200 16 1 1).sineCode =
    [-16384, -16384, 16384, 16384] := by decide +kernel
theorem test_codes_8bit_at_ties : [1200, 6000, 8400, 13200].map (config 14400 1200 1200 8 1 1).sineCode =
    [65, 65, 192, 192] := by decide +kernel
theorem test_codes_scenario_space : (burstBytes .decided scenario 1200 19 0).map BitVec.toNat =
    [128, 48, 4, 15, 78, 163, 232, 255, 220, 144, 61, 8, 9, 63, 147, 222, 255, 231, 160] := by decide +kernel
theorem test_codes_scenario_mark : (burstBytes .decided scenario 2400 19 0).map BitVec.toNat =
    [128, 4, 78, 232, 220, 61, 9, 147, 255, 160, 14, 50, 210, 239, 91, 2, 114, 249, 190] := by decide +kernel
theorem test_frame_16bit_stereo : (config 11025 600 1200 16 2 3).frame (-20702) = [0x22, 0xAF, 0x22, 0xAF] := by decide

/-! ### The exact comparison: `sin(π/6) = 1/2`, `sin(7π/6) = -1/2`, `sin(π/4)` and `sin(5π/7)` (0.70711 and 0.78183 by hand) -/

theorem test_compare_at_ties : (Sine.lessThan 1 12 127 254, Sine.atMost 1 12 127 254, Sine.lessThan 7 12 (-127) 254,
    Sine.atMost 7 12 (-127) 254) = (false, true, false, true) := by decide +kernel
theorem test_compare_near : (Sine.lessThan 1 8 70710 100000, Sine.lessThan 1 8 70711 100000, Sine.lessThan 5 14 78183 100000,
    Sine.atMost 5 14 78184 100000, Sine.atMost 9 14 (-78184) 100000, Sine.lessThan 9 14 (-78183) 100000) =
    (false, true, false, true, false, true) := by decide +kernel

/-! ### Sample counts: V20 -/

theorem test_kdur : [0, 1, 104, 105, 1250, 1251, 268435455].map (Build.decided.kdur mono8) = [0, 1, 1, 2, 12, 13, 2576981] := by decide
theorem test_kbit : scenario.kbit = 19 ∧ mono8.kbit = 8 ∧ (config 44100 1200 1200 8 1 1).kbit = 37 := by decide

/-! ### One step of each command: V17 to V31, V50 -/

theorem test_nop : answers (engineStep { running mono8 [0x00000000] with clock := 24000 }) (fun t =>
    decide (t.clock = 24000 ∧ t.ms = .ready ∧ t.queue = [] ∧ t.stream = [])) = true := by decide
theorem test_nop_reserved_bit : answers (engineStep (running mono8 [0x00000001])) (fun t =>
    decide (t.errCode = .cmdIllegal ∧ t.errInfo = 0x00000001 ∧ t.state = .error)) = true := by decide
theorem test_byte : answers (engineStep (running mono8 [0x100000A5])) (fun t =>
    decide (t.ms = .atBegin 1200 8 (.byte 0xA5 0))) = true := by decide
theorem test_byte_reserved_bit : answers (engineStep (running mono8 [0x100001A5, 0])) (fun t =>
    decide (t.errCode = .cmdIllegal ∧ t.errInfo = 0x100001A5 ∧ t.queue = [])) = true := by decide
theorem test_bit_mark : answers (engineStep (running mono8 [0x20000001])) (fun t =>
    decide (t.ms = .atBegin 2400 8 .single)) = true := by decide
theorem test_bit_reserved_bit : answers (engineStep (running mono8 [0x20000002])) (fun t =>
    decide (t.errCode = .cmdIllegal ∧ t.errInfo = 0x20000002)) = true := by decide
theorem test_toneS : answers (engineStep (running mono8 [0x300003E8])) (fun t =>
    decide (t.ms = .atBegin 1200 10 .single)) = true := by decide
theorem test_toneS_zero_snaps : answers (engineStep { working mono8 (.atBegin 1200 0 .single) 0x30000000 with clock := 24000 })
    (fun t => decide (t.clock = 19200 ∧ t.ms = .ready ∧ t.bytesWritten = 0)) = true := by decide
theorem test_toneM : answers (engineStep (running mono8 [0x400003E8])) (fun t =>
    decide (t.ms = .atBegin 2400 10 .single)) = true := by decide
theorem test_toneM_frame : answers (engineStep (working mono8 (.burst 2400 9 2400 .single) 0x400003E8)) (fun t =>
    decide (t.stream = [1] ∧ t.ms = .burst 2400 8 4800 .single ∧ t.clock = 1200)) = true := by decide +kernel
theorem test_silence : answers (engineStep (running mono8 [0x500003E8])) (fun t =>
    decide (t.ms = .silence 10)) = true := by decide
theorem test_silence_zero : answers (engineStep (running mono8 [0x50000000])) (fun t =>
    decide (t.ms = .ready ∧ t.stream = [])) = true := by decide
theorem test_end : answers (engineStep (running mono8 [0x60000000])) (fun t =>
    decide (t.state = .done ∧ t.bytesWritten = 0 ∧ t.queue = [])) = true := by decide
theorem test_end_with_words_behind : answers (engineStep (running mono8 [0x60000000, 0x300003E8])) (fun t =>
    decide (t.errCode = .cmdNotRunning ∧ t.errInfo = 0x300003E8 ∧ t.queue = [] ∧ t.stream = [])) = true := by decide

/-! ### The engine's other steps: V1, V19, V27, V60 to V62 -/

theorem test_snap : answers (engineStep { working scenario (.atBegin 2400 19 (.byte 0xA5 1)) 0x100000A5 with clock := 22800 })
    (fun t => decide (t.clock = 22050 ∧ t.ms = .burst 2400 19 0 (.byte 0xA5 1))) = true := by decide
theorem test_next_slot : nextSlot 0xA5 0 (running scenario []) =
    { running scenario [] with ms := .atBegin 2400 19 (.byte 0xA5 1) } := by decide
theorem test_last_slot : nextSlot 0xA5 11 (running scenario []) = running scenario [] := by decide
theorem test_silence_frame_does_not_snap :
    answers (engineStep { working mono8 (.silence 1) 0x5000007D with clock := 13200 }) (fun t =>
      decide (t.clock = 14400 ∧ t.stream = [0x80] ∧ t.ms = .ready)) = true := by decide
theorem test_count_overflow : answers (engineStep
    { working (config 9600 1200 1200 16 2 1) (.burst 2400 5 0 .single) 0x400007D0 with
      bytesWritten := 0xFFFFFFFC, sinkAccepts := false }) (fun t =>
      decide (t.errCode = .countOverflow ∧ t.errInfo = 0x400007D0 ∧ t.bytesWritten = 0xFFFFFFFC ∧ t.stream = [])) = true := by
  decide
theorem test_clock_overflow : answers (engineStep
    { working mono8 (.silence 3) 0x500003E8 with clock := 2 ^ 64 - 1200 }) (fun t =>
      decide (t.errCode = .clockOverflow ∧ t.errInfo = 0x500003E8)) = true := by decide
theorem test_clock_at_its_greatest : answers (engineStep
    { working mono8 (.silence 3) 0x500003E8 with clock := 2 ^ 64 - 1201 }) (fun t =>
      decide (t.clock = 2 ^ 64 - 1 ∧ t.ms = .silence 2)) = true := by decide
theorem test_both_overflows : answers (engineStep
    { working mono8 (.silence 3) 0x500003E8 with clock := 2 ^ 64 - 1, bytesWritten := 0xFFFFFFFF })
    (fun t => decide (t.errCode = .countOverflow)) = true := by decide

/-! ### The register block: V40 to V59 -/

theorem test_status_after_reset : State.reset.readValue 0x04 = 0x00000008 := by decide
theorem test_status_idle_run : (running mono8 []).readValue 0x04 = 0x00000009 := by decide
theorem test_status_busy : { running mono8 [0, 0, 0] with ms := .silence 1 }.readValue 0x04 = 0x00000305 := by decide
theorem test_status_full : { crowded with ms := .silence 1 }.readValue 0x04 = 0x00001015 := by decide
theorem test_status_in_error : failed.readValue 0x04 = 0x0000000B := by decide
theorem test_validate_order : (config 9600 0 1000 0x18 3 0).validate = .cfgBaud := by decide
theorem test_validate_exact : (config 0xFFFFFFFF 1 0x20000000 0x10 1 0).validate = .cfgRate := by decide
theorem test_validate_rate : (config 9599 1200 1200 8 1 1).validate = .cfgRate := by decide
theorem test_validate_multiple : (config 9600 300 1000 8 1 1).validate = .cfgMultiple := by decide
theorem test_start_passes : (hostWrite 0x00 1 { State.reset with cfg := mono8 }).state = .run := by decide
theorem test_clock_latch : (hostRead 0x2C { hostRead 0x28 { running mono8 [] with clock := 0x0000000100000005 } with
    clock := 0x00000001000004B5 }).readData = 0x00000001 := by decide
theorem test_format_reserved_byte : (hostWrite 0x1C 0xFF010108 State.reset).readValue 0x1C = 0x00010108 := by decide
theorem test_reset_wins : (hostWrite 0x00 3 (running mono8 [])).state = .idle := by decide
theorem test_configuration_lock : hostWrite 0x14 300 (running mono8 []) =
    { running mono8 [] with state := .error, errCode := .cfgLocked, errInfo := 0x00000014 } := by decide
theorem test_configuration_open_in_done : (hostWrite 0x14 300 ended).cfg.baud = 300 := by decide
theorem test_push_in_idle : hostWrite 0x20 0x100000A5 State.reset =
    { State.reset with state := .error, errCode := .cmdNotRunning, errInfo := 0x100000A5 } := by decide
theorem test_push_held : (hostWrite 0x20 0x60000000 crowded) = holding := by decide
theorem test_held_push_completes : answers (step { holding with schedule := [.engine] }) (fun t =>
    decide (t.heldPush = none ∧ t.queue.length = 16 ∧ t.queue.getLast? = some 0x60000000)) = true := by decide
theorem test_fetch_word_runs : answers (step (State.reset.withFetchWord 32 0x300003E8)) (fun t =>
    decide (t.cw = 0x300003E8 ∧ t.ms ≠ .ready)) = true := by decide

/-! ### Witnesses: the hypotheses of each statement, met together -/

/-- The environments of the witnesses leave the block no faults: their configurations are legal. -/
theorem witness_legal_configurations : mono8.validate = .none ∧ scenario.validate = .none ∧
    (config 8 1 1 16 2 255).validate = .none ∧ (config 9600 1200 1200 16 1 0).validate = .none ∧
    (config 9600 1200 1200 8 2 0).validate = .none ∧ (config 14400 1200 1200 16 1 1).validate = .none ∧
    (config 14400 1200 1200 8 1 1).validate = .none := by decide

/-- DecodeInvertsEncode: each command at the bounds of its operand. -/
theorem witness_DecodeInvertsEncode : (Instr.byte 0).wf ∧ (Instr.byte 255).wf ∧ (Instr.bit 0).wf ∧ (Instr.bit 1).wf ∧
    (Instr.toneS 0).wf ∧ (Instr.toneM (2 ^ 28 - 1)).wf ∧ (Instr.silence (2 ^ 28 - 1)).wf ∧ (Instr.nop).wf ∧
    (Instr.endRun).wf := by decide

/-- EncodeInvertsDecode: the greatest word of each command. -/
theorem witness_EncodeInvertsDecode : decode 0x00000000 = .ok .nop ∧ decode 0x100000FF = .ok (.byte 255) ∧
    decode 0x20000001 = .ok (.bit 1) ∧ decode 0x3FFFFFFF = .ok (.toneS 268435455) ∧
    decode 0x4FFFFFFF = .ok (.toneM 268435455) ∧ decode 0x5FFFFFFF = .ok (.silence 268435455) ∧
    decode 0x60000000 = .ok .endRun := by decide

/-- IllegalWordsRaiseCmdIllegal: the words of V50. -/
theorem witness_IllegalWordsRaiseCmdIllegal : (∃ e, decode 0x70000000 = .error e) ∧ (∃ e, decode 0xFFFFFFFF = .error e) ∧
    (∃ e, decode 0x10000100 = .error e) ∧ (∃ e, decode 0x20000002 = .error e) ∧ (∃ e, decode 0x00000001 = .error e) ∧
    ∃ e, decode 0x60000010 = .error e := ⟨⟨_, rfl⟩, ⟨_, rfl⟩, ⟨_, rfl⟩, ⟨_, rfl⟩, ⟨_, rfl⟩, _, rfl⟩

/-- OperandsAreZeroExtendedFields: each operand at both ends of its range. -/
theorem witness_OperandsAreZeroExtendedFields : decode 0x10000000 = .ok (.byte 0) ∧ decode 0x100000FF = .ok (.byte 255) ∧
    decode 0x20000000 = .ok (.bit 0) ∧ decode 0x20000001 = .ok (.bit 1) ∧ decode 0x30000000 = .ok (.toneS 0) ∧
    decode 0x4FFFFFFF = .ok (.toneM 268435455) ∧ decode 0x58000000 = .ok (.silence 134217728) := by decide

/-- HostToolsFollowTheirRules: a duration of 2/3 s is 666667 microseconds; the least count; operands at the bounds; commands
that assemble and commands that do not; and a host at each read of STATUS, in each run state and with the FIFO full. -/
theorem witness_HostToolsFollowTheirRules : 0 < 3 ∧ microseconds 2 3 = 666667 ∧ 0 < 1 ∧ assemble (.byte 255) = some 0x100000FF ∧
    assemble (.byte 256) = none ∧ assemble (.bit 2) = none ∧ assemble (.silence 268435455) = some 0x5FFFFFFF ∧
    [Instr.byte 0xA5, .endRun].mapM assemble = some [0x100000A5, 0x60000000] ∧ [Instr.byte 256, .endRun].mapM assemble = none ∧
    [RunState.idle, .run, .done, .error].all (fun st =>
      decide ((hosting st [.stopOnError [.read 4 0x08]]).heldPush = none ∧
        (hosting st [.stopOnError [.read 4 0x08]]).hostProg = .stopOnError [.read 4 0x08] :: [] ∧
        (hosting st [.awaitEnd []]).hostProg = .awaitEnd [] :: [] ∧
        (hosting st [.awaitRoom]).hostProg = .awaitRoom :: [])) = true ∧
    { crowded with hostProg := [.awaitRoom] }.queue.length = crowded.build.cmdqDepth := by decide

/-- ResetFromEveryState: SOFT_RESET alone and with START, and power-on reset. -/
theorem witness_ResetFromEveryState : (2 : Word).getLsbD 1 = true ∧ (3 : Word).getLsbD 1 = true ∧
    { failed with schedule := [.powerOn] }.schedule = .powerOn :: [] := by decide

/-- StatusFields: an empty and a full FIFO, and the deepest FIFO. -/
theorem witness_StatusFields : Build.decided.cmdqDepth ≤ 255 ∧ (running mono8 []).queue.length ≤ Build.decided.cmdqDepth ∧
    crowded.queue.length = Build.decided.cmdqDepth ∧
    { crowded with build := { Build.decided with cmdqDepth := 255 } }.build.cmdqDepth ≤ 255 := by decide

/-- ReadsReturnTheRegisters: an offset other than CLOCK_LO's, and the tally at both ends of 32 bits. -/
theorem witness_ReadsReturnTheRegisters : (0x2C : BitVec 8) ≠ 0x28 ∧
    ended.bytesWritten < 2 ^ 32 ∧ { ended with bytesWritten := 2 ^ 32 - 1 }.bytesWritten < 2 ^ 32 := by decide

/-- FormatHoldsItsFields: IDLE, DONE and ERROR are not RUN. -/
theorem witness_FormatHoldsItsFields : State.reset.state ≠ .run ∧ ended.state ≠ .run ∧ failed.state ≠ .run := by decide

/-- UnmappedAndReadOnlyOffsets: the first and the last unmapped offset. -/
theorem witness_UnmappedAndReadOnlyOffsets : 0x30 ≤ (0x30 : BitVec 8).toNat ∧ 0x30 ≤ (0xFC : BitVec 8).toNat := by decide

/-- AccessesOutsideTheInterfaceAreRefused: a narrow access, an unaligned one, and one of the interface. -/
theorem witness_AccessesOutsideTheInterfaceAreRefused :
    let s := { running mono8 [] with schedule := [.host], hostProg := [.once (.read 4 0xFC)] }
    s.schedule = .host :: [] ∧ s.heldPush = none ∧ s.hostProg = .once (.read 4 0xFC) :: [] ∧
      { s with hostProg := [.once (.write 2 0x10 0)] }.hostProg = .once (.write 2 0x10 0) :: [] ∧
      ¬(2 = 4 ∧ (0x10 : BitVec 8).toNat % 4 = 0) ∧ ¬(4 = 4 ∧ (0x12 : BitVec 8).toNat % 4 = 0) ∧
      (4 = 4 ∧ (0xFC : BitVec 8).toNat % 4 = 0) := by decide

/-- ConfigurationLock: RUN, and each state that is not RUN. -/
theorem witness_ConfigurationLock : (running mono8 []).state = .run ∧ State.reset.state ≠ .run ∧ ended.state ≠ .run ∧
    failed.state ≠ .run := by decide

/-- PushRule: the last free slot, a full FIFO, IDLE, DONE and ERROR. -/
theorem witness_PushRule :
    ((running mono8 (List.replicate 15 0)).state = .run ∧ (running mono8 (List.replicate 15 0)).queue.length < Build.decided.cmdqDepth) ∧
      (crowded.state = .run ∧ ¬crowded.queue.length < Build.decided.cmdqDepth) ∧ State.reset.state = .idle ∧
      ended.state = .done ∧ failed.state = .error := by decide

/-- HeldPushCompletes: the engine pops a NOP; it pops an illegal word; the host's turn leaves the FIFO full. -/
theorem witness_HeldPushCompletes : holding.heldPush = some 0x60000000 ∧
    (∃ u, agentMove { holding with schedule := [.engine] } = .next u ∧
      decide (u.heldPush = some 0x60000000 ∧ u.state = .run ∧ u.queue.length < u.build.cmdqDepth) = true) ∧
    (∃ u, agentMove { holding with schedule := [.engine], queue := 0x70000000 :: List.replicate 15 0 } = .next u ∧
      decide (u.heldPush = some 0x60000000 ∧ u.state = .error) = true) ∧
    ∃ u, agentMove { holding with schedule := [.host] } = .next u ∧
      decide (u.heldPush = some 0x60000000 ∧ u.state = .run ∧ ¬u.queue.length < u.build.cmdqDepth) = true :=
  ⟨rfl, next_of_answers (by decide), next_of_answers (by decide), next_of_answers (by decide)⟩

/-- ClockReadsAsOneValue: an engine step between the two reads, and CLOCK at both ends of 64 bits. -/
theorem witness_ClockReadsAsOneValue : (∃ t, engineStep (running mono8 [0x20000001]) = .next t ∧ true = true) ∧
    (∃ t, engineStep (hostRead 0x28 (running mono8 [0x20000001])) = .next t ∧ true = true) ∧
    (running mono8 [0x20000001]).clock < 2 ^ 64 ∧ { running mono8 [0x20000001] with clock := 2 ^ 64 - 1 }.clock < 2 ^ 64 :=
  ⟨next_of_answers (by decide), next_of_answers (by decide), by decide, by decide⟩

/-- StartRule: a write of START alone; RUN and ERROR; IDLE with the reset configuration; DONE with a legal one. -/
theorem witness_StartRule : ((1 : Word).getLsbD 0 = true ∧ (1 : Word).getLsbD 1 = false) ∧ (running mono8 []).state = .run ∧ failed.state = .error ∧
    (State.reset.state = .idle ∧ State.reset.cfg.validate ≠ .none) ∧
    (ended.state = .done ∧ ended.cfg.validate = .none) := by decide

/-- ValidationReportsTheFirstFault: V40 to V46, at the boundaries `sr = 8 fL` and `fL = baud`. -/
theorem witness_ValidationReportsTheFirstFault : RunConfig.reset.validate = .cfgBaud ∧
    (config 9600 1200 1200 8 3 1).validate = .cfgChannels ∧ (config 9600 1200 1200 24 1 1).validate = .cfgQuant ∧
    (config 9600 1200 0 8 1 1).validate = .cfgCarrierZero ∧ (config 9599 1200 1200 8 1 1).validate = .cfgRate ∧
    (config 9600 300 1000 8 1 1).validate = .cfgMultiple ∧ mono8.validate = .none := by decide

/-- TonesOfALegalConfiguration, SampleCountsAreLeast, ClockMonotonicityIsConditional, BitGridDoesNotDrift, DurationBounds:
legal configurations, one at `sr = 8 fL` and one with 255 stop bits. -/
theorem witness_TonesOfALegalConfiguration : mono8.validate = .none ∧ mono8.sr = 8 * mono8.fL ∧
    (config 8 1 1 16 2 255).validate = .none := by decide
theorem witness_SampleCountsAreLeast : 1 ≤ Build.decided.durDen ∧ mono8.validate = .none := by decide
theorem witness_BitGridDoesNotDrift : scenario.validate = .none := by decide
theorem witness_DurationBounds : 1 ≤ Build.decided.durDen ∧ scenario.validate = .none := by decide

/-- ClockMonotonicityIsConditional: a burst of exactly one low-carrier cycle. -/
theorem witness_ClockMonotonicityIsConditional : mono8.validate = .none ∧ mono8.sr ≤ 8 * mono8.fL := by decide

/-- ErrorEntry: a state outside ERROR and one in it. -/
theorem witness_ErrorEntry : (running mono8 [0]).state ≠ .error ∧ failed.state = .error := by decide

/-- ErrorIsSticky: a step in ERROR, and a reset. -/
theorem witness_ErrorIsSticky : failed.state = .error ∧
    (∃ t, step { failed with hostProg := [.once (.write 4 0x20 0)] } = .next t ∧ decide (t.state = .error) = true) ∧
    ∃ t, step { failed with hostProg := [.once (.write 4 0x00 2)] } = .next t ∧ decide (t.state = .idle) = true :=
  ⟨rfl, next_of_answers (by decide), next_of_answers (by decide)⟩

/-- OnlyTheStatedTransitions: a step of each kind. -/
theorem witness_OnlyTheStatedTransitions :
    (∃ t, step { State.reset with cfg := mono8, hostProg := [.once (.write 4 0x00 1)] } = .next t ∧ decide (t.state = .run) = true) ∧
    (∃ t, step { ended with cfg := RunConfig.reset, hostProg := [.once (.write 4 0x00 1)] } = .next t ∧
      decide (t.state = .error) = true) ∧
    (∃ t, step (running mono8 [0x60000000]) = .next t ∧ decide (t.state = .done) = true) ∧
    (∃ t, step (running mono8 [0x70000000]) = .next t ∧ decide (t.state = .error) = true) ∧
    (∃ t, step { running mono8 [] with schedule := [.powerOn] } = .next t ∧ decide (t.state = .idle) = true) ∧
    ∃ t, step (running mono8 [0]) = .next t ∧ decide (t.state = .run) = true :=
  ⟨next_of_answers (by decide), next_of_answers (by decide), next_of_answers (by decide), next_of_answers (by decide),
    next_of_answers (by decide), next_of_answers (by decide)⟩

/-- ConfigurationIsConstantInARun: a locked write and a reset in RUN, and a step with another build. -/
theorem witness_ConfigurationIsConstantInARun : (running mono8 []).state = .run ∧
    (∃ t, step { running mono8 [] with hostProg := [.once (.write 4 0x14 300)] } = .next t ∧ decide (t.cfg = mono8) = true) ∧
    (∃ t, step { running mono8 [] with hostProg := [.once (.write 4 0x00 2)] } = .next t ∧ decide (t.cfg = RunConfig.reset) = true) ∧
    ∃ t, step { running mono8 [0] with build := { Build.decided with cmdqDepth := 1 }, schedule := [.powerOn] } = .next t ∧
      decide (t.build.cmdqDepth = 1) = true :=
  ⟨rfl, next_of_answers (by decide), next_of_answers (by decide), next_of_answers (by decide)⟩

/-! #### States that meet the invariant -/

/-- A run in a legal configuration between commands meets the invariant, whatever the environment has still to do. -/
theorem inv_of_fresh {c : RunConfig} (h : c.validate = .none) (sched : List Move) (prog : List HostOp) :
    Inv { running c [] with schedule := sched, hostProg := prog } :=
  ⟨(by decide : conformant Build.decided), by simp [running], by simp [running], fun _ => h, trivial, trivial,
    by simp [running, State.reset], by simp [running, State.reset], fun _ => rfl, rfl, (by decide : 0 < 2 ^ 32),
    (by decide : 0 < 2 ^ 64)⟩

/-- A run in the middle of a TONE.S meets the invariant. -/
theorem inv_of_burst : Inv (working mono8 (.burst 1200 10 0 .single) 0x300003E8) :=
  ⟨by decide, by decide, fun h => absurd rfl h, fun _ => by decide, ⟨.inl rfl, by decide, by decide, trivial⟩,
    .inr ⟨1000, .inl (by decide)⟩, fun h => absurd rfl h, by decide, fun _ => rfl, rfl, by decide, by decide⟩

/-- EveryStepKeepsTheInvariant: from a run that has just begun, and from the middle of a burst. -/
theorem witness_EveryStepKeepsTheInvariant :
    (∃ s : State, Inv s ∧ ∃ t, step s = .next t ∧ decide (t.queue = [0x60000000]) = true) ∧
    ∃ s : State, Inv s ∧ ∃ t, step s = .next t ∧ decide (t.bytesWritten = 1) = true :=
  ⟨⟨_, inv_of_fresh (c := mono8) (by decide) [] [.once (.write 4 0x20 0x60000000)], next_of_answers (by decide)⟩,
    ⟨_, inv_of_burst, next_of_answers (by decide +kernel)⟩⟩

/-- TallyCountsTheEmittedBytes: a step that emits, from a state that meets the invariant. -/
theorem witness_TallyCountsTheEmittedBytes : ∃ s : State, Inv s ∧ ∃ t, step s = .next t ∧
    decide (t.stream = [128] ∧ t.bytesWritten = 1) = true := ⟨_, inv_of_burst, next_of_answers (by decide +kernel)⟩

/-- StreamGrowsByTheOfferedFrame: a step that emits. -/
theorem witness_StreamGrowsByTheOfferedFrame : ∃ t, step (working mono8 (.silence 2) 0x500000D0) = .next t ∧
    decide (t.stream = [128]) = true := next_of_answers (by decide)

/-- ClockChangesOnlyAsStated: a begin step, a frame, a START. -/
theorem witness_ClockChangesOnlyAsStated :
    (∃ t, step { working mono8 (.atBegin 1200 0 .single) 0x30000000 with clock := 24000 } = .next t ∧
      decide (t.clock = 19200) = true) ∧
    (∃ t, step (working mono8 (.silence 2) 0x500000D0) = .next t ∧ decide (t.clock = 1200) = true) ∧
    ∃ t, step { ended with clock := 12000, hostProg := [.once (.write 4 0x00 1)] } = .next t ∧ decide (t.clock = 0) = true :=
  ⟨next_of_answers (by decide), next_of_answers (by decide), next_of_answers (by decide)⟩

/-- WholeOutputIsConserved: a frame of a burst, and the END of a run. -/
theorem witness_WholeOutputIsConserved :
    (∃ s : State, Inv s ∧ s.state = .run ∧ ∃ t, step s = .next t ∧ decide (t.state = .run ∧ t.bytesWritten = 1) = true) ∧
    ∃ s : State, Inv s ∧ s.state = .run ∧ ∃ t, step s = .next t ∧ decide (t.queue = [0x60000000] ∧ t.state = .run) = true :=
  ⟨⟨_, inv_of_burst, rfl, next_of_answers (by decide +kernel)⟩,
    ⟨_, inv_of_fresh (c := mono8) (by decide) [] [.once (.write 4 0x20 0x60000000)], rfl, next_of_answers (by decide)⟩⟩

/-- A run of one frame with the given interleaving and what the host does before, between and after its two pushes. -/
def oneFrameRun (sched : List Move) (first between after : List HostOp) : State :=
  { running mono8 [] with
    schedule := sched
    hostProg := first ++ [.once (.write 4 0x20 0x30000001)] ++ between ++ [.once (.write 4 0x20 0x60000000)] ++ after }

/-- Whether `n` steps stay in RUN up to the last state, which passes a check. -/
def runs : Nat → State → (State → Bool) → Bool
  | 0, s, p => p s
  | n + 1, s, p => decide (s.state = .run) && answers (step s) fun u => runs n u p

theorem runFor_of_runs {n : Nat} {s : State} {p : State → Bool} (h : runs n s p = true) : ∃ t, runFor n s t ∧ p t = true := by
  induction n generalizing s with
  | zero => exact ⟨s, rfl, h⟩
  | succ n ih =>
    rw [runs, Bool.and_eq_true] at h
    obtain ⟨u, hu, h'⟩ := next_of_answers h.2
    obtain ⟨t, ht, hp⟩ := ih h'
    exact ⟨t, ⟨of_decide_eq_true h.1, u, hu, ht⟩, hp⟩

/-- OutputIsIndependentOfTheInterleaving: one run left to itself, and one with a START in RUN, a poll, a read, another word to
come after END, and a sink that refuses. -/
theorem witness_OutputIsIndependentOfTheInterleaving :
    let s₁ := oneFrameRun [] [] [] []
    let s₂ := oneFrameRun [.sink false, .host, .host, .engine, .engine, .engine, .host, .sink true]
      [.once (.write 4 0x00 1)] [.once (.read 4 0x28)] [.awaitEnd [], .once (.write 4 0x20 0)]
    freshRun s₁ ∧ freshRun s₂ ∧ s₁.build = s₂.build ∧ s₁.cfg = s₂.cfg ∧
      commandsOf (pushesToCome s₁.hostProg) = commandsOf (pushesToCome s₂.hostProg) ∧
      (∃ t, runFor 6 s₁ t ∧ decide (t.state = .done ∧ t.stream = [128]) = true) ∧
      ∃ t, runFor 11 s₂ t ∧ decide (t.state = .done ∧ t.stream = [128]) = true :=
  ⟨⟨inv_of_fresh (by decide) _ _, by decide⟩, ⟨inv_of_fresh (by decide) _ _, by decide⟩, rfl, rfl, by decide,
    runFor_of_runs (by decide +kernel), runFor_of_runs (by decide +kernel)⟩

/-! #### Dispatch and the engine's steps -/

/-- StepRunsTheDecodedCommand: the engine's turn with a command at the FIFO's head. -/
theorem witness_StepRunsTheDecodedCommand :
    { running mono8 [0x300003E8] with schedule := [.engine] }.schedule = .engine :: [] ∧
      (running mono8 [0x300003E8]).state = .run ∧ (running mono8 [0x300003E8]).ms = .ready ∧
      (running mono8 [0x300003E8]).queue = 0x300003E8 :: [] ∧ decode 0x300003E8 = .ok (.toneS 1000) := by decide

/-- DispatchRule: a run between commands, and a word of each kind; END with and without a word behind it. -/
theorem witness_DispatchRule : (running mono8 [0x60000000]).state = .run ∧ (running mono8 [0x60000000]).ms = .ready ∧
    (running mono8 [0x60000000]).queue = 0x60000000 :: [] ∧ (running mono8 [0x60000000, 0]).queue = 0x60000000 :: 0 :: [] ∧
    decode 0x70000000 = .error .reservedOpcode ∧ decode 0x00000000 = .ok .nop ∧ decode 0x100000FF = .ok (.byte 255) ∧
    decode 0x20000001 = .ok (.bit 1) ∧ decode 0x30000000 = .ok (.toneS 0) ∧ decode 0x4FFFFFFF = .ok (.toneM 268435455) ∧
    decode 0x50000000 = .ok (.silence 0) ∧ decode 0x60000000 = .ok .endRun := by decide

/-- EndCompletesOrTraps: an empty FIFO, and one with a word. -/
theorem witness_EndCompletesOrTraps : (running mono8 []).queue = [] ∧ (running mono8 [0x300003E8]).queue = 0x300003E8 :: [] := by
  decide

/-- DispatchFrame: every command answers a next state. -/
theorem witness_DispatchFrame : [Instr.nop, .byte 255, .bit 1, .toneS 0, .toneM 268435455, .silence 1, .endRun].all
    (fun i => answers (exec i (running mono8 [])) fun t => decide (t.stream = [] ∧ t.cfg = mono8)) = true := by decide

/-- BurstBeginRule: bursts of no frame and of one. -/
theorem witness_BurstBeginRule : (working mono8 (.atBegin 1200 0 .single) 0x30000000).state = .run ∧ mono8.validate = .none ∧
    (working mono8 (.atBegin 1200 0 .single) 0x30000000).ms = .atBegin 1200 0 .single ∧
    (working mono8 (.atBegin 2400 1 .single) 0x40000001).ms = .atBegin 2400 1 .single := by decide

/-- FrameStepRule: one byte short of the count's overflow and at it, the same for the clock, and the sink both ways. -/
theorem witness_FrameStepRule :
    let s := working mono8 (.burst 1200 1 0 .single) 0x30000001
    s.state = .run ∧ s.cfg.validate = .none ∧ s.ms = .burst 1200 1 0 .single ∧ s.sinkAccepts = true ∧
      2 ^ 32 - 1 < { s with bytesWritten := 0xFFFFFFFF }.bytesWritten + s.cfg.frameBytes ∧
      { s with bytesWritten := 0xFFFFFFFE }.bytesWritten + s.cfg.frameBytes ≤ 2 ^ 32 - 1 ∧
      2 ^ 64 - 1 < { s with clock := 2 ^ 64 - 1200 }.clock + s.cfg.fL ∧
      { s with clock := 2 ^ 64 - 1201 }.clock + s.cfg.fL ≤ 2 ^ 64 - 1 ∧
      { s with sinkAccepts := false }.sinkAccepts = false := by decide

/-- SilenceStepRule: the same for a mid-level frame, the last one and one before it. -/
theorem witness_SilenceStepRule :
    let s := working mono8 (.silence 1) 0x50000001
    s.state = .run ∧ s.cfg.validate = .none ∧ s.ms = .silence 1 ∧ s.sinkAccepts = true ∧
      (working mono8 (.silence 2) 0x500000D0).ms = .silence 2 ∧
      2 ^ 32 - 1 < { s with bytesWritten := 0xFFFFFFFF }.bytesWritten + s.cfg.frameBytes ∧
      { s with bytesWritten := 0xFFFFFFFE }.bytesWritten + s.cfg.frameBytes ≤ 2 ^ 32 - 1 ∧
      2 ^ 64 - 1 < { s with clock := 2 ^ 64 - 1200 }.clock + s.cfg.fL ∧
      { s with clock := 2 ^ 64 - 1201 }.clock + s.cfg.fL ≤ 2 ^ 64 - 1 := by decide

/-- SlotSequencing: the first and last data bit, the first stop bit, the last slot and the one before it. -/
theorem witness_SlotSequencing : (1 ≤ 1 ∧ 1 ≤ 8) ∧ (1 ≤ 8 ∧ 8 ≤ 8) ∧ 9 ≤ 9 ∧ (running scenario []).cfg = scenario ∧
    10 + 1 < 9 + scenario.stopBits.toNat ∧ ¬11 + 1 < 9 + scenario.stopBits.toNat := by decide

/-- EngineMovesExactlyWhenEnabled: a wait, a hold, a dispatch, and an overflow with a sink that refuses. -/
theorem witness_EngineMovesExactlyWhenEnabled : mono8.validate = .none ∧ (running mono8 []).engineEnabled = false ∧
    { working mono8 (.silence 1) 0x50000001 with sinkAccepts := false }.engineEnabled = false ∧
    (running mono8 [0]).engineEnabled = true ∧
    { working mono8 (.silence 1) 0x50000001 with sinkAccepts := false, bytesWritten := 0xFFFFFFFF }.engineEnabled = true := by
  decide

/-! #### Whole commands -/

/-- BurstRunsToItsEnd: the longest burst that still fits the tally, and one of no frame. -/
theorem witness_BurstRunsToItsEnd :
    let s := { working mono8 (.atBegin 1200 10 .single) 0x300003E8 with bytesWritten := 0xFFFFFFF5 }
    (s.schedule = [] ∧ s.sinkAccepts = true ∧ s.heldPush = none) ∧ s.state = .run ∧ s.cfg.validate = .none ∧
      s.ms = .atBegin 1200 10 .single ∧ s.bytesWritten + 10 * s.cfg.frameBytes = 2 ^ 32 - 1 ∧
      s.cfg.snap s.clock + 10 * s.cfg.fL ≤ 2 ^ 64 - 1 ∧
      (working mono8 (.atBegin 1200 0 .single) 0x30000000).ms = .atBegin 1200 0 .single := by decide

/-- ToneAndBitCommandsRunToTheirEnd: each of the four commands. -/
theorem witness_ToneAndBitCommandsRunToTheirEnd :
    let s := running mono8 []
    (s.schedule = [] ∧ s.sinkAccepts = true ∧ s.heldPush = none) ∧ s.state = .run ∧ s.cfg.validate = .none ∧
      s.build.kdur s.cfg 1000 = 10 ∧ s.cfg.kbit = 8 ∧
      s.bytesWritten + 10 * s.cfg.frameBytes ≤ 2 ^ 32 - 1 ∧ s.bytesWritten + 8 * s.cfg.frameBytes ≤ 2 ^ 32 - 1 ∧
      s.cfg.snap s.clock + 10 * s.cfg.fL ≤ 2 ^ 64 - 1 ∧ s.cfg.snap s.clock + 8 * s.cfg.fL ≤ 2 ^ 64 - 1 := by decide

/-- ByteRunsToItsEnd: V1's byte. -/
theorem witness_ByteRunsToItsEnd :
    let s := running scenario []
    (s.schedule = [] ∧ s.sinkAccepts = true ∧ s.heldPush = none) ∧ s.state = .run ∧ s.cfg.validate = .none ∧
      s.bytesWritten + (9 + s.cfg.stops) * s.cfg.kbit * s.cfg.frameBytes ≤ 2 ^ 32 - 1 ∧
      s.cfg.snap s.clock + (8 + s.cfg.stops) * s.cfg.cyclesPerBit * s.cfg.sr + s.cfg.kbit * s.cfg.fL ≤ 2 ^ 64 - 1 := by
  decide

/-- SilenceRunsToItsEnd: no frame, and ten frames up to the clock's greatest value. -/
theorem witness_SilenceRunsToItsEnd :
    let s := { running mono8 [] with clock := 2 ^ 64 - 12001 }
    (s.schedule = [] ∧ s.sinkAccepts = true ∧ s.heldPush = none) ∧ s.state = .run ∧ s.ms = .ready ∧ s.cfg.validate = .none ∧
      s.build.kdur s.cfg 0 = 0 ∧ s.bytesWritten + s.build.kdur s.cfg 1000 * s.cfg.frameBytes ≤ 2 ^ 32 - 1 ∧
      s.clock + s.build.kdur s.cfg 1000 * s.cfg.fL = 2 ^ 64 - 1 := by decide

/-! #### Counts, phases and codes -/

/-- PhaseAccumulatorIsExact and SplittingAtWholeCyclesIsTransparent: eight samples of a space tone are one cycle. -/
theorem witness_PhaseAccumulatorIsExact : 0 < mono8.sr := by decide
theorem witness_SplittingAtWholeCyclesIsTransparent : 0 < mono8.sr ∧ 8 * 1200 % mono8.sr = 0 := by decide

/-- QuantizersAreTheFormulas: the amplitudes 1, -1 and 1/2. -/
theorem witness_QuantizersAreTheFormulas : (0 < 1 ∧ |(1 : ℤ)| ≤ 1 ∧ |(-1 : ℤ)| ≤ 1) ∧ 0 < 2 ∧ |(1 : ℤ)| ≤ 2 := by decide

/-- SineCodeIsExact: an ordinary phase, the last phase, and a tie; and a build without a table. -/
theorem witness_SineCodeIsExact : mono8.validate = .none ∧ 1200 < mono8.sr ∧ 9599 < mono8.sr ∧
    (config 14400 1200 1200 16 1 1).validate = .none ∧ 1200 < (config 14400 1200 1200 16 1 1).sr ∧
    Build.decided.sineTable = [] := by decide

/-- At phase 0 the scaled value is 128, half a code away from every half-integer. -/
theorem far_from_ties : ∀ k : ℤ, (1 : ℝ) / 10 ^ 6 ≤ |scaled mono8 (sinPhase 0 mono8.sr) - (k + 1 / 2)| := by
  intro k
  have h : scaled mono8 (sinPhase 0 mono8.sr) = 128 := by
    simp [scaled, sinPhase, mono8, config]
  rw [h]
  rcases le_or_gt k 127 with hk | hk
  · have : (k : ℝ) ≤ 127 := by exact_mod_cast hk
    rw [abs_of_nonneg (by linarith)]
    norm_num
    linarith
  · have : (128 : ℝ) ≤ k := by exact_mod_cast hk
    rw [abs_of_neg (by linarith)]
    norm_num
    linarith

/-- An entry for phase 0 with the exact code, 128, makes an admissible table. -/
theorem admissible_entry : tableAdmissible { Build.decided with sineTable := [⟨8, 9600, 0, 128⟩] } := by
  intro e he c hc hq hs hP
  simp only [List.mem_singleton] at he
  subst he
  have h : exactSineCode c 0 = 128 := by
    norm_num [exactSineCode, exactQuantize, scaled, sinPhase, hq, roundHalfAway]
  exact ⟨by rw [h]; decide, fun _ => h.symm⟩

/-- SineCodeHasTheNamedProperty: a phase far from every tie; the build without a table, and one with an entry. -/
theorem witness_SineCodeHasTheNamedProperty : mono8.validate = .none ∧ 0 < mono8.sr ∧
    (∀ k : ℤ, (1 : ℝ) / 10 ^ 6 ≤ |scaled mono8 (sinPhase 0 mono8.sr) - (k + 1 / 2)|) ∧ Build.decided.sineTable = [] ∧
    tableAdmissible Build.decided ∧ tableAdmissible { Build.decided with sineTable := [⟨8, 9600, 0, 128⟩] } ∧
    (⟨8, 9600, 0, 128⟩ : SineEntry) = { qbits := mono8.qbits.toNat, sr := mono8.sr, P := 0, code := 128 } :=
  ⟨by decide, by decide, far_from_ties, rfl, fun _ he => (List.not_mem_nil he).elim, admissible_entry, by decide⟩

/-- CodesStayInRange: both sample widths, at the last phase. -/
theorem witness_CodesStayInRange : mono8.validate = .none ∧ mono8.qbits = 8 ∧ 9599 < mono8.sr ∧
    (config 9600 1200 1200 16 1 0).validate = .none ∧ (config 9600 1200 1200 16 1 0).qbits = 16 := by decide

/-- MidLevelAndPolarity: both sample widths, and a phase in each half-cycle at its bound. -/
theorem witness_MidLevelAndPolarity : mono8.validate = .none ∧ mono8.qbits = 8 ∧
    (config 9600 1200 1200 16 1 0).validate = .none ∧ (config 9600 1200 1200 16 1 0).qbits = 16 ∧
    tableAdmissible Build.decided ∧ tableAdmissible { Build.decided with sineTable := [⟨8, 9600, 0, 128⟩] } ∧
    (4799 < mono8.sr ∧ 2 * 4799 < mono8.sr) ∧ (4800 < mono8.sr ∧ mono8.sr ≤ 2 * 4800) :=
  ⟨by decide, by decide, by decide, by decide, fun _ he => (List.not_mem_nil he).elim, admissible_entry, by decide, by decide⟩

/-- FrameLayout: the four formats, and the 8-bit codes at both ends of a byte. -/
theorem witness_FrameLayout : (mono8.qbits = 8 ∧ mono8.channels = 1) ∧
    ((config 9600 1200 1200 8 2 0).qbits = 8 ∧ (config 9600 1200 1200 8 2 0).channels = 2) ∧
    ((config 9600 1200 1200 16 1 0).qbits = 16 ∧ (config 9600 1200 1200 16 1 0).channels = 1) ∧
    ((config 8 1 1 16 2 255).qbits = 16 ∧ (config 8 1 1 16 2 255).channels = 2) ∧
    ((0 : ℤ) ≤ 0 ∧ (0 : ℤ) ≤ 255) ∧ ((0 : ℤ) ≤ 255 ∧ (255 : ℤ) ≤ 255) := by decide

/-- QuantizerSymmetry: the amplitude 1/2 is a tie of the 8-bit quantizer, and 0 is none. -/
theorem witness_QuantizerSymmetry : (0 < 2 ∧ |(1 : ℤ)| ≤ 2 ∧ 2 * (128 * ((2 : ℕ) : ℤ) - 127 * 1) = (2 * 64 + 1) * ((2 : ℕ) : ℤ)) ∧
    |(0 : ℤ)| ≤ 1 ∧ ∀ k : ℤ, 2 * (128 * ((1 : ℕ) : ℤ) - 127 * 0) ≠ (2 * k + 1) * ((1 : ℕ) : ℤ) := by
  refine ⟨by decide, by decide, fun k => ?_⟩
  push_cast
  omega

/-- ExactTies: the four twelfths at which a tie stands, in both sample widths. -/
theorem witness_ExactTies : (config 14400 1200 1200 8 1 1).validate = .none ∧ (config 14400 1200 1200 16 1 1).validate = .none ∧
    12 * 1200 = (config 14400 1200 1200 8 1 1).sr ∧ 12 * 6000 = 5 * (config 14400 1200 1200 8 1 1).sr ∧
    12 * 8400 = 7 * (config 14400 1200 1200 8 1 1).sr ∧ 12 * 13200 = 11 * (config 14400 1200 1200 8 1 1).sr ∧
    13200 < (config 14400 1200 1200 8 1 1).sr := by decide

end Sys2Proof.Tests
end

section
/-! The invariant: what each operation on the state keeps of it, one lemma per operation, and from them the invariant after
every step. A held push is the one part that a move may break and the completion after the move restores. -/
namespace Sys2Proof.Machine
open Sys2Proof.Safety

/-! ### The micro-state's part, continued (R40) -/

/-- A burst of some frames belongs to the same command as the begin step before it. -/
theorem cwOk_burst_iff (cw : Word) (f k f' r P : Nat) (ctx : Ctx) :
    cwOk cw (.burst f' r P ctx) ↔ cwOk cw (.atBegin f k ctx) := by
  cases ctx <;> exact Iff.rfl

/-- A burst begin step leaves a well-formed micro-state. -/
theorem msOk_afterBegin {c : RunConfig} {f k : Nat} {ctx : Ctx} (hsr : 0 < c.sr) (h : msOk c (.atBegin f k ctx)) :
    msOk c (msAfterBegin c f k ctx) := by
  obtain ⟨hf, hctx⟩ := h
  unfold msAfterBegin
  split
  · exact msOk_afterBurst c ctx
  · next hk => exact ⟨hf, Nat.one_le_iff_ne_zero.mpr hk, hsr, hctx⟩

/-- The current word still belongs to the micro-state after a burst begin step. -/
theorem cwOk_afterBegin (c : RunConfig) {cw : Word} {f k : Nat} {ctx : Ctx} (h : cwOk cw (.atBegin f k ctx)) :
    cwOk cw (msAfterBegin c f k ctx) := by
  unfold msAfterBegin
  split
  · exact cwOk_afterBurst c h
  · exact (cwOk_burst_iff cw f k f k 0 ctx).mpr h

/-- A frame of a burst leaves a well-formed micro-state. -/
theorem msOk_afterFrame {c : RunConfig} {f r P : Nat} {ctx : Ctx} (h : msOk c (.burst f r P ctx)) :
    msOk c (msAfterFrame c f r P ctx) := by
  obtain ⟨hf, hr, hP, hctx⟩ := h
  unfold msAfterFrame
  split
  · exact msOk_afterBurst c ctx
  · exact ⟨hf, by omega, Nat.mod_lt _ (by omega), hctx⟩

/-- The current word still belongs to the micro-state after a frame of a burst. -/
theorem cwOk_afterFrame (c : RunConfig) {cw : Word} {f r P : Nat} {ctx : Ctx} (h : cwOk cw (.burst f r P ctx)) :
    cwOk cw (msAfterFrame c f r P ctx) := by
  have hb : cwOk cw (.atBegin f r ctx) := (cwOk_burst_iff cw f r f r P ctx).mp h
  unfold msAfterFrame
  split
  · exact cwOk_afterBurst c hb
  · exact (cwOk_burst_iff cw f r f (r - 1) _ ctx).mpr hb

/-- A mid-level frame leaves a well-formed micro-state. -/
theorem msOk_afterSilence {c : RunConfig} {r : Nat} (h : msOk c (.silence r)) : msOk c (msAfterSilence r) := by
  have hr : 1 ≤ r := h
  unfold msAfterSilence
  split
  · trivial
  · show 1 ≤ r - 1
    omega

/-- The current word still belongs to the micro-state after a mid-level frame. -/
theorem cwOk_afterSilence {cw : Word} {r : Nat} (h : cwOk cw (.silence r)) : cwOk cw (msAfterSilence r) := by
  unfold msAfterSilence
  split
  · trivial
  · exact h

section
variable {s : State} (hi : Inv s)
include hi

/-- Outside ERROR no code is recorded. -/
theorem errCode_eq_none_of_inv (hs : s.state ≠ .error) : s.errCode = .none := not_not.mp (mt hi.codeInError.mp hs)

/-! ### The engine's operations keep the invariant -/

/-- A new micro-state that is well formed and of the current word keeps the invariant, in RUN. -/
theorem inv_setMs (hr : s.state = .run) {m : MicroState} (hm : msOk s.cfg m) (hw : cwOk s.cw m) : Inv (setMs m s) :=
  { hi with
    quietOutsideRun := fun h => absurd hr h
    microState := hm
    currentWord := hw }

/-- A pop between commands keeps the invariant, where no push waits for the slot. -/
theorem inv_popTo {w : Word} {rest : List Word} (hr : s.state = .run) (hm : s.ms = .ready) (hq : s.queue = w :: rest)
    (hh : s.heldPush = none) : Inv (popTo w rest s) :=
  { hi with
    queueFits := by
      have hfit := hi.queueFits
      rw [hq, List.length_cons] at hfit
      exact Nat.le_of_succ_le hfit
    quietOutsideRun := fun h => absurd hr h
    currentWord := by rw [popTo_ms, hm]; trivial
    heldByFullQueue := fun h => absurd hh h }

/-- END with nothing behind it keeps the invariant: a push waits only where the popped word filled the FIFO (R174). -/
theorem inv_finish {w : Word} (hr : s.state = .run) (hq : s.queue = [w]) : Inv (finish (popTo w [] s)) :=
  { hi with
    queueFits := Nat.zero_le _
    quietOutsideRun := fun _ => ⟨rfl, rfl⟩
    runIsLegal := fun h => nomatch h
    microState := trivial
    currentWord := trivial
    heldByFullQueue := fun h => by
      rcases hi.heldByFullQueue h with ⟨-, hfull⟩ | ⟨hd, -⟩
      · rw [hq] at hfull
        exact .inr ⟨rfl, hfull.symm⟩
      · rw [hr] at hd
        exact nomatch hd
    codeInError := by simp [errCode_eq_none_of_inv hi (by simp [hr])] }

/-- The snap keeps the invariant, since it only lowers the clock (R102). -/
theorem inv_snapClock : Inv (snapClock s) :=
  { hi with clockFits := (snap_le s.cfg s.clock).trans_lt hi.clockFits }

/-- A frame of `FB` bytes that overflows neither counter keeps the invariant (R107, R154). -/
theorem inv_emit {bytes : List Byte} (hb : bytes.length = s.cfg.frameBytes) (h1 : s.countOverflows = false)
    (h2 : s.clockOverflows = false) : Inv (emit bytes s) :=
  { hi with
    tally := by
      have htally := hi.tally
      rw [emit_runStart, emit_bytesWritten, emit_stream, List.length_append, hb]
      omega
    countFits := emit_countFits bytes h1
    clockFits := emit_clockFits bytes h2 }

/-! ### The shared operations keep the invariant -/

/-- Taking an error keeps the invariant, where no push is held (R201). -/
theorem inv_raise {c : ErrCode} (info : Word) (hs : s.state ≠ .error) (hc : c ≠ .none) (hh : s.heldPush = none) :
    Inv (raise c info s) := by
  rw [raise_of_ne c info s hs]
  exact
    { hi with
      queueFits := Nat.zero_le _
      quietOutsideRun := fun _ => ⟨rfl, rfl⟩
      runIsLegal := fun h => nomatch h
      microState := trivial
      currentWord := trivial
      heldByFullQueue := fun h => absurd hh h
      codeInError := iff_of_true hc rfl
      infoWithoutFault := fun h => absurd h hc }

/-- Reset gives a state of the invariant in every conformant build (R230). -/
theorem inv_resetBlock : Inv (resetBlock s) where
  buildConforms := hi.buildConforms
  queueFits := Nat.zero_le _
  quietOutsideRun := fun _ => ⟨rfl, rfl⟩
  runIsLegal := fun h => nomatch h
  microState := trivial
  currentWord := trivial
  heldByFullQueue := fun h => absurd rfl h
  codeInError := by simp
  infoWithoutFault := fun _ => rfl
  tally := rfl
  countFits := Nat.two_pow_pos _
  clockFits := Nat.two_pow_pos _

/-- A START that passes validation keeps the invariant, where no push is held (R176). -/
theorem inv_beginRun (hs : s.state = .idle ∨ s.state = .done) (hv : s.cfg.validate = .none) (hh : s.heldPush = none) :
    Inv (beginRun s) :=
  { hi with
    quietOutsideRun := fun h => absurd rfl h
    runIsLegal := fun _ => hv
    heldByFullQueue := fun h => absurd hh h
    codeInError := by
      have hne : s.state ≠ .error := by rcases hs with hs | hs <;> simp [hs]
      simp [errCode_eq_none_of_inv hi hne]
    tally := rfl
    countFits := Nat.two_pow_pos _
    clockFits := Nat.two_pow_pos _ }

/-! ### The host's operations keep the invariant -/

/-- A configuration write outside RUN keeps the invariant (R33). -/
theorem inv_configure (c : RunConfig) (hs : s.state ≠ .run) : Inv { s with cfg := c } := by
  obtain ⟨-, hm⟩ := hi.quietOutsideRun hs
  exact
    { hi with
      runIsLegal := fun h => absurd h hs
      microState := by rw [hm]; trivial }

/-- A push into a free slot keeps the invariant (R34). -/
theorem inv_append (w : Word) (hr : s.state = .run) (hq : s.queue.length < s.build.cmdqDepth) (hh : s.heldPush = none) :
    Inv (append w s) :=
  { hi with
    queueFits := by rw [append_queue, List.length_append]; exact hq
    quietOutsideRun := fun h => absurd hr h
    heldByFullQueue := fun h => absurd hh h }

/-- Holding a push at a full FIFO keeps the invariant (R65). -/
theorem inv_hold (w : Word) (hr : s.state = .run) (hq : ¬s.queue.length < s.build.cmdqDepth) : Inv (hold w s) :=
  { hi with heldByFullQueue := fun _ => .inl ⟨hr, le_antisymm hi.queueFits (not_lt.mp hq)⟩ }

/-- Every register write keeps the invariant, where no push is held. -/
theorem inv_writeEffect (hh : s.heldPush = none) {off : BitVec 8} {v : Word} {u : State} (hu : WriteEffect off v s u) :
    Inv u := by
  cases hu with
  | ignored _ => exact hi
  | resets _ => exact inv_resetBlock hi
  | beginsRun _ hs hv => exact inv_beginRun hi hs hv hh
  | faults c info hs hc => exact inv_raise hi info hs hc hh
  | configures c _ hs => exact inv_configure hi c hs
  | appends _ hr hq => exact inv_append hi v hr hq hh
  | holds _ hr hq => exact inv_hold hi v hr hq

/-- A register read keeps the invariant. -/
theorem inv_hostRead (off : BitVec 8) : Inv (hostRead off s) := { hi with }

/-- The host's move keeps the invariant. -/
theorem inv_hostMove {u : State} (hu : HostMove s u) : Inv u := by
  cases hu with
  | waits => exact hi
  | reads _ off rest _ _ _ => exact inv_hostRead (s := { s with hostProg := rest }) { hi with } off
  | writes _ off v rest hh _ _ =>
    exact inv_writeEffect (s := { s with hostProg := rest }) { hi with } hh (hostWrite_effect off v _)
  | polls op rest _ _ _ => exact { hi with }

end

/-! ### The held push (R65) -/

/-- The state without its held push. -/
def dropHeld (s : State) : State := { s with heldPush := none }

/-- Taking an error does not look at the held push. -/
theorem dropHeld_raise (c : ErrCode) (info : Word) (s : State) :
    dropHeld (raise c info s) = raise c info (dropHeld s) := by
  by_cases h : s.state = .error
  · rw [raise_of_error c info s h, raise_of_error c info (dropHeld s) h]
  · rw [raise_of_ne c info s h, raise_of_ne c info (dropHeld s) h]; rfl

/-- Without the held push the invariant still holds. -/
theorem inv_dropHeld {s : State} (hi : Inv s) : Inv (dropHeld s) :=
  { hi with heldByFullQueue := fun h => absurd rfl h }

/-- The completion keeps the invariant, under which it does nothing. -/
theorem inv_completeHeld {s : State} (hi : Inv s) : Inv (completeHeld s) := by rwa [completeHeld_of_inv hi]

/-- The completion restores the invariant in RUN and in ERROR, where the held push is all that a move has left amiss. -/
theorem inv_completeHeld_of_dropHeld {u : State} (hi : Inv (dropHeld u)) (hs : u.state = .run ∨ u.state = .error) :
    Inv (completeHeld u) := by
  unfold completeHeld
  split
  · next hh => exact { hi with heldByFullQueue := fun h => absurd hh h }
  · next w hh =>
    split
    · next hr =>
      split
      · next hq => exact inv_append hi w hr hq rfl
      · next hq =>
        exact { hi with heldByFullQueue := fun _ => .inl ⟨hr, le_antisymm hi.queueFits (not_lt.mp hq)⟩ }
    · exact hi
    · next hidle => simp [hidle] at hs
    · next hdone => simp [hdone] at hs

/-- A fault and the completion after it keep the invariant: a held push is discarded (R65, R201). -/
theorem inv_completeHeld_raise {s : State} (hi : Inv (dropHeld s)) {c : ErrCode} (info : Word) (hs : s.state ≠ .error)
    (hc : c ≠ .none) : Inv (completeHeld (raise c info s)) := by
  refine inv_completeHeld_of_dropHeld ?_ (.inr (raise_state c info s))
  rw [dropHeld_raise]
  exact inv_raise hi info hs hc rfl

/-! ### Every step keeps the invariant -/

/-- The engine's move and the completion after it keep the invariant. Where a word is popped, a held push takes its slot. -/
theorem inv_engineMove {s u : State} (hi : Inv s) (hu : EngineMove s u) : Inv (completeHeld u) := by
  have hmOk := hi.microState
  have hwOk := hi.currentWord
  have popped : ∀ {w rest}, s.state = .run → s.ms = .ready → s.queue = w :: rest → Inv (dropHeld (popTo w rest s)) :=
    fun hr hm hq => inv_popTo (inv_dropHeld hi) hr hm hq rfl
  cases hu with
  | rests => exact inv_completeHeld hi
  | starts w rest i hr hm hq hd _ =>
    exact inv_completeHeld_of_dropHeld
      (inv_setMs (popped hr hm hq) hr (msOk_atDispatch ..) (cwOk_atDispatch _ _ hd)) (.inl hr)
  | finishes w hr _ hq _ => exact inv_completeHeld (inv_finish hi hr hq)
  | faults c info s₀ hr hs hc =>
    rcases hs with rfl | ⟨w, rest, hq, hm, rfl⟩
    · exact inv_completeHeld_raise (inv_dropHeld hi) info (by simp [hr]) hc
    · exact inv_completeHeld_raise (popped hr hm hq) info (by simp [hr]) hc
  | begins f k ctx hr hm hv =>
    rw [hm] at hmOk hwOk
    exact inv_completeHeld
      (inv_setMs (inv_snapClock hi) hr (msOk_afterBegin (legal_pos hv).1 hmOk) (cwOk_afterBegin _ hwOk))
  | toneFrame f r P ctx hr hm hv h1 h2 _ =>
    rw [hm] at hmOk hwOk
    exact inv_completeHeld
      (inv_setMs (inv_emit hi (frame_length hv _) h1 h2) hr (msOk_afterFrame hmOk) (cwOk_afterFrame _ hwOk))
  | midFrame r hr hm hv h1 h2 _ =>
    rw [hm] at hmOk hwOk
    exact inv_completeHeld
      (inv_setMs (inv_emit hi (frame_length hv _) h1 h2) hr (msOk_afterSilence hmOk) (cwOk_afterSilence hwOk))

/-- Settles O27: by the inversion lemma of a step, each agent's move and the completion after it keep the invariant. -/
theorem everyStepKeepsTheInvariant : Obligations.EveryStepKeepsTheInvariant := by
  intro s t hi h
  have ha : Inv (advance s) := { hi with }
  obtain ⟨u, rfl, hu | hu | ⟨b, rfl⟩ | ⟨rfl, -⟩⟩ := step_cases h
  · exact inv_engineMove ha hu
  · exact inv_completeHeld (inv_hostMove ha hu)
  · exact inv_completeHeld { ha with }
  · exact inv_completeHeld (inv_resetBlock ha)

end Sys2Proof.Machine
end

section
/-! The configuration and the build-time parameters: no move changes the build, and in RUN no move but a reset changes the
configuration. -/
namespace Sys2Proof.Machine
open Sys2Proof.Safety

/-- The engine's move changes neither the configuration nor the build. -/
theorem engineMove_cfg_build {s u : State} (h : EngineMove s u) : u.cfg = s.cfg ∧ u.build = s.build := by
  cases h with
  | faults c info s₀ hr hs hc =>
    rw [raise_cfg, raise_build]
    rcases hs with rfl | ⟨w, rest, -, -, rfl⟩ <;> exact ⟨rfl, rfl⟩
  | rests | starts | finishes | begins | toneFrame | midFrame => exact ⟨rfl, rfl⟩

/-- A register write does not change the build. -/
theorem writeEffect_build {off : BitVec 8} {v : Word} {s u : State} (h : WriteEffect off v s u) : u.build = s.build := by
  cases h with
  | faults c info hs hc => exact raise_build c info s
  | ignored | resets | beginsRun | configures | appends | holds => rfl

/-- In RUN a register write keeps the configuration or resets the block (R33). -/
theorem writeEffect_cfg {off : BitVec 8} {v : Word} {s u : State} (hr : s.state = .run) (h : WriteEffect off v s u) :
    u.cfg = s.cfg ∨ u = resetBlock s := by
  cases h with
  | resets _ => exact .inr rfl
  | configures c _ hs => exact absurd hr hs
  | faults c info _ _ => exact .inl (raise_cfg c info s)
  | ignored | beginsRun | appends | holds => exact .inl rfl

/-- The host's move does not change the build. -/
theorem hostMove_build {s u : State} (h : HostMove s u) : u.build = s.build := by
  cases h with
  | writes _ off v rest _ _ _ => exact writeEffect_build (s := { s with hostProg := rest }) (hostWrite_effect off v _)
  | waits | reads | polls => rfl

/-- In RUN the host's move keeps the configuration or resets the block. -/
theorem hostMove_cfg {s u : State} (hr : s.state = .run) (h : HostMove s u) : u.cfg = s.cfg ∨ ∃ s₀, u = resetBlock s₀ := by
  cases h with
  | writes _ off v rest _ _ _ =>
    exact (writeEffect_cfg (s := { s with hostProg := rest }) hr (hostWrite_effect off v _)).imp_right fun h => ⟨_, h⟩
  | waits | reads | polls => exact .inl rfl

/-- Reset, with no push held for the completion after it, gives every piece of the block its reset value (R230). -/
theorem blockIsReset_completeHeld_resetBlock (s : State) : blockIsReset (completeHeld (resetBlock s)) := by
  rw [completeHeld_of_none (resetBlock_heldPush s)]
  exact ⟨rfl, rfl, rfl, rfl, rfl, rfl, rfl, rfl, rfl, rfl, rfl⟩

/-- No step changes the build-time parameters. -/
theorem step_build {s t : State} (h : step s = .next t) : t.build = s.build := by
  obtain ⟨u, rfl, hu | hu | ⟨b, rfl⟩ | ⟨rfl, -⟩⟩ := step_cases h <;> rw [completeHeld_build]
  · exact (engineMove_cfg_build hu).2
  · exact hostMove_build (s := advance s) hu
  · rfl
  · rfl

/-- In RUN a step keeps the configuration or resets the block (R33). -/
theorem step_cfg_or_reset {s t : State} (hr : s.state = .run) (h : step s = .next t) : t.cfg = s.cfg ∨ blockIsReset t := by
  obtain ⟨u, rfl, hu | hu | ⟨b, rfl⟩ | ⟨rfl, -⟩⟩ := step_cases h
  · exact .inl ((completeHeld_cfg u).trans (engineMove_cfg_build hu).1)
  · rcases hostMove_cfg (s := advance s) hr hu with hcfg | ⟨s₀, rfl⟩
    · exact .inl ((completeHeld_cfg u).trans hcfg)
    · exact .inr (blockIsReset_completeHeld_resetBlock s₀)
  · exact .inl (completeHeld_cfg _)
  · exact .inr (blockIsReset_completeHeld_resetBlock _)

/-- Settles O25: by the inversion lemma of a step, and the reset state's build. -/
theorem configurationIsConstantInARun : Obligations.ConfigurationIsConstantInARun :=
  ⟨fun _ _ => step_cfg_or_reset, fun _ _ => step_build, rfl⟩

end Sys2Proof.Machine
end

section
/-! The codes of a burst: `sineCode` is the exact code at every phase index, and the block's `SINE_Q` has the property that
93_implementation_defined.md I2 names for every table that I2 admits. -/
namespace Sys2Proof.Machine
open Sys2Proof.Safety

/-! ### The codes of the enclosure's two ends -/

/-- The upper bound of a quarter turn is at most 1. -/
theorem Sine.quarter_le_one (num den : ℕ) : (Sine.quarter num den).2 ≤ Sine.one := by
  unfold Sine.quarter
  split
  · exact Nat.div_le_self _ _
  · exact min_le_left _ _

/-- The enclosure lies between -1 and 1. -/
theorem Sine.enclosure_in_unit (P sr : ℕ) :
    -(Sine.one : ℤ) ≤ (Sine.enclosure P sr).1 ∧ (Sine.enclosure P sr).2 ≤ Sine.one := by
  unfold Sine.enclosure Sine.half
  split
  · have h := Sine.quarter_le_one (if sr < 2 * (2 * P - sr) then sr - (2 * P - sr) else 2 * P - sr) sr
    simp only
    omega
  · have h := Sine.quarter_le_one (if sr < 2 * (2 * P) then sr - 2 * P else 2 * P) sr
    simp only
    omega

/-- The codes of the enclosure's two ends lie between those of 1 and -1. -/
theorem quantize_enclosure_bounds (c : RunConfig) (P : ℕ) :
    c.quantize 1 1 ≤ c.quantize (Sine.enclosure P c.sr).2 Sine.one ∧
      c.quantize (Sine.enclosure P c.sr).1 Sine.one ≤ c.quantize (-1) 1 := by
  have hr := Sine.one_pos
  have hone : 0 < Sine.one := by exact_mod_cast hr
  obtain ⟨hl, hu⟩ := Sine.enclosure_in_unit P c.sr
  rw [quantize_eq c _ _ hone, quantize_eq c _ _ hone, quantize_eq c _ 1 one_pos, quantize_eq c _ 1 one_pos]
  constructor <;> apply exactQuantize_anti
  · rw [div_le_iff₀ hr]
    push_cast
    rw [div_one, one_mul]
    exact_mod_cast hu
  · rw [le_div_iff₀ hr]
    push_cast
    rw [div_one, neg_one_mul]
    exact_mod_cast hl

/-- A code from that of 1 up to below that of -1 has its tie at an amplitude inside the unit. -/
theorem tieAmplitude_in_unit (c : RunConfig) {code : ℤ} (hl : c.quantize 1 1 ≤ code) (hu : code < c.quantize (-1) 1) :
    |(c.tieAmplitude code).1| < (c.tieAmplitude code).2 := by
  unfold RunConfig.quantize at hl hu
  unfold RunConfig.tieAmplitude
  split
  · next h8 =>
    rw [if_pos h8] at hl hu
    have h1 : quantize8 1 1 = 1 := by decide
    have h2 : quantize8 (-1) 1 = 255 := by decide
    rw [abs_lt]
    push_cast
    constructor <;> omega
  · next h8 =>
    rw [if_neg h8] at hl hu
    have h1 : quantize16 1 1 = -32767 := by decide
    have h2 : quantize16 (-1) 1 = 32767 := by decide
    rw [abs_lt]
    push_cast
    constructor <;> omega

/-- Values less than 1 apart round to the same integer or to neighbours. -/
theorem roundHalfAway_le_succ {x y : ℝ} (h : y < x + 1) : roundHalfAway y ≤ roundHalfAway x + 1 := by
  have hx := (roundHalfAway_near x).2
  have hy := (roundHalfAway_near y).1
  have : (roundHalfAway y : ℝ) < roundHalfAway x + 2 := by linarith
  have : roundHalfAway y < roundHalfAway x + 2 := by exact_mod_cast this
  omega

/-- Amplitudes less than `1 / 32767` apart have the same code or neighbours. -/
theorem exactQuantize_le_succ (c : RunConfig) {x y : ℝ} (h : 32767 * (y - x) < 1) :
    exactQuantize c x ≤ exactQuantize c y + 1 := by
  unfold exactQuantize scaled
  split <;> exact roundHalfAway_le_succ (by linarith)

/-- The two ends of the enclosure have the same code or neighbours. -/
theorem quantize_enclosure_le_succ (c : RunConfig) {P : ℕ} (h : P < c.sr) :
    c.quantize (Sine.enclosure P c.sr).1 Sine.one ≤ c.quantize (Sine.enclosure P c.sr).2 Sine.one + 1 := by
  have hr := Sine.one_pos
  have hone : 0 < Sine.one := by exact_mod_cast hr
  have hw : ((Sine.enclosure P c.sr).2 : ℝ) ≤ (Sine.enclosure P c.sr).1 + 100 := by
    exact_mod_cast Sine.enclosure_width h
  have hbig : (3276700 : ℝ) < Sine.one := by unfold Sine.one; norm_num
  rw [quantize_eq c _ _ hone, quantize_eq c _ _ hone]
  apply exactQuantize_le_succ
  rw [← sub_div, ← mul_div_assoc, div_lt_one hr]
  linarith

/-! ### The exact code -/

/-- The machine's code is the exact one at every phase index (R152). -/
theorem sineCode_eq_exact (c : RunConfig) {P : ℕ} (h : P < c.sr) : c.sineCode P = exactSineCode c P := by
  obtain ⟨hlo, hhi⟩ := exactSineCode_between c h
  obtain ⟨hmin, hmax⟩ := quantize_enclosure_bounds c P
  have hnear := quantize_enclosure_le_succ c h
  have hcases := sineCode_cases c P
  by_cases heq : c.quantize (Sine.enclosure P c.sr).2 Sine.one = c.quantize (Sine.enclosure P c.sr).1 Sine.one
  · omega
  · have hup := roundsUp_iff c h (tieAmplitude_in_unit c hmin (by omega))
    rcases hcases with ⟨he, -⟩ | ⟨hu, hcode⟩ | ⟨hu, hcode⟩
    · exact absurd he heq
    · have := hup.mp hu
      omega
    · have : ¬c.quantize (Sine.enclosure P c.sr).2 Sine.one < exactSineCode c P := by
        rw [← hup, hu]
        exact Bool.false_ne_true
      omega

/-! ### The property that I2 names -/

/-- The exact code has the named property. -/
theorem namedProperty_sineCode (c : RunConfig) {P : ℕ} (h : P < c.sr) : namedProperty c P (c.sineCode P) := by
  rw [sineCode_eq_exact c h]
  exact ⟨by simp, fun _ => rfl⟩

/-- The block's code has the named property for every table that I2 admits. -/
theorem namedProperty_sineQ {b : Build} {c : RunConfig} {P : ℕ} (hv : c.validate = .none) (h : P < c.sr)
    (hb : tableAdmissible b) : namedProperty c P (b.sineQ c P) := by
  rcases sineQ_cases b c P with hcode | ⟨e, he, hq, hsr, rfl, hcode⟩ <;> rw [hcode]
  · exact namedProperty_sineCode c h
  · exact hb e he c hv hq.symm hsr.symm h

/-- A code at the table's head is the code used. -/
theorem sineQ_of_head {b : Build} {c : RunConfig} {P : ℕ} {code : ℤ} {rest : List SineEntry}
    (h : b.sineTable = { qbits := c.qbits.toNat, sr := c.sr, P := P, code := code } :: rest) : b.sineQ c P = code := by
  simp [Build.sineQ, h]

/-- Settles O55: the exact code where the table lists none, and otherwise what I2 asks of the table's entries. -/
theorem sineCodeHasTheNamedProperty : Obligations.SineCodeHasTheNamedProperty := by
  intro b c P hv h
  refine ⟨namedProperty_sineQ hv h, fun hb => ?_, fun _ _ => sineQ_of_head⟩
  rw [sineQ_of_empty hb]
  exact ⟨rfl, namedProperty_sineCode c h⟩

end Sys2Proof.Machine
end

section
/-! The register port: the fields of STATUS and FORMAT as numbers, and what each access at a named offset does. -/
namespace Sys2Proof.Machine
open Sys2Proof.Safety

/-! ### Fields and bits of a word -/

/-- A bit field of a word is the bit vector whose number its bits spell. -/
theorem extractLsb'_eq_of_toNat {w : Word} {start len : Nat} {x : BitVec len}
    (h : w.toNat / 2 ^ start % 2 ^ len = x.toNat) : w.extractLsb' start len = x := by
  apply BitVec.eq_of_toNat_eq
  rw [BitVec.extractLsb'_toNat, Nat.shiftRight_eq_div_pow, h]

/-- A bit of a word is the truth value that the number at its place spells. -/
theorem getLsbD_eq_of_toNat {w : Word} {i : Nat} {b : Bool} (h : w.toNat / 2 ^ i % 2 = b.toNat) : w.getLsbD i = b := by
  rw [BitVec.getLsbD, Nat.testBit_eq_decide_div_mod_eq, h]
  cases b <;> rfl

/-! ### STATUS (R24, R25) -/

/-- What the bits of STATUS above STATE spell, field by field. -/
theorem status_toNat_fields (s : State) :
    s.status.toNat / 2 ^ 2 % 2 = s.busy.toNat ∧ s.status.toNat / 2 ^ 3 % 2 = s.cmdqEmpty.toNat ∧
      s.status.toNat / 2 ^ 5 % 2 ^ 3 = 0 ∧ s.status.toNat / 2 ^ 8 % 2 ^ 8 = s.queue.length % 2 ^ 8 ∧
      s.status.toNat / 2 ^ 16 % 2 ^ 16 = 0 := by
  have hstate : s.state.code < 4 := by cases s.state <;> decide
  have hbusy : s.busy.toNat < 2 := Bool.toNat_lt _
  have hempty : s.cmdqEmpty.toNat < 2 := Bool.toNat_lt _
  have hfull : s.cmdqFull.toNat < 2 := Bool.toNat_lt _
  unfold State.status
  rw [BitVec.toNat_ofNat]
  omega

/-- Settles O9: each field is what the bits of STATUS spell at its place. -/
theorem statusFields : Obligations.StatusFields := by
  intro s v _ _
  obtain ⟨hbusy, hempty, hlow, hcount, hhigh⟩ := status_toNat_fields s
  have hstate : s.status.toNat / 2 ^ 0 % 2 ^ 2 = s.state.code := by
    rw [pow_zero, Nat.div_one]
    exact status_state s
  refine ⟨extractLsb'_eq_of_toNat (hstate.trans ?_), ?_, ?_, ?_, extractLsb'_eq_of_toNat hlow,
    extractLsb'_eq_of_toNat (hcount.trans (BitVec.toNat_ofNat _ _).symm), extractLsb'_eq_of_toNat hhigh, rfl⟩
  · cases s.state <;> rfl
  · exact (Bool.eq_iff_iff.mp (getLsbD_eq_of_toNat hbusy)).trans decide_eq_true_iff
  · exact (Bool.eq_iff_iff.mp (getLsbD_eq_of_toNat hempty)).trans decide_eq_true_iff
  · exact (Bool.eq_iff_iff.mp (status_full s)).trans decide_eq_true_iff

/-! ### FORMAT (R31) -/

/-- The number FORMAT holds: its three fields, each one byte. -/
theorem formatWord_toNat (c : RunConfig) :
    c.formatWord.toNat = c.qbits.toNat + 2 ^ 8 * c.channels.toNat + 2 ^ 16 * c.stopBits.toNat := by
  have hq := c.qbits.isLt
  have hc := c.channels.isLt
  have hs := c.stopBits.isLt
  unfold RunConfig.formatWord
  rw [BitVec.toNat_ofNat]
  omega

/-- The three fields of FORMAT are the three registers, and its bits 31:24 read 0. -/
theorem formatWord_fields (c : RunConfig) :
    c.formatWord.extractLsb' 0 8 = c.qbits ∧ c.formatWord.extractLsb' 8 8 = c.channels ∧
      c.formatWord.extractLsb' 16 8 = c.stopBits ∧ c.formatWord.extractLsb' 24 8 = 0 := by
  have hw := formatWord_toNat c
  have hq := c.qbits.isLt
  have hc := c.channels.isLt
  have hs := c.stopBits.isLt
  have h0 : c.formatWord.toNat / 2 ^ 24 % 2 ^ 8 = 0 := by omega
  exact ⟨extractLsb'_eq_of_toNat (by omega), extractLsb'_eq_of_toNat (by omega), extractLsb'_eq_of_toNat (by omega),
    extractLsb'_eq_of_toNat h0⟩

/-- FORMAT reads back the low 24 bits of the word its fields were taken from. -/
theorem formatWord_withFormat (c : RunConfig) (v : Word) : (c.withFormat v).formatWord = v &&& 0x00FFFFFF := by
  apply BitVec.eq_of_toNat_eq
  have hmask : (v &&& 0x00FFFFFF).toNat = v.toNat % 2 ^ 24 := by
    rw [BitVec.toNat_and]
    exact Nat.and_two_pow_sub_one_eq_mod v.toNat 24
  rw [hmask, formatWord_toNat]
  simp only [RunConfig.withFormat, byteLane, BitVec.extractLsb'_toNat, Nat.shiftRight_eq_div_pow]
  omega

/-! ### Reads (R22, R37, R68) -/

/-- A read at any offset but CLOCK_LO changes nothing but what the host got. -/
theorem hostRead_of_ne {off : BitVec 8} (h : off ≠ 0x28) (s : State) :
    hostRead off s = { s with readData := s.readValue off } := by
  have hoff : off.toNat ≠ 0x28 := fun h' => h (BitVec.eq_of_toNat_eq h')
  unfold hostRead
  rw [if_neg hoff]

/-- Settles O10: every register's read, FORMAT's through its fields, and the one side effect. -/
theorem readsReturnTheRegisters : Obligations.ReadsReturnTheRegisters := by
  intro s
  obtain ⟨hq, hc, hs, h0⟩ := formatWord_fields s.cfg
  refine ⟨rfl, ?_, rfl, rfl, rfl, rfl, hq, hc, hs, h0, rfl, rfl, ?_, rfl, rfl, fun off h => hostRead_of_ne h s, rfl⟩
  · show BitVec.ofNat 32 s.errCode.code = _
    cases s.errCode <;> rfl
  · intro hlt
    exact (BitVec.toNat_ofNat _ _).trans (Nat.mod_eq_of_lt hlt)

/-! ### Writes (R23, R33, R34) -/

/-- Settles O14: CTRL has no stored value, and a write of it is `writeCtrl`. -/
theorem ctrlRequestsActions : Obligations.CtrlRequestsActions := fun _ _ => ⟨rfl, rfl⟩

/-- A configuration write in RUN is refused with CFG_LOCKED (R33). -/
theorem writeConfig_of_run (off : BitVec 8) (c : RunConfig) {s : State} (h : s.state = .run) :
    writeConfig off c s = raise .cfgLocked (off.setWidth 32) s := if_pos h

/-- A configuration write outside RUN takes effect (R33). -/
theorem writeConfig_of_ne_run (off : BitVec 8) (c : RunConfig) {s : State} (h : s.state ≠ .run) :
    writeConfig off c s = { s with cfg := c } := if_neg h

/-- A write at a configuration register's offset is a configuration write. -/
theorem hostWrite_eq_writeConfig {off : BitVec 8} (h : off = 0x10 ∨ off = 0x14 ∨ off = 0x18 ∨ off = 0x1C) (v : Word)
    (s : State) : ∃ c, hostWrite off v s = writeConfig off c s := by
  rcases h with rfl | rfl | rfl | rfl <;> exact ⟨_, rfl⟩

/-- Settles O11: outside RUN the write takes FORMAT's fields from the word. -/
theorem formatHoldsItsFields : Obligations.FormatHoldsItsFields := by
  intro s v hs
  have hw : hostWrite 0x1C v s = { s with cfg := s.cfg.withFormat v } := writeConfig_of_ne_run _ _ hs
  rw [hw]
  exact ⟨rfl, rfl, rfl, formatWord_withFormat s.cfg v⟩

/-- Settles O15: each of the four offsets is a configuration write, which RUN refuses. -/
theorem configurationLock : Obligations.ConfigurationLock := by
  constructor
  · intro s v off hs hoff
    obtain ⟨c, hc⟩ := hostWrite_eq_writeConfig hoff v s
    rw [hc, writeConfig_of_run off c hs]
    exact ⟨rfl, raise_cfg _ _ s⟩
  · intro s v hs
    exact ⟨writeConfig_of_ne_run _ _ hs, writeConfig_of_ne_run _ _ hs, writeConfig_of_ne_run _ _ hs,
      writeConfig_of_ne_run _ _ hs⟩

/-- A push in RUN is appended where a slot is free, and held otherwise (R34). -/
theorem push_of_run (w : Word) {s : State} (h : s.state = .run) :
    push w s = if s.queue.length < s.build.cmdqDepth then append w s else hold w s := by
  unfold push
  rw [h]

/-- A push in IDLE or DONE raises CMD_NOT_RUNNING with the word (R34). -/
theorem push_of_idle_or_done (w : Word) {s : State} (h : s.state = .idle ∨ s.state = .done) :
    push w s = raise .cmdNotRunning w s := by
  unfold push
  rcases h with h | h <;> rw [h]

/-- A push in ERROR is discarded (R34). -/
theorem push_of_error (w : Word) {s : State} (h : s.state = .error) : push w s = s := by
  unfold push
  rw [h]

/-- Settles O16: a write at CMD is a push, and its four cases are those of STATE and a free slot. -/
theorem pushRule : Obligations.PushRule := by
  intro s w
  refine ⟨fun hs hq => ?_, fun hs hq => ?_, push_of_idle_or_done w, push_of_error w, hostRead_of_ne (by decide) s⟩
  · exact (push_of_run w hs).trans (if_pos hq)
  · exact (push_of_run w hs).trans (if_neg hq)

end Sys2Proof.Machine
end

section
/-! The state after reset (R43). -/
namespace Sys2Proof.Machine
open Sys2Proof.Safety

/-- Settles O7: the reset state holds the values of R43, and its baud rate of 0 is the first check that fails (R203). -/
theorem resetLeavesTheStatedValues : Obligations.ResetLeavesTheStatedValues :=
  ⟨⟨rfl, rfl, rfl, rfl, rfl, rfl, rfl, rfl, rfl, rfl, reset_offers_no_frame⟩, rfl, rfl, rfl, rfl, rfl, rfl, rfl, rfl⟩

/-- Settles O26: after reset there is nothing in the FIFO, no command, no fault and no output. -/
theorem resetMeetsTheInvariant : Obligations.ResetMeetsTheInvariant where
  buildConforms := by decide
  queueFits := Nat.zero_le _
  quietOutsideRun := fun _ => ⟨rfl, rfl⟩
  runIsLegal := fun h => nomatch h
  microState := trivial
  currentWord := trivial
  heldByFullQueue := fun h => absurd rfl h
  codeInError := by decide
  infoWithoutFault := fun _ => rfl
  tally := rfl
  countFits := Nat.two_pow_pos _
  clockFits := Nat.two_pow_pos _

end Sys2Proof.Machine
end

section
/-! When the engine moves (R41): a move with no enabled step is a wait, and every enabled step changes the state. -/
namespace Sys2Proof.Machine

/-- A step is answered with a state other than the one it starts from. -/
def Moves (r : Result) (s : State) : Prop := ∃ t, r = .next t ∧ t ≠ s

section
variable {s : State}

/-- An answer that changes STATE is a move. -/
theorem moves_of_state {r : Result} {t : State} (h : r = .next t) (hs : t.state ≠ s.state) : Moves r s :=
  ⟨t, h, fun he => hs (congrArg State.state he)⟩

/-- In RUN, taking an error is a move. -/
theorem moves_raise (hr : s.state = .run) (c : ErrCode) (info : Word) (s₀ : State) :
    Moves (.next (raise c info s₀)) s :=
  moves_of_state rfl (by rw [raise_state, hr]; decide)

/-- Every dispatch is a move: it takes a word from the FIFO, and a fault or END leaves RUN (R170). -/
theorem moves_dispatchWord (hr : s.state = .run) {w : Word} {rest : List Word} (hq : s.queue = w :: rest) :
    Moves (dispatchWord w rest s) s := by
  unfold dispatchWord
  split
  · exact moves_raise hr _ _ _
  · next i _ =>
    by_cases hi : i = .endRun
    · subst hi
      cases rest with
      | nil => exact moves_of_state (t := finish (popTo w [] s)) rfl (by rw [finish_state, hr]; decide)
      | cons w' rest' => exact moves_raise hr .cmdNotRunning w' (popTo w (w' :: rest') s)
    · refine ⟨_, exec_eq hi _, fun he => ?_⟩
      have hpop : rest = s.queue := congrArg State.queue he
      simp [hq] at hpop

/-- No burst begin step leads back to its own micro-state: a burst of no frames goes on to a later slot, if any. -/
theorem msAfterBegin_ne (c : RunConfig) (f k : Nat) (ctx : Ctx) : msAfterBegin c f k ctx ≠ .atBegin f k ctx := by
  unfold msAfterBegin
  split
  · cases ctx with
    | single => simp [msAfterBurst]
    | byte v j =>
      simp only [msAfterBurst]
      split <;> simp
  · simp

/-- Every burst begin step is a move: it leaves the micro-state (R106). -/
theorem moves_burstBegin (hv : s.cfg.validate = .none) {f k : Nat} {ctx : Ctx} (hm : s.ms = .atBegin f k ctx) :
    Moves (burstBegin f k ctx s) s := by
  rw [burstBegin_eq, if_pos hv]
  exact ⟨_, rfl, fun he => msAfterBegin_ne s.cfg f k ctx ((congrArg State.ms he).trans hm)⟩

/-- A frame step is a move where the sink accepts or a counter overflows: an overflow leaves RUN, and a frame adds `fL` to
the clock (R107, R172). -/
theorem moves_frameStepWith (hr : s.state = .run) (hv : s.cfg.validate = .none) (bytes : List Byte)
    {after : State → State} (hafter : ∀ u, (after u).clock = u.clock)
    (he : (s.sinkAccepts || s.countOverflows || s.clockOverflows) = true) : Moves (frameStepWith bytes after s) s := by
  unfold frameStepWith
  split
  · exact moves_raise hr _ _ _
  · next h1 =>
    split
    · exact moves_raise hr _ _ _
    · next h2 =>
      have h3 : s.sinkAccepts = true := by simpa [h1, h2] using he
      rw [if_pos h3]
      refine ⟨_, rfl, fun heq => ?_⟩
      have hclock : s.clock + s.cfg.fL = s.clock := (hafter _).symm.trans (congrArg State.clock heq)
      have hpos := (legal_pos hv).2.2
      omega

/-- A frame step holds while the sink does not accept and no counter overflows (R66). -/
theorem frameStepWith_of_not_enabled (bytes : List Byte) (after : State → State)
    (he : (s.sinkAccepts || s.countOverflows || s.clockOverflows) = false) : frameStepWith bytes after s = .next s := by
  simp only [Bool.or_eq_false_iff] at he
  obtain ⟨⟨h3, h1⟩, h2⟩ := he
  simp [frameStepWith, h1, h2, h3]

/-- With a legal configuration the frame step is the shared one (R107). -/
theorem frameStep_of_legal (hv : s.cfg.validate = .none) (f r P : Nat) (ctx : Ctx) :
    frameStep f r P ctx s = frameStepWith (s.build.toneFrame s.cfg P) (afterFrame f r P ctx) s := if_neg (not_not.mpr hv)

/-- With a legal configuration the silence frame step is the shared one (R172). -/
theorem silenceStep_of_legal (hv : s.cfg.validate = .none) (r : Nat) :
    silenceStep r s = frameStepWith s.cfg.midFrame (afterSilence r) s := if_neg (not_not.mpr hv)

/-- Where a run has a legal configuration, the engine's move with no enabled step leaves the state as it is. -/
theorem engineStep_of_not_enabled (hv : s.state = .run → s.cfg.validate = .none) (he : s.engineEnabled = false) :
    engineStep s = .next s := by
  unfold State.engineEnabled at he
  unfold engineStep
  cases hr : s.state with
  | idle | done | error => rfl
  | run =>
    simp only [hr] at he
    simp only
    cases hm : s.ms with
    | ready =>
      have hq : s.queue = [] := by simpa [hm, State.cmdqEmpty] using he
      simp only [dispatchStep, hq]
    | atBegin f k ctx => simp [hm] at he
    | burst f r P ctx =>
      simp only [hm] at he
      simp only [frameStep_of_legal (hv hr)]
      exact frameStepWith_of_not_enabled _ _ he
    | silence r =>
      simp only [hm] at he
      simp only [silenceStep_of_legal (hv hr)]
      exact frameStepWith_of_not_enabled _ _ he

/-- Where a run has a legal configuration, every enabled step is a move. -/
theorem moves_engineStep (hv : s.state = .run → s.cfg.validate = .none) (he : s.engineEnabled = true) :
    Moves (engineStep s) s := by
  unfold State.engineEnabled at he
  unfold engineStep
  cases hr : s.state with
  | idle | done | error => simp [hr] at he
  | run =>
    simp only [hr] at he
    simp only
    cases hm : s.ms with
    | ready =>
      cases hq : s.queue with
      | nil => simp [hm, State.cmdqEmpty, hq] at he
      | cons w rest =>
        simp only [dispatchStep, hq]
        exact moves_dispatchWord hr hq
    | atBegin f k ctx => exact moves_burstBegin (hv hr) hm
    | burst f r P ctx =>
      simp only [hm] at he
      simp only [frameStep_of_legal (hv hr)]
      exact moves_frameStepWith hr (hv hr) _ (fun u => by rw [afterFrame_eq, setMs_clock]) he
    | silence r =>
      simp only [hm] at he
      simp only [silenceStep_of_legal (hv hr)]
      exact moves_frameStepWith hr (hv hr) _ (fun u => by rw [afterSilence_eq, setMs_clock]) he

end

/-- Settles O37: a wait where nothing is enabled, and a change of the FIFO, the micro-state, the clock or STATE otherwise. -/
theorem engineMovesExactlyWhenEnabled : Obligations.EngineMovesExactlyWhenEnabled :=
  fun _ hv => ⟨engineStep_of_not_enabled hv, moves_engineStep hv⟩

end Sys2Proof.Machine
end

section
/-! What a step does to STATE and to CLOCK, from the inversion lemmas of the moves. -/
namespace Sys2Proof.Machine
open Sys2Proof.Safety

/-! ### STATE (R25) -/

/-- Outside ERROR, taking an error records its code. -/
theorem raise_errCode {s : State} (h : s.state ≠ .error) (c : ErrCode) (info : Word) : (raise c info s).errCode = c := by
  rw [raise_of_ne c info s h]

/-- Outside RUN the completion of a held push leaves the FIFO as it is. -/
theorem completeHeld_queue_of_ne_run {s : State} (h : s.state ≠ .run) : (completeHeld s).queue = s.queue := by
  rcases completeHeld_cases s with he | ⟨w, -, hr, -⟩ | ⟨-, -, he⟩
  · rw [he]
  · exact absurd hr h
  · rw [he]

/-- The engine's move keeps STATE, or takes a run to DONE or to ERROR (R174, R201). -/
theorem engineMove_state {s u : State} (h : EngineMove s u) :
    u.state = s.state ∨ (s.state = .run ∧ u.state = .done ∧ u.queue = [] ∧ u.ms = .ready) ∨
      (s.state = .run ∧ u.state = .error ∧ u.errCode ≠ .none) := by
  cases h with
  | rests | starts | begins | toneFrame | midFrame => exact .inl rfl
  | finishes w hr _ _ _ => exact .inr (.inl ⟨hr, rfl, rfl, rfl⟩)
  | faults c info s₀ hr hs hc =>
    have hne : s₀.state ≠ .error := by
      rcases hs with rfl | ⟨w, rest, -, -, rfl⟩ <;> simp [hr]
    exact .inr (.inr ⟨hr, raise_state c info s₀, by rwa [raise_errCode hne]⟩)

/-- What the host can do to STATE and CLOCK: keep both, reset the block, begin a run, or record a fault. -/
def HostChange (s u : State) : Prop :=
  (u.state = s.state ∧ u.clock = s.clock) ∨ (∃ s₀, u = resetBlock s₀) ∨
    ((s.state = .idle ∨ s.state = .done) ∧ s.cfg.validate = .none ∧ ∃ s₀, u = beginRun s₀) ∨
    (s.state ≠ .error ∧ u.state = .error ∧ u.errCode ≠ .none ∧ u.clock = s.clock)

/-- Every register write is such a change. -/
theorem writeEffect_hostChange {off : BitVec 8} {v : Word} {s u : State} (h : WriteEffect off v s u) : HostChange s u := by
  cases h with
  | ignored | configures | appends | holds => exact .inl ⟨rfl, rfl⟩
  | resets _ => exact .inr (.inl ⟨s, rfl⟩)
  | beginsRun _ hs hv => exact .inr (.inr (.inl ⟨hs, hv, s, rfl⟩))
  | faults c info hs hc =>
    exact .inr (.inr (.inr ⟨hs, raise_state c info s, by rwa [raise_errCode hs], raise_clock c info s⟩))

/-- Every move of the host is such a change. -/
theorem hostMove_hostChange {s u : State} (h : HostMove s u) : HostChange s u := by
  cases h with
  | waits | reads | polls => exact .inl ⟨rfl, rfl⟩
  | writes _ off v rest _ _ _ =>
    exact writeEffect_hostChange (s := { s with hostProg := rest }) (hostWrite_effect off v _)

/-- Settles O24: by the inversion lemma of a step, each agent's move makes one of the stated transitions, and the completion
of a held push makes none. -/
theorem onlyTheStatedTransitions : Obligations.OnlyTheStatedTransitions := by
  intro s t h
  obtain ⟨u, rfl, hu | hu | ⟨b, rfl⟩ | ⟨rfl, -⟩⟩ := step_cases h
  · rcases engineMove_state hu with h | ⟨hr, hd, hq, hm⟩ | ⟨hr, he, hc⟩
    · exact .inl ((completeHeld_state u).trans h)
    · refine .inr (.inr (.inr (.inr (.inl ⟨hr, (completeHeld_state u).trans hd, ?_, (completeHeld_ms u).trans hm⟩))))
      rw [completeHeld_queue_of_ne_run (by simp [hd]), hq]
    · exact .inr (.inr (.inr (.inr (.inr ⟨hr, (completeHeld_state u).trans he, by rwa [completeHeld_errCode]⟩))))
  · rcases hostMove_hostChange hu with ⟨h, -⟩ | ⟨s₀, rfl⟩ | ⟨hs, hv, s₀, rfl⟩ | ⟨hs, he, hc, -⟩
    · exact .inl ((completeHeld_state u).trans h)
    · exact .inr (.inl (blockIsReset_completeHeld_resetBlock s₀))
    · exact .inr (.inr (.inl ⟨hs, completeHeld_state _, hv, completeHeld_clock _, completeHeld_bytesWritten _⟩))
    · have hfault : (completeHeld u).state = .error ∧ (completeHeld u).errCode ≠ .none :=
        ⟨(completeHeld_state u).trans he, by rwa [completeHeld_errCode]⟩
      cases hst : s.state with
      | run => exact .inr (.inr (.inr (.inr (.inr ⟨rfl, hfault⟩))))
      | idle => exact .inr (.inr (.inr (.inl ⟨.inl rfl, hfault⟩)))
      | done => exact .inr (.inr (.inr (.inl ⟨.inr rfl, hfault⟩)))
      | error => exact absurd hst hs
  · exact .inl (completeHeld_state _)
  · exact .inr (.inl (blockIsReset_completeHeld_resetBlock _))

/-! ### CLOCK (R36, R37) -/

/-- In a burst that overflows no counter the port offers the frame of the phase index (R107). -/
theorem offered_of_burst {s : State} {f r P : Nat} {ctx : Ctx} (hr : s.state = .run) (hm : s.ms = .burst f r P ctx)
    (h1 : s.countOverflows = false) (h2 : s.clockOverflows = false) :
    s.offered = some (s.build.toneFrame s.cfg P) := by
  unfold State.offered
  rw [if_pos ⟨hr, h1, h2⟩, hm]

/-- In a silence that overflows no counter the port offers the mid-level frame (R172). -/
theorem offered_of_silence {s : State} {r : Nat} (hr : s.state = .run) (hm : s.ms = .silence r)
    (h1 : s.countOverflows = false) (h2 : s.clockOverflows = false) : s.offered = some s.cfg.midFrame := by
  unfold State.offered
  rw [if_pos ⟨hr, h1, h2⟩, hm]

/-- The engine's move changes CLOCK only at a burst's begin step and with the offered frame (R106, R107, R172). -/
theorem engineMove_clock {s u : State} (h : EngineMove s u) :
    u.clock = s.clock ∨ (s.state = .run ∧ (∃ f k ctx, s.ms = .atBegin f k ctx) ∧ u.clock = s.cfg.snap s.clock) ∨
      (s.state = .run ∧ (∃ frame, s.offered = some frame ∧ u.stream = s.stream ++ frame) ∧
        u.clock = s.clock + s.cfg.fL) := by
  cases h with
  | rests | starts | finishes => exact .inl rfl
  | faults c info s₀ _ hs _ =>
    rw [raise_clock]
    rcases hs with rfl | ⟨w, rest, -, -, rfl⟩ <;> exact .inl rfl
  | begins f k ctx hr hm _ => exact .inr (.inl ⟨hr, ⟨f, k, ctx, hm⟩, rfl⟩)
  | toneFrame f r P ctx hr hm _ h1 h2 _ => exact .inr (.inr ⟨hr, ⟨_, offered_of_burst hr hm h1 h2, rfl⟩, rfl⟩)
  | midFrame r hr hm _ h1 h2 _ => exact .inr (.inr ⟨hr, ⟨_, offered_of_silence hr hm h1 h2, rfl⟩, rfl⟩)

/-- Settles O40: by the inversion lemma of a step; the completion of a held push changes neither CLOCK nor the stream. -/
theorem clockChangesOnlyAsStated : Obligations.ClockChangesOnlyAsStated := by
  intro s t h
  obtain ⟨u, rfl, hu | hu | ⟨b, rfl⟩ | ⟨rfl, -⟩⟩ := step_cases h
  · rw [completeHeld_clock, completeHeld_stream]
    rcases engineMove_clock hu with h | h | h
    · exact .inl h
    · exact .inr (.inl h)
    · exact .inr (.inr (.inl h))
  · rcases hostMove_hostChange hu with ⟨-, h⟩ | ⟨s₀, rfl⟩ | ⟨hs, -, s₀, rfl⟩ | ⟨-, -, -, h⟩
    · exact .inl ((completeHeld_clock u).trans h)
    · exact .inr (.inr (.inr ⟨completeHeld_clock _, .inl (blockIsReset_completeHeld_resetBlock s₀)⟩))
    · have hne : (advance s).state ≠ .run := by rcases hs with hs | hs <;> simp [hs]
      exact .inr (.inr (.inr ⟨completeHeld_clock _, .inr ⟨hne, completeHeld_state _⟩⟩))
    · exact .inl ((completeHeld_clock u).trans h)
  · exact .inl (completeHeld_clock _)
  · exact .inr (.inr (.inr ⟨completeHeld_clock _, .inl (blockIsReset_completeHeld_resetBlock _)⟩))

/-- The engine's move does not change CLOCK_HI_SHADOW. -/
theorem engineMove_clockHiShadow {s u : State} (h : EngineMove s u) : u.clockHiShadow = s.clockHiShadow := by
  cases h with
  | faults c info s₀ _ hs _ =>
    rw [raise_clockHiShadow]
    rcases hs with rfl | ⟨w, rest, -, -, rfl⟩ <;> rfl
  | rests | starts | finishes | begins | toneFrame | midFrame => rfl

/-- A 64-bit clock is its two words. -/
theorem clock_of_halves {n : Nat} (h : n < 2 ^ 64) :
    2 ^ 32 * (BitVec.ofNat 32 (n / 2 ^ 32)).toNat + (BitVec.ofNat 32 n).toNat = n := by
  rw [BitVec.toNat_ofNat, BitVec.toNat_ofNat]
  omega

/-- Settles O18: the read of CLOCK_LO latches the upper word, and no engine step changes the latch. -/
theorem clockReadsAsOneValue : Obligations.ClockReadsAsOneValue := by
  intro s
  refine ⟨rfl, rfl, hostRead_of_ne (by decide) s, fun t ht => engineMove_clockHiShadow (engineStep_cases ht),
    fun t ht hlt => ?_, rfl⟩
  have hlatch : t.clockHiShadow = BitVec.ofNat 32 (s.clock / 2 ^ 32) := engineMove_clockHiShadow (engineStep_cases ht)
  show 2 ^ 32 * t.clockHiShadow.toNat + (BitVec.ofNat 32 s.clock).toNat = s.clock
  rw [hlatch]
  exact clock_of_halves hlt

end Sys2Proof.Machine
end

section
/-! What a run still owes, seen from the micro-state: each engine step emits just what it takes off the debt (R106, R107, R108,
R172). -/
namespace Sys2Proof.Machine
open Sys2Proof.Safety

/-- Between commands nothing is owed. -/
@[simp] theorem msBytes_ready (b : Build) (c : RunConfig) : msBytes b c .ready = [] := rfl

/-- Between commands the clock stays. -/
@[simp] theorem msClock_ready (c : RunConfig) (n : Nat) : msClock c .ready n = n := rfl

/-! ### The end of a burst (R108, R132) -/

/-- After a burst the micro-state owes what its context owes: the byte's slots to come, or nothing. -/
theorem msBytes_afterBurst (b : Build) (c : RunConfig) (ctx : Ctx) : msBytes b c (msAfterBurst c ctx) = ctxBytes b c ctx := by
  cases ctx with
  | single => rfl
  | byte v j =>
    by_cases h : j + 1 < c.slots
    · have hn : c.slots - (j + 1) = c.slots - (j + 1 + 1) + 1 := by omega
      simp only [msAfterBurst, if_pos h, msBytes, ctxBytes, hn, slotBytes]
    · have hn : c.slots - (j + 1) = 0 := by omega
      simp only [msAfterBurst, if_neg h, msBytes, ctxBytes, hn, slotBytes]

/-- After a burst the micro-state takes the clock where its context takes it. -/
theorem msClock_afterBurst (c : RunConfig) (ctx : Ctx) (n : Nat) : msClock c (msAfterBurst c ctx) n = ctxClock c ctx n := by
  cases ctx with
  | single => rfl
  | byte v j =>
    by_cases h : j + 1 < c.slots
    · have hn : c.slots - (j + 1) = c.slots - (j + 1 + 1) + 1 := by omega
      simp only [msAfterBurst, if_pos h, msClock, ctxClock, hn, bitsClock]
    · have hn : c.slots - (j + 1) = 0 := by omega
      simp only [msAfterBurst, if_neg h, msClock, ctxClock, hn, bitsClock]

/-! ### The burst begin step (R106) -/

/-- A burst begin step emits nothing, so the debt stays. -/
theorem msBytes_afterBegin (b : Build) (c : RunConfig) (f k : Nat) (ctx : Ctx) :
    msBytes b c (msAfterBegin c f k ctx) = msBytes b c (.atBegin f k ctx) := by
  unfold msAfterBegin
  split
  · next hk => rw [msBytes_afterBurst, hk]; rfl
  · rfl

/-- A burst begin step makes the snap that the burst's clock begins with. -/
theorem msClock_afterBegin (c : RunConfig) (f k : Nat) (ctx : Ctx) (n : Nat) :
    msClock c (msAfterBegin c f k ctx) (c.snap n) = msClock c (.atBegin f k ctx) n := by
  unfold msAfterBegin
  split
  · next hk => rw [msClock_afterBurst, hk, msClock, burstClock, Nat.zero_mul, Nat.add_zero]
  · rfl

/-! ### A frame (R107, R172) -/

/-- A frame of a burst is the first of those its micro-state owes. -/
theorem msBytes_afterFrame (b : Build) (c : RunConfig) (f P : Nat) (ctx : Ctx) {r : Nat} (hr : 1 ≤ r) :
    b.toneFrame c P ++ msBytes b c (msAfterFrame c f r P ctx) = msBytes b c (.burst f r P ctx) := by
  obtain ⟨k, rfl⟩ := Nat.exists_eq_add_of_le' hr
  unfold msAfterFrame
  split
  · next hk =>
    obtain rfl : k = 0 := by omega
    rw [msBytes_afterBurst, msBytes, burstBytes, burstBytes, List.append_nil]
  · rw [msBytes, msBytes, Nat.add_sub_cancel, burstBytes, List.append_assoc]

/-- A frame of a burst adds the first `fL` ticks that its micro-state owes the clock. -/
theorem msClock_afterFrame (c : RunConfig) (f P : Nat) (ctx : Ctx) (n : Nat) {r : Nat} (hr : 1 ≤ r) :
    msClock c (msAfterFrame c f r P ctx) (n + c.fL) = msClock c (.burst f r P ctx) n := by
  obtain ⟨k, rfl⟩ := Nat.exists_eq_add_of_le' hr
  unfold msAfterFrame
  split
  · next hk =>
    obtain rfl : k = 0 := by omega
    rw [msClock_afterBurst, msClock, Nat.zero_add, Nat.one_mul]
  · rw [msClock, msClock, Nat.add_sub_cancel, Nat.add_assoc, Nat.add_comm c.fL, Nat.succ_mul]

/-- A mid-level frame is the first of those its micro-state owes. -/
theorem msBytes_afterSilence (b : Build) (c : RunConfig) {r : Nat} (hr : 1 ≤ r) :
    c.midFrame ++ msBytes b c (msAfterSilence r) = msBytes b c (.silence r) := by
  obtain ⟨k, rfl⟩ := Nat.exists_eq_add_of_le' hr
  unfold msAfterSilence
  split
  · next hk =>
    obtain rfl : k = 0 := by omega
    simp [msBytes, silenceBytes]
  · simp [msBytes, silenceBytes, List.replicate_succ]

/-- A mid-level frame adds the first `fL` ticks that its micro-state owes the clock. -/
theorem msClock_afterSilence (c : RunConfig) (n : Nat) {r : Nat} (hr : 1 ≤ r) :
    msClock c (msAfterSilence r) (n + c.fL) = msClock c (.silence r) n := by
  obtain ⟨k, rfl⟩ := Nat.exists_eq_add_of_le' hr
  unfold msAfterSilence
  split
  · next hk =>
    obtain rfl : k = 0 := by omega
    rw [msClock, msClock, Nat.zero_add, Nat.one_mul]
  · rw [msClock, msClock, Nat.add_sub_cancel, Nat.add_assoc, Nat.add_comm c.fL, Nat.succ_mul]

/-! ### The dispatch step (R170) -/

/-- A dispatched command leaves a micro-state that owes every frame of the command. -/
theorem msBytes_atDispatch (b : Build) (c : RunConfig) (i : Instr) : msBytes b c (msAtDispatch b c i) = instrBytes b c i := by
  cases i with
  | nop | endRun => rfl
  | bit v => exact List.append_nil _
  | toneS d => exact List.append_nil _
  | toneM d => exact List.append_nil _
  | silence d =>
    simp only [msAtDispatch, instrBytes]
    split
    · next hk => rw [hk]; rfl
    · rfl
  | byte v =>
    have hn : c.slots = c.slots - (0 + 1) + 1 := by have := slots_ge c; omega
    rw [instrBytes, hn]
    rfl

/-- A dispatched command leaves a micro-state that takes the clock where the command takes it. -/
theorem msClock_atDispatch (b : Build) (c : RunConfig) (i : Instr) (n : Nat) :
    msClock c (msAtDispatch b c i) n = instrClock b c i n := by
  cases i with
  | nop | endRun | bit | toneS | toneM => rfl
  | silence d =>
    simp only [msAtDispatch, instrClock]
    split
    · next hk => rw [hk, Nat.zero_mul]; rfl
    · rfl
  | byte v =>
    have hn : c.slots = c.slots - (0 + 1) + 1 := by have := slots_ge c; omega
    rw [instrClock, hn]
    rfl

end Sys2Proof.Machine
end

section
/-! A run's whole output: the engine moves bytes from what is owed to what is emitted, the host moves words from its program to
the FIFO, and neither changes the whole. From that, the determinism of a run (R75). -/
namespace Sys2Proof.Machine
open Sys2Proof.Safety

/-! ### The words to come -/

/-- The first operation's word comes first. -/
theorem pushesToCome_cons (op : HostOp) (rest : List HostOp) :
    pushesToCome (op :: rest) = (pushedWord op).toList ++ pushesToCome rest := by
  cases h : pushedWord op <;> simp [pushesToCome, h]

/-- In RUN a read of STATUS on which the host branches takes no push from its program. -/
theorem pushesToCome_after {s : State} (hr : s.state = .run) {op : HostOp} (hop : ∀ a, op ≠ .once a) (rest : List HostOp) :
    pushesToCome (op.after s.status rest) = pushesToCome (op :: rest) := by
  have hcode : s.status.toNat % 4 = 1 := by rw [status_state, hr]; rfl
  cases op with
  | once a => exact absurd rfl (hop a)
  | stopOnError report => simp [HostOp.after, hcode, pushesToCome_cons, pushedWord]
  | awaitEnd report => simp [HostOp.after, hcode]
  | awaitRoom =>
    show pushesToCome (if s.status.getLsbD 4 then .awaitRoom :: rest else rest) = _
    split <;> simp [pushesToCome_cons, pushedWord]

/-- The words of a run that wait in the FIFO, at the push port and in the host's program, in order. -/
def wordsToCome (s : State) : List Word := s.queue ++ s.heldPush.toList ++ pushesToCome s.hostProg

/-- In RUN the commands to come are those of the words to come. -/
theorem commandsToCome_of_run {s : State} (h : s.state = .run) : commandsToCome s = commandsOf (wordsToCome s) := if_pos h

/-- Outside RUN no command is to come. -/
theorem commandsToCome_of_ne_run {s : State} (h : s.state ≠ .run) : commandsToCome s = [] := if_neg h

/-- A decoded command other than END comes first of its list. -/
theorem commandsOf_cons {w : Word} {i : Instr} (hd : decode w = .ok i) (hi : i ≠ .endRun) (ws : List Word) :
    commandsOf (w :: ws) = i :: commandsOf ws := by
  rw [commandsOf, hd]
  cases i with
  | endRun => exact absurd rfl hi
  | nop | byte | bit | toneS | toneM | silence => rfl

/-- END ends the list of commands. -/
theorem commandsOf_end {w : Word} (hd : decode w = .ok .endRun) (ws : List Word) : commandsOf (w :: ws) = [] := by
  rw [commandsOf, hd]

/-! ### What the output and the clock of a run depend on -/

/-- The part of the state on which the whole output and the whole clock of a run depend. -/
structure RunView where
  build : Build
  cfg : RunConfig
  state : RunState
  ms : MicroState
  clock : Nat
  runStart : Nat
  stream : List Byte
  words : List Word

/-- That part of a state. -/
def runView (s : State) : RunView := ⟨s.build, s.cfg, s.state, s.ms, s.clock, s.runStart, s.stream, wordsToCome s⟩

/-- Outside ERROR the completion of a held push changes no word's place in the order. -/
theorem runView_completeHeld {s : State} (h : s.state ≠ .error) : runView (completeHeld s) = runView s := by
  rcases completeHeld_cases s with he | ⟨-, -, hr, -⟩ | ⟨-, he, -⟩
  · rw [he]
  · simp [runView, wordsToCome, completeHeld_words s hr]
  · exact absurd he h

/-- In RUN a register write that neither faults nor resets changes the view only by its push. -/
theorem runView_writeEffect {s u : State} {off : BitVec 8} {v : Word} {width : Nat} (hr : s.state = .run)
    (hh : s.heldPush = none) (h : WriteEffect off v s u) (hu : u.state = .run ∨ u.state = .done) :
    runView u = runView { s with hostProg := .once (.write width off v) :: s.hostProg } := by
  cases h with
  | ignored h =>
    have hoff : off.toNat ≠ 0x20 := h.resolve_right (by simp [hr])
    simp [runView, wordsToCome, pushesToCome_cons, pushedWord, hoff]
  | resets _ => simp at hu
  | beginsRun _ hs _ => simp [hr] at hs
  | faults c info _ _ => simp at hu
  | configures c _ hs => exact absurd hr hs
  | appends hoff _ _ => simp [runView, wordsToCome, pushesToCome_cons, pushedWord, hoff, hh]
  | holds hoff _ _ => simp [runView, wordsToCome, pushesToCome_cons, pushedWord, hoff, hh]

/-- In RUN a move of the host that neither faults nor resets keeps the view: it moves at most one word from its program to the
FIFO or to the push port. -/
theorem runView_hostMove {s u : State} (hr : s.state = .run) (h : HostMove s u) (hu : u.state = .run ∨ u.state = .done) :
    runView u = runView s := by
  cases h with
  | waits => rfl
  | reads width off rest _ hp _ => simp [runView, wordsToCome, hp, pushesToCome_cons, pushedWord]
  | writes width off v rest hh hp _ =>
    refine (runView_writeEffect (width := width) (s := { s with hostProg := rest }) hr hh (hostWrite_effect off v _) hu).trans ?_
    simp only [runView, wordsToCome, hp]
  | polls op rest _ hp hop => simp only [runView, wordsToCome, hp, pushesToCome_after hr hop]

/-! ### The whole is conserved -/

/-- What the steps of a run keep: its whole output, its whole clock, what it was begun with and where its output begins. -/
structure KeepsRun (s t : State) : Prop where
  output : wholeOutput t = wholeOutput s
  clock : wholeClock t = wholeClock s
  cfg : t.cfg = s.cfg
  build : t.build = s.build
  runStart : t.runStart = s.runStart

theorem KeepsRun.refl (s : State) : KeepsRun s s := ⟨rfl, rfl, rfl, rfl, rfl⟩

theorem KeepsRun.trans {s t u : State} (h : KeepsRun s t) (h' : KeepsRun t u) : KeepsRun s u :=
  ⟨h'.output.trans h.output, h'.clock.trans h.clock, h'.cfg.trans h.cfg, h'.build.trans h.build,
    h'.runStart.trans h.runStart⟩

/-- A change that the view does not see keeps the run. -/
theorem keepsRun_of_runView {s t : State} (h : runView t = runView s) : KeepsRun s t := by
  simp only [runView, RunView.mk.injEq] at h
  obtain ⟨hb, hc, hs, hm, hn, hr, ho, hw⟩ := h
  have hcmd : commandsToCome t = commandsToCome s := by
    by_cases hrun : s.state = .run
    · rw [commandsToCome_of_run hrun, commandsToCome_of_run (hs.trans hrun), hw]
    · rw [commandsToCome_of_ne_run hrun, commandsToCome_of_ne_run (by rwa [hs])]
  refine ⟨?_, ?_, hc, hb, hr⟩
  · simp only [wholeOutput, State.runStream, hb, hc, hm, hr, ho, hcmd]
  · simp only [wholeClock, hb, hc, hm, hn, hcmd]

/-- The dispatch of a command moves it from the words to come to the micro-state. -/
theorem keepsRun_dispatch {s : State} {w : Word} {rest : List Word} {i : Instr} (hr : s.state = .run) (hm : s.ms = .ready)
    (hq : s.queue = w :: rest) (hd : decode w = .ok i) (hi : i ≠ .endRun) :
    KeepsRun s (setMs (msAtDispatch s.build s.cfg i) (popTo w rest s)) := by
  have hcmd : commandsToCome s = i :: commandsToCome (setMs (msAtDispatch s.build s.cfg i) (popTo w rest s)) := by
    have hrt : (setMs (msAtDispatch s.build s.cfg i) (popTo w rest s)).state = .run := hr
    rw [commandsToCome_of_run hr, commandsToCome_of_run hrt, ← commandsOf_cons hd hi, wordsToCome, hq]
    rfl
  refine ⟨?_, ?_, rfl, rfl, rfl⟩
  · simp [wholeOutput, hcmd, hm, msBytes_atDispatch, allBytes, State.runStream]
  · simp [wholeClock, hcmd, hm, msClock_atDispatch, allClock]

/-- END takes the words to come with it, and owes nothing itself (R174). -/
theorem keepsRun_finish {s : State} {w : Word} (hr : s.state = .run) (hm : s.ms = .ready) (hq : s.queue = [w])
    (hd : decode w = .ok .endRun) : KeepsRun s (finish (popTo w [] s)) := by
  have hs : commandsToCome s = [] := by
    rw [commandsToCome_of_run hr, wordsToCome, hq]
    exact commandsOf_end hd _
  have ht : commandsToCome (finish (popTo w [] s)) = [] := rfl
  refine ⟨?_, ?_, rfl, rfl, rfl⟩
  · simp [wholeOutput, hs, ht, hm, State.runStream]
  · simp [wholeClock, hs, ht, hm]

/-- A burst begin step keeps the run. -/
theorem keepsRun_begin {s : State} {f k : Nat} {ctx : Ctx} (hm : s.ms = .atBegin f k ctx) :
    KeepsRun s (setMs (msAfterBegin s.cfg f k ctx) (snapClock s)) where
  output := by
    show s.runStream ++ msBytes s.build s.cfg (msAfterBegin s.cfg f k ctx) ++ _ = wholeOutput s
    rw [msBytes_afterBegin, ← hm]
    rfl
  clock := by
    show allClock s.build s.cfg _ (msClock s.cfg (msAfterBegin s.cfg f k ctx) (s.cfg.snap s.clock)) = wholeClock s
    rw [msClock_afterBegin, ← hm]
    rfl
  cfg := rfl
  build := rfl
  runStart := rfl

/-- An emitted frame keeps the run, where it is the first of those that the micro-state owes. -/
theorem keepsRun_emit {s : State} {frame : List Byte} {m : MicroState} (hi : Inv s)
    (hb : frame ++ msBytes s.build s.cfg m = msBytes s.build s.cfg s.ms)
    (hn : msClock s.cfg m (s.clock + s.cfg.fL) = msClock s.cfg s.ms s.clock) : KeepsRun s (setMs m (emit frame s)) where
  output := by
    have hstart : s.runStart ≤ s.stream.length := Nat.le.intro hi.tally
    have hstream : (setMs m (emit frame s)).runStream = s.runStream ++ frame := List.drop_append_of_le_length hstart
    rw [wholeOutput, wholeOutput, hstream, ← hb, ← List.append_assoc]
    rfl
  clock := by
    rw [wholeClock, wholeClock, ← hn]
    rfl
  cfg := rfl
  build := rfl
  runStart := rfl

/-- Every move of the engine that does not fault keeps the run. -/
theorem keepsRun_engineMove {s u : State} (hi : Inv s) (h : EngineMove s u) (hu : u.state ≠ .error) : KeepsRun s u := by
  have hmOk := hi.microState
  cases h with
  | rests => exact .refl s
  | starts w rest i hr hm hq hd hi => exact keepsRun_dispatch hr hm hq hd hi
  | finishes w hr hm hq hd => exact keepsRun_finish hr hm hq hd
  | faults c info s₀ _ _ _ => exact absurd (raise_state c info s₀) hu
  | begins f k ctx _ hm _ => exact keepsRun_begin hm
  | toneFrame f r P ctx _ hm _ _ _ _ =>
    rw [hm] at hmOk
    obtain ⟨-, hr, -⟩ := hmOk
    exact keepsRun_emit hi (by rw [hm, msBytes_afterFrame _ _ _ _ _ hr]) (by rw [hm, msClock_afterFrame _ _ _ _ _ hr])
  | midFrame r _ hm _ _ _ _ =>
    rw [hm] at hmOk
    exact keepsRun_emit hi (by rw [hm, msBytes_afterSilence _ _ hmOk]) (by rw [hm, msClock_afterSilence _ _ hmOk])

/-- Every step of a run that neither faults nor resets keeps the run. -/
theorem keepsRun_step {s t : State} (hi : Inv s) (hr : s.state = .run) (h : step s = .next t)
    (ht : t.state = .run ∨ t.state = .done) : KeepsRun s t := by
  have ha : Inv (advance s) := { hi with }
  obtain ⟨u, rfl, hmove⟩ := step_cases h
  rw [completeHeld_state] at ht
  have hne : u.state ≠ .error := by rcases ht with ht | ht <;> simp [ht]
  have hmoved : KeepsRun (advance s) u := by
    obtain hu | hu | ⟨b, rfl⟩ | ⟨rfl, -⟩ := hmove
    · exact keepsRun_engineMove ha hu hne
    · exact keepsRun_of_runView (runView_hostMove (s := advance s) hr hu ht)
    · exact keepsRun_of_runView rfl
    · simp at ht
  exact (keepsRun_of_runView (s := s) (t := advance s) rfl).trans
    (hmoved.trans (keepsRun_of_runView (runView_completeHeld hne)))

/-- Settles O41: the engine's moves take off the debt what they emit, and no other move changes what the whole depends on. -/
theorem wholeOutputIsConserved : Obligations.WholeOutputIsConserved := by
  intro s t hi hr h ht
  obtain ⟨houtput, hclock, hcfg, hbuild, -⟩ := keepsRun_step hi hr h ht
  exact ⟨houtput, hclock, hcfg, hbuild⟩

/-! ### A run from START to DONE (R75) -/

/-- A run's states before the last are in RUN. -/
theorem runFor_state {n : Nat} {s t : State} (h : runFor n s t) : s = t ∨ s.state = .run := by
  cases n with
  | zero => exact .inl h
  | succ n => exact .inr h.1

/-- All the steps of a run that ends in RUN or DONE keep the run and the invariant. -/
theorem keepsRun_runFor {n : Nat} {s t : State} (hi : Inv s) (h : runFor n s t) (ht : t.state = .run ∨ t.state = .done) :
    KeepsRun s t ∧ Inv t := by
  induction n generalizing s with
  | zero =>
    obtain rfl : s = t := h
    exact ⟨.refl s, hi⟩
  | succ n ih =>
    obtain ⟨hr, u, hstep, hrun⟩ := h
    have hu : u.state = .run ∨ u.state = .done := by
      rcases runFor_state hrun with rfl | hu
      · exact ht
      · exact .inl hu
    obtain ⟨hkeeps, hinv⟩ := ih (everyStepKeepsTheInvariant s u hi hstep) hrun
    exact ⟨(keepsRun_step hi hr hstep hu).trans hkeeps, hinv⟩

/-- A run that has just begun owes the commands of the words its host has still to push. -/
theorem commandsToCome_of_fresh {s : State} (h : freshRun s) : commandsToCome s = commandsOf (pushesToCome s.hostProg) := by
  obtain ⟨-, hr, -, -, hq, -, hh, -⟩ := h
  rw [commandsToCome_of_run hr, wordsToCome, hq, hh]
  rfl

/-- The whole output of a run that has just begun is every frame of its commands. -/
theorem wholeOutput_of_fresh {s : State} (h : freshRun s) :
    wholeOutput s = allBytes s.build s.cfg (commandsOf (pushesToCome s.hostProg)) := by
  have hcmd := commandsToCome_of_fresh h
  obtain ⟨-, -, -, -, -, hm, -, hstart⟩ := h
  rw [wholeOutput, hcmd, hm, State.runStream, hstart, List.drop_length]
  rfl

/-- The whole clock of a run that has just begun is that of its commands from 0 on. -/
theorem wholeClock_of_fresh {s : State} (h : freshRun s) :
    wholeClock s = allClock s.build s.cfg (commandsOf (pushesToCome s.hostProg)) 0 := by
  have hcmd := commandsToCome_of_fresh h
  obtain ⟨-, -, hclock, -, -, hm, -, -⟩ := h
  rw [wholeClock, hcmd, hm, hclock, msClock_ready]

/-- In DONE nothing is owed: the whole output and the whole clock are what stands in the state. -/
theorem whole_of_done {t : State} (hi : Inv t) (h : t.state = .done) :
    wholeOutput t = t.runStream ∧ wholeClock t = t.clock := by
  have hne : t.state ≠ .run := by simp [h]
  obtain ⟨-, hm⟩ := hi.quietOutsideRun hne
  have hcmd := commandsToCome_of_ne_run hne
  constructor
  · simp [wholeOutput, hcmd, hm, allBytes]
  · simp [wholeClock, hcmd, hm, allClock]

/-- BYTES_WRITTEN is the length of the run's output (R154). -/
theorem bytesWritten_of_inv {t : State} (hi : Inv t) : t.bytesWritten = t.runStream.length := by
  have htally := hi.tally
  rw [State.runStream, List.length_drop]
  omega

/-- What a run from START to DONE leaves, from its configuration and the words pushed: its output is every frame of their
commands, and its clock is that of the commands from 0 on. -/
theorem completedRun {n : Nat} {s t : State} (hs : freshRun s) (h : runFor n s t) (ht : t.state = .done) :
    t.stream.drop s.stream.length = allBytes s.build s.cfg (commandsOf (pushesToCome s.hostProg)) ∧
      t.bytesWritten = (t.stream.drop s.stream.length).length ∧
      t.clock = allClock s.build s.cfg (commandsOf (pushesToCome s.hostProg)) 0 := by
  have houtput := wholeOutput_of_fresh hs
  have hclock := wholeClock_of_fresh hs
  obtain ⟨hi, -, -, -, -, -, -, hstart⟩ := hs
  obtain ⟨hkeeps, hit⟩ := keepsRun_runFor hi h (.inr ht)
  obtain ⟨hoEnd, hcEnd⟩ := whole_of_done hit ht
  have hstream : t.runStream = t.stream.drop s.stream.length := by rw [State.runStream, hkeeps.runStart, hstart]
  rw [← hstream]
  exact ⟨by rw [← hoEnd, hkeeps.output, houtput], bytesWritten_of_inv hit, by rw [← hcEnd, hkeeps.clock, hclock]⟩

/-- Settles O42: what both runs leave is the one function of the configuration and the words pushed. -/
theorem outputIsIndependentOfTheInterleaving : Obligations.OutputIsIndependentOfTheInterleaving := by
  intro s₁ s₂ t₁ t₂ m n hs₁ hs₂ hbuild hcfg hcmds hrun₁ hrun₂ ht₁ ht₂
  obtain ⟨hout₁, hlen₁, hclock₁⟩ := completedRun hs₁ hrun₁ ht₁
  obtain ⟨hout₂, hlen₂, hclock₂⟩ := completedRun hs₂ hrun₂ ht₂
  have hout : t₁.stream.drop s₁.stream.length = t₂.stream.drop s₂.stream.length := by
    rw [hout₁, hout₂, hbuild, hcfg, hcmds]
  refine ⟨hout, ?_, ?_⟩
  · rw [hlen₁, hlen₂, hout]
  · rw [hclock₁, hclock₂, hbuild, hcfg, hcmds]

end Sys2Proof.Machine
end

section
/-! The stream grows by whole frames, each one that the port offered (R60, R66, R67). -/
namespace Sys2Proof.Machine

/-- The engine's move appends to the stream nothing, or the frame the port offers while the sink accepts it. -/
theorem engineMove_stream {s u : State} (h : EngineMove s u) :
    u.stream = s.stream ∨ (s.sinkAccepts = true ∧ ∃ frame, s.offered = some frame ∧ u.stream = s.stream ++ frame) := by
  cases h with
  | rests | starts | finishes | begins => exact .inl rfl
  | faults c info s₀ _ hs _ =>
    rw [raise_stream]
    rcases hs with rfl | ⟨w, rest, -, -, rfl⟩ <;> exact .inl rfl
  | toneFrame f r P ctx hr hm _ h1 h2 h3 => exact .inr ⟨h3, _, offered_of_burst hr hm h1 h2, rfl⟩
  | midFrame r hr hm _ h1 h2 h3 => exact .inr ⟨h3, _, offered_of_silence hr hm h1 h2, rfl⟩

/-- No register write changes the stream. -/
theorem writeEffect_stream {off : BitVec 8} {v : Word} {s u : State} (h : WriteEffect off v s u) : u.stream = s.stream := by
  cases h with
  | faults c info _ _ => exact raise_stream c info s
  | ignored | resets | beginsRun | configures | appends | holds => rfl

/-- No move of the host changes the stream. -/
theorem hostMove_stream {s u : State} (h : HostMove s u) : u.stream = s.stream := by
  cases h with
  | writes _ off v rest _ _ _ => exact writeEffect_stream (s := { s with hostProg := rest }) (hostWrite_effect off v _)
  | waits | reads | polls => rfl

/-- Settles O39: by the inversion lemma of a step, only the engine's move appends to the stream. -/
theorem streamGrowsByTheOfferedFrame : Obligations.StreamGrowsByTheOfferedFrame := by
  intro s t h
  obtain ⟨u, rfl, hu | hu | ⟨b, rfl⟩ | ⟨rfl, -⟩⟩ := step_cases h <;> rw [completeHeld_stream]
  · exact engineMove_stream (s := advance s) hu
  · exact .inl (hostMove_stream (s := advance s) hu)
  · exact .inl rfl
  · exact .inl rfl

end Sys2Proof.Machine
end

section
/-! The host's port: offsets without a register or without a write, accesses outside the interface, and the held push. -/
namespace Sys2Proof.Machine

/-! ### Unmapped, read-only and write-only offsets (R62) -/

/-- From 0x30 on no offset has a register to read. -/
theorem readValue_unmapped (s : State) {off : BitVec 8} (h : 0x30 ≤ off.toNat) : s.readValue off = 0 := by
  unfold State.readValue
  split
  case h_11 => rfl
  all_goals omega

/-- From 0x30 on no offset has a register to write. -/
theorem hostWrite_unmapped (v : Word) (s : State) {off : BitVec 8} (h : 0x30 ≤ off.toNat) : hostWrite off v s = s := by
  unfold hostWrite
  split
  case h_7 => rfl
  all_goals omega

/-- Settles O12: neither the unmapped nor the read-only offsets are among those a write acts on. -/
theorem unmappedAndReadOnlyOffsets : Obligations.UnmappedAndReadOnlyOffsets := by
  refine ⟨fun s off v h => ⟨readValue_unmapped s h, hostWrite_unmapped v s h⟩, fun s off v h => ?_,
    fun _ => ⟨rfl, rfl⟩, fun _ _ => ⟨rfl, rfl⟩⟩
  rcases h with rfl | rfl | rfl | rfl | rfl | rfl <;> rfl

/-! ### Accesses outside the interface (R61) -/

/-- An access outside the interface is refused. -/
theorem access_refused {width : Nat} {off : BitVec 8} (h : ¬(width = 4 ∧ off.toNat % 4 = 0)) (v : Word) (s : State) :
    access (.read width off) s = .refused .accessOutsideInterface ∧
      access (.write width off v) s = .refused .accessOutsideInterface := by
  simp [access, inInterface, h]

/-- An access inside the interface reads or writes its register. -/
theorem access_inside {width : Nat} {off : BitVec 8} (h : width = 4 ∧ off.toNat % 4 = 0) (v : Word) (s : State) :
    access (.read width off) s = .next (hostRead off s) ∧ access (.write width off v) s = .next (hostWrite off v s) := by
  simp [access, inInterface, h]

/-- The host's turn with an access next in program order takes that access. -/
theorem step_of_access {s : State} {sched : List Move} {a : Access} {rest : List HostOp} (hs : s.schedule = .host :: sched)
    (hh : s.heldPush = none) (hp : s.hostProg = .once a :: rest) :
    step s = settle (access a { s with schedule := sched, hostProg := rest }) := by
  simp only [step, agentMove, hs, takeMove, hostTurn, hh, hp, hostOp]

/-- With no push held there is nothing to complete after a move. -/
theorem settle_of_none {s : State} (h : s.heldPush = none) : settle (.next s) = .next s := by
  rw [settle, completeHeld_of_none h]

/-- Settles O13: the host's turn takes the access, which the interface refuses or admits; no push is held for the completion
after a read. -/
theorem accessesOutsideTheInterfaceAreRefused : Obligations.AccessesOutsideTheInterfaceAreRefused := by
  rintro s s₀ width off v sched rest hs hh rfl
  constructor
  · intro hp
    rw [step_of_access hs hh hp]
    refine ⟨fun h => ?_, fun h => ?_⟩
    · rw [(access_refused h v _).1, settle]
    · rw [(access_inside h v _).1]
      exact settle_of_none hh
  · intro hp
    rw [step_of_access hs hh hp]
    refine ⟨fun h => ?_, fun h => ?_⟩
    · rw [(access_refused h v _).2, settle]
    · rw [(access_inside h v _).2]

/-! ### The held push (R65) -/

/-- A step is the agent's move and then the completion of a held push. -/
theorem step_of_agentMove {s u : State} (h : agentMove s = .next u) : step s = .next (completeHeld u) := by
  rw [step, h, settle]

/-- Settles O17: the step is the move and the completion after it, which goes by STATE and the FIFO's room. -/
theorem heldPushCompletes : Obligations.HeldPushCompletes := by
  constructor
  · intro s w hh
    rw [hostTurn, hh]
  · intro s u w hmove hh
    rw [step_of_agentMove hmove]
    refine ⟨fun hr hq => ?_, fun he => ?_, fun hr hq => ?_⟩
    · simp [completeHeld, hh, hr, hq]
    · simp [completeHeld, hh, he]
    · simp [completeHeld, hh, hr, hq]

end Sys2Proof.Machine
end

section
/-! The command encoding (R80 to R85): what the decoder can answer, said once, and from it that encoder and decoder are inverse
to each other, which words are illegal, and what an operand is. -/
namespace Sys2Proof.Laws
open Sys2Proof.Machine

/-! ### Fields of a word (R80) -/

/-- A field of a word is its bits `hi` to `lo`. -/
theorem field_eq_extractLsb' (hi lo : Nat) (w : Word) : field hi lo w = (w.extractLsb' lo (hi + 1 - lo)).toNat := by
  rw [field, BitVec.extractLsb'_toNat, Nat.shiftRight_eq_div_pow]

/-- The opcode field is what stands above the low 28 bits. -/
theorem field_opcode (w : Word) : field 31 28 w = w.toNat / 2 ^ 28 := by
  have hw := w.isLt
  unfold field
  omega

/-- The argument field is the low 28 bits. -/
theorem field_argument (w : Word) : field 27 0 w = w.toNat % 2 ^ 28 := by
  unfold field
  omega

/-- A field within the argument whose upper end is bit 27 is what stands above the argument's low bits. -/
theorem field_reserved {lo : Nat} (hlo : lo ≤ 28) (w : Word) : field 27 lo w = field 27 0 w / 2 ^ lo := by
  have hpow : 2 ^ 28 = 2 ^ lo * 2 ^ (28 - lo) := by rw [← pow_add, Nat.add_sub_cancel' hlo]
  rw [field_argument, hpow, Nat.mod_mul_right_div_self, field]

/-- A field within the argument whose lower end is bit 0 is the argument's low bits. -/
theorem field_operand {hi : Nat} (hhi : hi ≤ 27) (w : Word) : field hi 0 w = field 27 0 w % 2 ^ (hi + 1) := by
  rw [field_argument, Nat.mod_mod_of_dvd _ (pow_dvd_pow 2 (by omega)), field, pow_zero, Nat.div_one, Nat.sub_zero]

/-! ### What the decoder answers (R83, R84) -/

/-- What makes a word illegal (R84): a reserved opcode, or a 1 in a reserved bit of NOP, END, BYTE or BIT. -/
def wordIllegal (w : Word) : Prop :=
  7 ≤ field 31 28 w ∨ ((field 31 28 w = 0 ∨ field 31 28 w = 6) ∧ field 27 0 w ≠ 0) ∨
    (field 31 28 w = 1 ∧ field 27 8 w ≠ 0) ∨ (field 31 28 w = 2 ∧ field 27 1 w ≠ 0)

/-- The word `w` holds the command `i`: `i` is well formed, and its opcode and argument are the word's two fields (R80). -/
def holdsCommand (w : Word) (i : Instr) : Prop :=
  i.wf = true ∧ field 31 28 w = opcode i ∧ field 27 0 w = argument i

/-- All that the decoder can answer. -/
inductive DecodeAnswer (w : Word) : Except Illegal Instr → Prop
  | legal (i : Instr) (h : holdsCommand w i) : DecodeAnswer w (.ok i)
  | illegal (e : Illegal) (h : wordIllegal w) : DecodeAnswer w (.error e)

/-- The inversion lemma of the decoder. -/
theorem decode_answer (w : Word) : DecodeAnswer w (decode w) := by
  have harg : field 27 0 w < 2 ^ 28 := by rw [field_argument]; exact Nat.mod_lt _ (by decide)
  have hbyte := field_reserved (lo := 8) (by decide) w
  have hbit := field_reserved (lo := 1) (by decide) w
  have hv : field 7 0 w = field 27 0 w % 2 ^ 8 := field_operand (by decide) w
  have hb : field 0 0 w = field 27 0 w % 2 := field_operand (by decide) w
  unfold decode
  split
  · next ho =>
    split
    · next ha => exact .legal _ ⟨rfl, ho, ha⟩
    · next ha => exact .illegal _ (.inr (.inl ⟨.inl ho, ha⟩))
  · next ho =>
    split
    · next ha => exact .legal _ ⟨decide_eq_true (by omega), ho, by simp only [argument]; omega⟩
    · next ha => exact .illegal _ (.inr (.inr (.inl ⟨ho, ha⟩)))
  · next ho =>
    split
    · next ha => exact .legal _ ⟨decide_eq_true (by omega), ho, by simp only [argument]; omega⟩
    · next ha => exact .illegal _ (.inr (.inr (.inr ⟨ho, ha⟩)))
  · next ho => exact .legal _ ⟨decide_eq_true harg, ho, rfl⟩
  · next ho => exact .legal _ ⟨decide_eq_true harg, ho, rfl⟩
  · next ho => exact .legal _ ⟨decide_eq_true harg, ho, rfl⟩
  · next ho =>
    split
    · next ha => exact .legal _ ⟨rfl, ho, ha⟩
    · next ha => exact .illegal _ (.inr (.inl ⟨.inr ho, ha⟩))
  · next h0 h1 h2 h3 h4 h5 h6 =>
    simp only [imp_false] at h0 h1 h2 h3 h4 h5 h6
    exact .illegal _ (.inl (by omega))

/-- A word that holds a command is not illegal. -/
theorem not_wordIllegal_of_holdsCommand {w : Word} {i : Instr} (h : holdsCommand w i) : ¬wordIllegal w := by
  obtain ⟨hwf, hop, harg⟩ := h
  have hbyte := field_reserved (lo := 8) (by decide) w
  have hbit := field_reserved (lo := 1) (by decide) w
  unfold wordIllegal
  cases i with
  | byte x | bit x =>
    have hx := of_decide_eq_true hwf
    simp only [opcode, argument] at hop harg
    omega
  | nop | toneS | toneM | silence | endRun =>
    simp only [opcode, argument] at hop harg
    omega

/-- The command with a given opcode and argument. -/
def instrOf : Nat → Nat → Instr
  | 0, _ => .nop
  | 1, v => .byte v
  | 2, b => .bit b
  | 3, d => .toneS d
  | 4, d => .toneM d
  | 5, d => .silence d
  | _, _ => .endRun

/-- A command is known by its opcode and its argument. -/
theorem instrOf_fields (i : Instr) : instrOf (opcode i) (argument i) = i := by cases i <;> rfl

/-- A word holds one command at most. -/
theorem instr_eq_of_holdsCommand {w : Word} {i j : Instr} (hi : holdsCommand w i) (hj : holdsCommand w j) : i = j := by
  obtain ⟨-, hiop, hiarg⟩ := hi
  obtain ⟨-, hjop, hjarg⟩ := hj
  rw [← instrOf_fields i, ← instrOf_fields j, ← hiop, ← hiarg, hjop, hjarg]

/-- A command is held by one word at most. -/
theorem word_eq_of_holdsCommand {v w : Word} {i : Instr} (hv : holdsCommand v i) (hw : holdsCommand w i) : v = w := by
  obtain ⟨-, hvop, hvarg⟩ := hv
  obtain ⟨-, hwop, hwarg⟩ := hw
  rw [field_opcode] at hvop hwop
  rw [field_argument] at hvarg hwarg
  exact BitVec.eq_of_toNat_eq (by omega)

/-- The decoder answers a command exactly where the word holds it. -/
theorem decode_eq_ok_iff {w : Word} {i : Instr} : decode w = .ok i ↔ holdsCommand w i := by
  have ha := decode_answer w
  generalize decode w = r at ha
  cases ha with
  | legal j hj =>
    constructor
    · rintro ⟨⟩
      exact hj
    · intro hi
      rw [instr_eq_of_holdsCommand hi hj]
  | illegal e hw => exact ⟨nofun, fun hi => absurd hw (not_wordIllegal_of_holdsCommand hi)⟩

/-- The decoder rejects exactly the illegal words. -/
theorem decode_eq_error_iff {w : Word} : (∃ e, decode w = .error e) ↔ wordIllegal w := by
  have ha := decode_answer w
  generalize decode w = r at ha
  cases ha with
  | legal i hi => simp [not_wordIllegal_of_holdsCommand hi]
  | illegal e hw => simp [hw]

/-! ### Encoder and decoder (R80 to R84) -/

/-- The word of a well-formed command holds that command. -/
theorem holdsCommand_encode {i : Instr} (h : i.wf = true) : holdsCommand (encode i) i := by
  have hf : EncodedFields.Statement i := by
    cases i with
    | nop => exact EncodedFields.nop
    | byte v => exact EncodedFields.byte v
    | bit b => exact EncodedFields.bit b
    | toneS d => exact EncodedFields.toneS d
    | toneM d => exact EncodedFields.toneM d
    | silence d => exact EncodedFields.silence d
    | endRun => exact EncodedFields.endRun
  obtain ⟨hop, harg⟩ := hf h
  exact ⟨h, (field_opcode _).trans hop, (field_argument _).trans harg⟩

/-- Settles O1: the word of the command holds it, so that the decoder answers it. -/
theorem decodeInvertsEncode : Obligations.DecodeInvertsEncode := fun _ h => decode_eq_ok_iff.mpr (holdsCommand_encode h)

/-- A decoded command is well formed (R82). -/
theorem wf_of_decode {w : Word} {i : Instr} (h : decode w = .ok i) : i.wf = true := (decode_eq_ok_iff.mp h).1

/-- Settles O2: the word and the encoding of what it decodes to hold the same command. -/
theorem encodeInvertsDecode : Obligations.EncodeInvertsDecode := fun _ _ h =>
  ⟨wf_of_decode h, word_eq_of_holdsCommand (holdsCommand_encode (wf_of_decode h)) (decode_eq_ok_iff.mp h)⟩

/-- Dispatch of an illegal word raises CMD_ILLEGAL with the word (R84, R170). -/
theorem dispatchWord_of_illegal {w : Word} {e : Illegal} (h : decode w = .error e) (rest : List Word) (s : State) :
    dispatchWord w rest s = .next (raise .cmdIllegal w (popTo w rest s)) := by
  rw [dispatchWord, h]

/-- A field of a word has a number exactly where its bits spell it. -/
theorem field_eq_toNat_iff (hi lo : Nat) (w : Word) (x : BitVec (hi + 1 - lo)) :
    field hi lo w = x.toNat ↔ w.extractLsb' lo (hi + 1 - lo) = x := by
  rw [field_eq_extractLsb', BitVec.toNat_eq]

/-- A field of a word is not 0 exactly where its bits are not. -/
theorem field_ne_zero_iff (hi lo : Nat) (w : Word) : field hi lo w ≠ 0 ↔ w.extractLsb' lo (hi + 1 - lo) ≠ 0 :=
  not_congr (field_eq_toNat_iff hi lo w 0)

/-- Settles O3: the decoder rejects exactly the words that R84 names, and dispatch goes by the decoder. -/
theorem illegalWordsRaiseCmdIllegal : Obligations.IllegalWordsRaiseCmdIllegal := by
  intro w
  have hop : ∀ n : BitVec 4, field 31 28 w = n.toNat ↔ w.extractLsb' 28 4 = n := field_eq_toNat_iff 31 28 w
  constructor
  · rw [decode_eq_error_iff]
    exact or_congr (by rw [field_eq_extractLsb']) (or_congr (and_congr (or_congr (hop 0) (hop 6)) (field_ne_zero_iff 27 0 w))
      (or_congr (and_congr (hop 1) (field_ne_zero_iff 27 8 w)) (and_congr (hop 2) (field_ne_zero_iff 27 1 w))))
  · rintro s rest ⟨e, he⟩
    exact dispatchWord_of_illegal he rest s

/-- An operand whose field ends at bit `hi` is that field, zero-extended (R82). -/
theorem operand_of_decode {hi : Nat} (hhi : hi ≤ 27) {w : Word} {i : Instr} (h : decode w = .ok i)
    (hwf : i.wf = decide (argument i < 2 ^ (hi + 1))) :
    argument i = (w.extractLsb' 0 (hi + 1)).toNat ∧ argument i ≤ 2 ^ (hi + 1) - 1 := by
  have hlt : argument i < 2 ^ (hi + 1) := of_decide_eq_true (hwf.symm.trans (wf_of_decode h))
  obtain ⟨-, -, harg⟩ := decode_eq_ok_iff.mp h
  have hfield : field hi 0 w = argument i := by rw [field_operand hhi, harg, Nat.mod_eq_of_lt hlt]
  exact ⟨hfield.symm.trans (field_eq_extractLsb' hi 0 w), Nat.le_sub_one_of_lt hlt⟩

/-- Settles O5: BYTE, BIT and the three durations are the fields that end at bit 7, 0 and 27. -/
theorem operandsAreZeroExtendedFields : Obligations.OperandsAreZeroExtendedFields := by
  intro w
  refine ⟨fun v h => operand_of_decode (hi := 7) (by decide) h rfl, fun b h => ?_, fun d h => ?_⟩
  · obtain ⟨hfield, hle⟩ := operand_of_decode (hi := 0) (by decide) h rfl
    exact ⟨hfield, Nat.le_one_iff_eq_zero_or_eq_one.mp hle⟩
  · rcases h with h | h | h <;> exact operand_of_decode (hi := 27) (by decide) h rfl

/-- Settles O4: the decoder runs on each example's word. -/
theorem encodedExamplesDecode : Obligations.EncodedExamplesDecode := by
  unfold Obligations.EncodedExamplesDecode
  decide

end Sys2Proof.Laws
end

section
/-! The phase of a burst (R103, R105), and a burst cut in two (R88, R116). -/
namespace Sys2Proof.Machine
open Sys2Proof.Safety

/-- The phase index after `k` samples at frequency `f` (R105). -/
theorem iterate_nextPhase {c : RunConfig} (f k : Nat) {P : Nat} (hP : P < c.sr) :
    (c.nextPhase f)^[k] P = (P + k * f) % c.sr := by
  induction k with
  | zero => rw [Function.iterate_zero_apply, Nat.zero_mul, Nat.add_zero, Nat.mod_eq_of_lt hP]
  | succ k ih =>
    rw [Function.iterate_succ_apply', ih, RunConfig.nextPhase, Nat.mod_add_mod, Nat.add_assoc, ← Nat.succ_mul]

/-- A burst's first `k₁` frames, and then the rest from the phase index they end on. -/
theorem burstBytes_add (b : Build) (c : RunConfig) (f k₁ k₂ P : Nat) :
    burstBytes b c f (k₁ + k₂) P = burstBytes b c f k₁ P ++ burstBytes b c f k₂ ((c.nextPhase f)^[k₁] P) := by
  induction k₁ generalizing P with
  | zero => rw [Nat.zero_add, burstBytes, List.nil_append, Function.iterate_zero_apply]
  | succ k ih =>
    rw [Nat.succ_add, burstBytes, burstBytes, ih, List.append_assoc, Function.iterate_succ_apply]

/-- Settles O52: after a whole number of cycles the phase index is 0 again. -/
theorem splittingAtWholeCyclesIsTransparent : Obligations.SplittingAtWholeCyclesIsTransparent := by
  intro b c f k₁ k₂ hsr hwhole
  rw [burstBytes_add, iterate_nextPhase f k₁ hsr, Nat.zero_add, hwhole]

end Sys2Proof.Machine
end

section
/-! The host's tools: the directives' durations and bytes (R87), the assembler (R86), and how a host goes on from a read of
STATUS (R232, R237). -/
namespace Sys2Proof.Machine
open Sys2Proof.Safety

/-! ### Directives (R87) -/

/-- The ceiling of `a / b` is at most `u` exactly where `u` parts `b` cover `a` (R12). -/
theorem ceilDiv_le_iff {a b : Nat} (hb : 0 < b) (u : Nat) : ceilDiv a b ≤ u ↔ a ≤ u * b := by
  rw [Nat.mul_comm]
  exact ceilDiv_le_iff_le_smul hb

/-- `ceil(a / b)` is the least number of parts `b` that cover `a` (R12). -/
theorem isLeast_ceilDiv {a b : Nat} (hb : 0 < b) : IsLeast {u : ℕ | a ≤ u * b} (ceilDiv a b) :=
  ⟨(ceilDiv_le_iff hb _).mp le_rfl, fun u hu => (ceilDiv_le_iff hb u).mpr hu⟩

/-- A data directive with a count takes that many bytes of the source. -/
theorem expand_data_of_pos {n : Nat} (hn : 0 < n) (src : List Byte) :
    (Directive.data n).expand src = ((src.take n).map fun v => .byte v.toNat, src.drop n) := by
  cases n with
  | zero => exact absurd hn (Nat.lt_irrefl 0)
  | succ n => rfl

/-! ### The assembler (R86) -/

/-- The assembler's error is an ill-formed operand, and nothing else. -/
theorem assemble_eq_none_iff (i : Instr) : assemble i = none ↔ i.wf = false := by
  unfold assemble
  cases i.wf <;> simp

/-- An operand that is no number below its field's bound is an assembly error. -/
theorem assemble_eq_none_iff_of_bound {i : Instr} {x n : Nat} (h : i.wf = decide (x < n + 1)) :
    assemble i = none ↔ n < x := by
  rw [assemble_eq_none_iff, h, decide_eq_false_iff_not, Nat.lt_succ_iff, Nat.not_le]

/-! ### The program of one encode (R232) -/

/-- The program of commands that assemble. -/
theorem encodeProgram_of_words {cmds : List Instr} {words : List Word} (h : cmds.mapM assemble = some words)
    (setup : List Access) :
    encodeProgram setup cmds =
      some (setup.map HostOp.once ++ [.once (.write 4 0x00 1), .stopOnError [.read 4 0x08]] ++
        words.map (fun w => .once (.write 4 0x20 w)) ++ [.awaitEnd [], .once (.read 4 0x24)]) := by
  rw [encodeProgram, h, Option.map_some]

/-- There is no program with a command that does not assemble. -/
theorem encodeProgram_of_none {cmds : List Instr} (h : cmds.mapM assemble = none) (setup : List Access) :
    encodeProgram setup cmds = none := by
  rw [encodeProgram, h, Option.map_none]

/-! ### A host's reads of STATUS (R232, R237) -/

/-- The host's turn with no push held takes the next operation of its program. -/
theorem hostTurn_of_prog {s : State} {op : HostOp} {rest : List HostOp} (hh : s.heldPush = none)
    (hp : s.hostProg = op :: rest) : hostTurn s = hostOp op rest s := by
  rw [hostTurn, hh, hp]

/-- The host's turn at a read of STATUS. -/
theorem hostTurn_of_poll {s : State} {op : HostOp} {rest : List HostOp} (hh : s.heldPush = none)
    (hp : s.hostProg = op :: rest) (hop : ∀ a, op ≠ .once a) :
    hostTurn s = .next { s with hostProg := op.after s.status rest, readData := s.readValue 0x04 } := by
  rw [hostTurn_of_prog hh hp]
  cases op with
  | once a => exact absurd rfl (hop a)
  | stopOnError report => rfl
  | awaitEnd report => rfl
  | awaitRoom => rfl

/-- STATUS shows ERROR in ERROR alone. -/
theorem status_shows_error (s : State) : s.status.toNat % 4 = 3 ↔ s.state = .error := by
  rw [status_state]
  cases s.state <;> decide

/-- STATUS shows DONE in DONE alone. -/
theorem status_shows_done (s : State) : s.status.toNat % 4 = 2 ↔ s.state = .done := by
  rw [status_state]
  cases s.state <;> decide

/-- Settles O6: the directives and the assembler by their definitions' cases, and the host's reads of STATUS by what its fields
show. -/
theorem hostToolsFollowTheirRules : Obligations.HostToolsFollowTheirRules := by
  refine ⟨fun _ _ hden => isLeast_ceilDiv hden, fun _ _ _ => rfl, fun _ _ _ => rfl, fun _ src hn => expand_data_of_pos hn src,
    fun _ => rfl, fun _ => rfl, rfl, rfl, fun _ => assemble_eq_none_iff_of_bound rfl,
    fun _ => assemble_eq_none_iff_of_bound rfl,
    fun _ => ⟨assemble_eq_none_iff_of_bound rfl, assemble_eq_none_iff_of_bound rfl, assemble_eq_none_iff_of_bound rfl⟩,
    by decide, by decide, fun _ => rfl, fun _ _ _ => rfl, fun setup _ _ h => encodeProgram_of_words h setup,
    fun setup _ h => encodeProgram_of_none h setup, ?_⟩
  rintro s s₀ rest hh rfl
  refine ⟨fun report hp => ?_, fun report hp => ?_, fun hp => ?_⟩ <;> rw [hostTurn_of_poll hh hp (by simp)]
  · simp only [HostOp.after, status_shows_error]
  · simp only [HostOp.after, status_shows_error, status_shows_done, hp]
  · simp only [HostOp.after, status_full, decide_eq_true_eq, hp]

end Sys2Proof.Machine
end

section
/-! The numbers of a burst: its tones (R100), sample counts (R104, R114) and phases (R105), and the clock it leaves (R102, R112,
R113). -/
namespace Sys2Proof.Machine
open Sys2Proof.Safety

/-! ### The tones (R100) -/

/-- Settles O21: the rate check gives `8 fL ≤ sr`, and the mark tone is twice the space tone. -/
theorem tonesOfALegalConfiguration : Obligations.TonesOfALegalConfiguration := by
  intro c hv
  obtain ⟨-, -, -, hfL, hrate, -⟩ := legal_checks hv
  have hspace : c.toneOf false = c.fL := rfl
  have hmark : c.toneOf true = 2 * c.fL := rfl
  refine ⟨hspace, hmark, ?_, ?_, ?_, ?_⟩ <;> omega

/-! ### Sample counts (R104, R114) -/

/-- `ceil(a / b)` parts `b` cover `a` by less than one part more (R12). -/
theorem ceilDiv_mul_lt (a : Nat) {b : Nat} (hb : 0 < b) : ceilDiv a b * b < a + b := by
  have h : ceilDiv a b * b ≤ a + b - 1 := Nat.div_mul_le_self _ _
  omega

/-- No units make no samples, whatever the unit. -/
theorem kdur_zero (b : Build) (c : RunConfig) : b.kdur c 0 = 0 := by
  unfold Build.kdur ceilDiv
  rcases Nat.eq_zero_or_pos b.durDen with h | h
  · rw [h, Nat.div_zero]
  · exact Nat.div_eq_of_lt (by omega)

/-- `Kbit` is the sample count of the duration `1 / baud`. -/
theorem kbit_eq_ceilDiv (c : RunConfig) : c.kbit = ceilDiv (1 * c.sr) c.baudRate := by rw [Nat.one_mul]; rfl

section
variable {d den sr : Nat} (hden : 0 < den) (hsr : 0 < sr)
include hden hsr

/-- `k` samples last at least `d / den` seconds: the comparison in whole numbers. -/
theorem samples_last_iff (k : Nat) : (d : ℚ) / den ≤ (k : ℚ) / sr ↔ d * sr ≤ k * den := by
  rw [div_le_div_iff₀ (by exact_mod_cast hden) (by exact_mod_cast hsr)]
  exact_mod_cast Iff.rfl

/-- The sample count of the duration `d / den` is the least that lasts as long (R104). -/
theorem isLeast_sampleCount : IsLeast {k : ℕ | (d : ℚ) / den ≤ (k : ℚ) / sr} (ceilDiv (d * sr) den) := by
  simp only [samples_last_iff hden hsr]
  exact isLeast_ceilDiv hden

/-- The sample count of the duration `d / den` overshoots it by less than one sample (R114). -/
theorem sampleCount_lt : (ceilDiv (d * sr) den : ℚ) / sr < (d : ℚ) / den + 1 / sr := by
  have hdenQ : (0 : ℚ) < den := by exact_mod_cast hden
  have hsrQ : (0 : ℚ) < sr := by exact_mod_cast hsr
  have hlt : (ceilDiv (d * sr) den : ℚ) * den < d * sr + den := by exact_mod_cast ceilDiv_mul_lt (d * sr) hden
  rw [div_add_div _ _ hdenQ.ne' hsrQ.ne', div_lt_div_iff₀ hsrQ (mul_pos hdenQ hsrQ), mul_one, ← mul_assoc]
  exact mul_lt_mul_of_pos_right hlt hsrQ

end

/-- `Kbit` is the least sample count that lasts as long as a bit (R104). -/
theorem isLeast_kbit {c : RunConfig} (hv : c.validate = .none) :
    IsLeast {k : ℕ | (1 : ℚ) / c.baudRate ≤ (k : ℚ) / c.sr} c.kbit := by
  obtain ⟨hsr, hbaud, -⟩ := legal_pos hv
  simpa only [kbit_eq_ceilDiv, Nat.cast_one] using isLeast_sampleCount (d := 1) hbaud hsr

/-- `Kbit` samples overshoot a bit by less than one sample (R114). -/
theorem kbit_lt {c : RunConfig} (hv : c.validate = .none) : (c.kbit : ℚ) / c.sr < 1 / c.baudRate + 1 / c.sr := by
  obtain ⟨hsr, hbaud, -⟩ := legal_pos hv
  simpa only [kbit_eq_ceilDiv, Nat.cast_one] using sampleCount_lt (d := 1) hbaud hsr

/-- Settles O47: both counts are one rounded-up quotient, and with a sample rate above 0 that of a bit is not 0. -/
theorem sampleCountsAreLeast : Obligations.SampleCountsAreLeast := by
  intro b c hden hv
  obtain ⟨hsr, hbaud, -⟩ := legal_pos hv
  refine ⟨isLeast_kbit hv, fun d => isLeast_sampleCount hden hsr, rfl, fun _ => rfl, ?_, kdur_zero b c⟩
  exact Nat.div_pos (by omega) hbaud

/-! ### The phase accumulator (R105) -/

/-- Reducing a phase index by whole cycles does not change its sine (R103, R105). -/
theorem sinPhase_mod (P : Nat) {sr : Nat} (hsr : 0 < sr) : sinPhase (P % sr) sr = sinPhase P sr := by
  have hsrR : (sr : ℝ) ≠ 0 := by exact_mod_cast hsr.ne'
  have hP : (P : ℝ) = (P % sr : ℕ) + sr * (P / sr : ℕ) := by exact_mod_cast (Nat.mod_add_div P sr).symm
  have hangle : 2 * Real.pi * P / sr = 2 * Real.pi * (P % sr : ℕ) / sr + (P / sr : ℕ) * (2 * Real.pi) := by
    rw [hP]
    field_simp
  unfold sinPhase
  rw [hangle, Real.sin_add_nat_mul_two_pi]

/-- Settles O48: `i` additions modulo `sr` are one, and whole cycles do not change the sine. -/
theorem phaseAccumulatorIsExact : Obligations.PhaseAccumulatorIsExact := by
  intro c f i hsr
  have hphase : (c.nextPhase f)^[i] 0 = i * f % c.sr := by rw [iterate_nextPhase f i hsr, Nat.zero_add]
  refine ⟨hphase, ?_⟩
  rw [hphase, sinPhase_mod _ hsr, sinPhase, Nat.cast_mul, mul_comm (i : ℝ), ← mul_assoc]

/-! ### The clock after a burst (R102, R112, R114) -/

/-- The snap takes off what the clock has of a low-carrier cycle (R102). -/
theorem snap_add_mod (c : RunConfig) (n : Nat) : c.snap n + n % c.sr = n := Nat.div_add_mod' n c.sr

/-- A clock within the `q`-th low-carrier cycle snaps to the cycle's beginning. -/
theorem snap_eq_of_between {c : RunConfig} {q n : Nat} (hlo : q * c.sr ≤ n) (hhi : n < (q + 1) * c.sr) :
    c.snap n = q * c.sr := by
  rw [RunConfig.snap, Nat.div_eq_of_lt_le hlo hhi]

/-- A burst adds its own time to the clock, less what the snap takes off (R112). -/
theorem burstClock_add_mod (c : RunConfig) (k n : Nat) : burstClock c k n + n % c.sr = n + k * c.fL := by
  have hsnap := snap_add_mod c n
  unfold burstClock
  omega

/-! ### Bit bursts (R113) -/

section
variable {c : RunConfig} (hv : c.validate = .none)
include hv

/-- A bit is `M` whole low-carrier cycles (R15, R203). -/
theorem cyclesPerBit_mul_baudRate : c.cyclesPerBit * c.baudRate = c.fL := by
  obtain ⟨-, -, -, -, -, hmultiple⟩ := legal_checks hv
  exact Nat.div_mul_cancel (Nat.dvd_of_mod_eq_zero hmultiple)

/-- A bit has at least one low-carrier cycle. -/
theorem cyclesPerBit_pos : 0 < c.cyclesPerBit := by
  obtain ⟨-, -, hfL⟩ := legal_pos hv
  refine Nat.pos_of_ne_zero fun h => hfL.ne' ?_
  rw [← cyclesPerBit_mul_baudRate hv, h, Nat.zero_mul]

/-- The ticks of a bit burst, by those of `Kbit` samples at `baud`. -/
theorem kbit_mul_fL_eq : c.kbit * c.fL = c.cyclesPerBit * (c.kbit * c.baudRate) := by
  rw [← cyclesPerBit_mul_baudRate hv, Nat.mul_left_comm]

/-- A bit burst lasts at least one bit time (R113). -/
theorem bitTime_le_kbit_mul_fL : c.cyclesPerBit * c.sr ≤ c.kbit * c.fL := by
  rw [kbit_mul_fL_eq hv]
  exact Nat.mul_le_mul_left _ (isLeast_ceilDiv (legal_pos hv).2.1).1

/-- A bit burst is less than one sample longer than a bit time (R113). -/
theorem kbit_mul_fL_lt_bitTime_add : c.kbit * c.fL < c.cyclesPerBit * c.sr + c.fL := by
  calc c.kbit * c.fL = c.cyclesPerBit * (c.kbit * c.baudRate) := kbit_mul_fL_eq hv
    _ < c.cyclesPerBit * (c.sr + c.baudRate) :=
        Nat.mul_lt_mul_of_pos_left (ceilDiv_mul_lt c.sr (legal_pos hv).2.1) (cyclesPerBit_pos hv)
    _ = c.cyclesPerBit * c.sr + c.fL := by rw [Nat.mul_add, cyclesPerBit_mul_baudRate hv]

/-- One sample is less than one low-carrier cycle on the clock. -/
theorem fL_lt_sr : c.fL < c.sr := by
  obtain ⟨-, -, -, hfL, hrate, -⟩ := legal_checks hv
  omega

/-- The origin after a bit burst is one bit time after the burst's own (R113). -/
theorem snap_burstClock_kbit (n : Nat) : c.snap (burstClock c c.kbit n) = c.snap n + c.cyclesPerBit * c.sr := by
  have hlo := bitTime_le_kbit_mul_fL hv
  have hhi := kbit_mul_fL_lt_bitTime_add hv
  have hfL := fL_lt_sr hv
  have horigin : c.snap n + c.cyclesPerBit * c.sr = (n / c.sr + c.cyclesPerBit) * c.sr := (Nat.add_mul _ _ _).symm
  rw [horigin]
  refine snap_eq_of_between ?_ ?_
  · rw [← horigin]
    unfold burstClock
    omega
  · rw [Nat.succ_mul, ← horigin]
    unfold burstClock
    omega

/-- The origin after `k` bit bursts in a row is `k` bit times after the first one's (R113). -/
theorem snap_bitsClock (k n : Nat) : c.snap (bitsClock c k n) = c.snap n + k * (c.cyclesPerBit * c.sr) := by
  induction k generalizing n with
  | zero => rw [bitsClock, Nat.zero_mul, Nat.add_zero]
  | succ k ih => rw [bitsClock, ih, snap_burstClock_kbit hv, Nat.add_assoc, Nat.succ_mul, Nat.add_comm (k * _)]

/-- A bit burst lasts at least one low-carrier cycle (R112). -/
theorem sr_le_kbit_mul_fL : c.sr ≤ c.kbit * c.fL :=
  (Nat.le_mul_of_pos_left _ (cyclesPerBit_pos hv)).trans (bitTime_le_kbit_mul_fL hv)

end

/-- A legal configuration in which a burst of no frames takes the clock back from 1 to 0 (R112). -/
def eightSamplesPerCycle : RunConfig :=
  { sampleRate := 8, baud := 1, carrier := 1, qbits := 8, channels := 1, stopBits := 0 }

/-- Settles O49: a burst adds its time less what the snap takes off, which is less than one low-carrier cycle; a burst of no
frames only snaps. -/
theorem clockMonotonicityIsConditional : Obligations.ClockMonotonicityIsConditional := by
  refine ⟨fun c k n hv => ?_, fun b => ⟨eightSamplesPerCycle, 1, by decide, ?_⟩⟩
  · have hclock := burstClock_add_mod c k n
    have hmod := Nat.mod_lt n (legal_pos hv).1
    exact ⟨by omega, fun _ => by omega, sr_le_kbit_mul_fL hv⟩
  · rw [kdur_zero]
    decide

/-- Settles O50: a bit burst is at least `M` cycles long and less than one sample more, so the next origin is `M` cycles on. -/
theorem bitGridDoesNotDrift : Obligations.BitGridDoesNotDrift := by
  intro c n k hv
  have hmod := Nat.mod_lt n (legal_pos hv).1
  have hsnap := snap_add_mod c n
  refine ⟨rfl, snap_le c n, by omega, Nat.dvd_mul_left _ _, bitTime_le_kbit_mul_fL hv,
    kbit_mul_fL_lt_bitTime_add hv, ?_, snap_bitsClock hv k n⟩
  rw [Nat.succ_mul]
  exact Nat.add_lt_add_left (fL_lt_sr hv) _

/-- Settles O51: the sample count is the least that lasts as long, and the snap takes off less than one low-carrier cycle. -/
theorem durationBounds : Obligations.DurationBounds := by
  intro b c d k n hden hv
  obtain ⟨hsr, -, hfL⟩ := legal_pos hv
  have hmod := Nat.mod_lt n hsr
  have hclock := burstClock_add_mod c k n
  have hcycle : (1 : ℚ) / c.sr < 1 / (2 * c.fMark) := by
    obtain ⟨-, -, -, -, hrate, -⟩ := legal_checks hv
    have hmark : c.fMark = 2 * c.fL := rfl
    refine one_div_lt_one_div_of_lt ?_ ?_
    · exact_mod_cast (by omega : 0 < 2 * c.fMark)
    · exact_mod_cast (by omega : 2 * c.fMark < c.sr)
  exact ⟨(isLeast_sampleCount hden hsr).1, sampleCount_lt hden hsr, (isLeast_kbit hv).1, kbit_lt hv, hcycle, by omega,
    by omega⟩

end Sys2Proof.Machine
end

section
/-! The synthesizer's steps, said once for each enabled case: dispatch, the burst begin step and the frame step (R106, R107). -/
namespace Sys2Proof.Machine

/-! ### Dispatch (R110, R111, R130, R131, R171, R173) -/

/-- The tone of BIT's operand: mark for 1, space for every other (R130). -/
theorem toneOf_decide (c : RunConfig) (b : Nat) :
    c.toneOf (decide (b = 1)) = if b = 1 then 2 * c.carrier.toNat else c.carrier.toNat := by
  by_cases hb : b = 1
  · rw [if_pos hb, decide_eq_true hb]
    rfl
  · rw [if_neg hb, decide_eq_false hb]
    rfl

/-- Settles O30: each of the commands sets the micro-state of its rule. -/
theorem commandsComplete : Obligations.CommandsComplete := by
  refine fun s => ⟨rfl, fun _ => rfl, fun b => ?_, fun _ => rfl, fun _ => rfl, fun d => exec_eq (by simp) s⟩
  rw [exec_eq (by simp), msAtDispatch, toneOf_decide]
  rfl

section
variable {s : State}

/-! ### The burst begin step (R106) -/

/-- In RUN at a burst's begin the engine snaps the clock and begins the burst. -/
theorem engineStep_of_begin {f k : Nat} {ctx : Ctx} (hr : s.state = .run) (hv : s.cfg.validate = .none)
    (hm : s.ms = .atBegin f k ctx) : engineStep s = .next (setMs (msAfterBegin s.cfg f k ctx) (snapClock s)) := by
  unfold engineStep
  simp only [hr, hm]
  rw [burstBegin_eq, if_pos hv]

/-! ### The frame step (R107) -/

/-- In a burst the engine takes the frame step that silence shares. -/
theorem engineStep_of_burst {f r P : Nat} {ctx : Ctx} (hr : s.state = .run) (hv : s.cfg.validate = .none)
    (hm : s.ms = .burst f r P ctx) :
    engineStep s = frameStepWith (s.build.toneFrame s.cfg P) (afterFrame f r P ctx) s := by
  unfold engineStep
  simp only [hr, hm]
  exact frameStep_of_legal hv f r P ctx

section
variable (bytes : List Byte) (after : State → State)

/-- The count test comes first, and does not wait for the sink. -/
theorem frameStepWith_of_countOverflow (h : s.countOverflows = true) :
    frameStepWith bytes after s = .next (raise .countOverflow s.cw s) := if_pos h

/-- The clock test comes second, and does not wait for the sink. -/
theorem frameStepWith_of_clockOverflow (h1 : s.countOverflows = false) (h2 : s.clockOverflows = true) :
    frameStepWith bytes after s = .next (raise .clockOverflow s.cw s) := by
  simp [frameStepWith, h1, h2]

/-- With both tests passed and a sink that accepts, the frame goes out. -/
theorem frameStepWith_of_accepts (h1 : s.countOverflows = false) (h2 : s.clockOverflows = false)
    (h3 : s.sinkAccepts = true) : frameStepWith bytes after s = .next (after (emit bytes s)) := by
  simp [frameStepWith, h1, h2, h3]

end

end

/-- Settles O33: the snapped state ends its burst at once where it has no frames, and goes to its first frame otherwise. -/
theorem burstBeginRule : Obligations.BurstBeginRule := by
  intro s f k ctx hr hv hm
  rw [engineStep_of_begin hr hv hm]
  refine ⟨fun hk => ?_, fun hk => ?_, snap_le s.cfg s.clock⟩
  · rw [endOfBurst_eq, msAfterBegin, if_pos hk]
    rfl
  · rw [msAfterBegin, if_neg hk]
    rfl

/-- Settles O34: the cases of the frame step that burst and silence share. -/
theorem frameStepRule : Obligations.FrameStepRule := by
  intro s f r P ctx hr hv hm
  rw [engineStep_of_burst hr hv hm]
  refine ⟨fun h1 => frameStepWith_of_countOverflow _ _ (decide_eq_true h1), fun h1 => ?_⟩
  have hcount : s.countOverflows = false := decide_eq_false (Nat.not_lt.mpr h1)
  refine ⟨fun h2 => frameStepWith_of_clockOverflow _ _ hcount (decide_eq_true h2), fun h2 h3 => ?_, fun h2 h3 u hu => ?_⟩
  · have hclock : s.clockOverflows = false := decide_eq_false (Nat.not_lt.mpr h2)
    exact frameStepWith_of_not_enabled _ _ (by simp [h3, hcount, hclock])
  · have hclock : s.clockOverflows = false := decide_eq_false (Nat.not_lt.mpr h2)
    obtain rfl : u = emit (s.build.toneFrame s.cfg P) s := hu
    rw [frameStepWith_of_accepts _ _ hcount hclock h3, afterFrame]
    exact ⟨fun hr1 => by rw [if_pos hr1], fun hr1 => by rw [if_neg hr1]; rfl⟩

end Sys2Proof.Machine
end

section
/-! A burst that runs undisturbed (R106, R107, R108): one begin step, and then one step per frame while the counters have room for
the frames to come. -/
namespace Sys2Proof.Machine
open Sys2Proof.Safety

/-! ### Frames in a row -/

/-- BYTES_WRITTEN and CLOCK have room for `k` more frames (R107). -/
def roomFor (k : Nat) (s : State) : Prop :=
  s.bytesWritten + k * s.cfg.frameBytes ≤ 2 ^ s.build.countWidth - 1 ∧
    s.clock + k * s.cfg.fL ≤ 2 ^ s.build.clockWidth - 1

/-- `k` accepted frames in a row, whose bytes are `bytes` (R107, R172). -/
def emitFrames (k : Nat) (bytes : List Byte) (s : State) : State :=
  { s with
    stream := s.stream ++ bytes
    bytesWritten := s.bytesWritten + k * s.cfg.frameBytes
    clock := s.clock + k * s.cfg.fL }

/-- No frame changes nothing. -/
theorem emitFrames_zero (s : State) : emitFrames 0 [] s = s := by
  simp [emitFrames]

/-- One frame and then `k` more are `k + 1` frames; what the micro-state is on the way does not matter. -/
theorem setMs_emitFrames_emit (m m' : MicroState) (k : Nat) (bytes rest : List Byte) (s : State) :
    setMs m (emitFrames k rest (setMs m' (emit bytes s))) = setMs m (emitFrames (k + 1) (bytes ++ rest) s) := by
  simp [setMs, emitFrames, emit, Nat.succ_mul, Nat.add_assoc, Nat.add_comm]

section
variable {s : State}

/-- With room for a frame no counter overflows. -/
theorem not_overflows_of_roomFor {k : Nat} (h : roomFor (k + 1) s) :
    s.countOverflows = false ∧ s.clockOverflows = false := by
  obtain ⟨hcount, hclock⟩ := h
  rw [Nat.succ_mul] at hcount hclock
  exact ⟨decide_eq_false (by omega), decide_eq_false (by omega)⟩

/-- A frame takes up room for one. -/
theorem roomFor_emit {k : Nat} (h : roomFor (k + 1) s) (m : MicroState) (bytes : List Byte) :
    roomFor k (setMs m (emit bytes s)) := by
  obtain ⟨hcount, hclock⟩ := h
  rw [Nat.succ_mul] at hcount hclock
  constructor
  · simp only [setMs_bytesWritten, setMs_cfg, setMs_build, emit_bytesWritten, emit_cfg, emit_build]
    omega
  · simp only [setMs_clock, setMs_cfg, setMs_build, emit_clock, emit_cfg, emit_build]
    omega

/-! ### The engine's steps, undisturbed -/

variable {f P : Nat} {ctx : Ctx} (hu : undisturbed s) (hr : s.state = .run) (hv : s.cfg.validate = .none)
include hu hr hv

/-- The step at a burst's begin (R106). -/
theorem step_of_begin {k : Nat} (hm : s.ms = .atBegin f k ctx) :
    step s = .next (setMs (msAfterBegin s.cfg f k ctx) (snapClock s)) := by
  obtain ⟨hsched, -, hheld⟩ := hu
  have he : s.engineEnabled = true := by simp only [State.engineEnabled, hr, hm]
  exact step_of_engine hsched he (engineStep_of_begin hr hv hm) hheld

/-- The step that emits a burst's next frame (R107). -/
theorem step_of_burst {r k : Nat} (hm : s.ms = .burst f r P ctx) (hroom : roomFor (k + 1) s) :
    step s = .next (setMs (msAfterFrame s.cfg f r P ctx) (emit (s.build.toneFrame s.cfg P) s)) := by
  obtain ⟨hsched, hsink, hheld⟩ := hu
  obtain ⟨hcount, hclock⟩ := not_overflows_of_roomFor hroom
  have he : s.engineEnabled = true := by simp only [State.engineEnabled, hr, hm, hsink, Bool.true_or]
  have hstep : engineStep s = .next (setMs (msAfterFrame s.cfg f r P ctx) (emit (s.build.toneFrame s.cfg P) s)) := by
    rw [engineStep_of_burst hr hv hm, frameStepWith_of_accepts _ _ hcount hclock hsink, afterFrame_eq, emit_cfg]
  exact step_of_engine hsched he hstep hheld

/-- The `r + 1` frames of a burst, one per step, and what follows it (R107, R108). -/
theorem steps_of_burst {r : Nat} (hm : s.ms = .burst f (r + 1) P ctx) (hroom : roomFor (r + 1) s) :
    steps (r + 1) s =
      .next (setMs (msAfterBurst s.cfg ctx) (emitFrames (r + 1) (burstBytes s.build s.cfg f (r + 1) P) s)) := by
  induction r generalizing s P with
  | zero =>
    rw [steps_one (step_of_burst hu hr hv hm hroom), burstBytes, burstBytes,
      ← setMs_emitFrames_emit _ (msAfterFrame s.cfg f 1 P ctx), emitFrames_zero]
    rfl
  | succ r ih =>
    have hafter : msAfterFrame s.cfg f (r + 1 + 1) P ctx = .burst f (r + 1) (s.cfg.nextPhase f P) ctx :=
      if_neg (by omega)
    have hstep := step_of_burst hu hr hv hm hroom
    rw [hafter] at hstep
    rw [Nat.add_comm (r + 1) 1, steps_add (r + 1) (steps_one hstep),
      ih (s := setMs _ (emit _ s)) hu hr hv rfl (roomFor_emit hroom _ _), setMs_emitFrames_emit, Nat.add_comm 1]
    rfl

/-- A burst of `k` frames, from its begin step to what follows it (R106, R107, R108). -/
theorem steps_of_begin {k : Nat} (hm : s.ms = .atBegin f k ctx) (hroom : roomFor k (snapClock s)) :
    steps (k + 1) s =
      .next (setMs (msAfterBurst s.cfg ctx) (emitFrames k (burstBytes s.build s.cfg f k 0) (snapClock s))) := by
  have hstep := step_of_begin hu hr hv hm
  rw [Nat.add_comm, steps_add k (steps_one hstep)]
  cases k with
  | zero => rw [burstBytes, emitFrames_zero]; rfl
  | succ r => exact steps_of_burst (s := setMs (.burst f (r + 1) 0 ctx) (snapClock s)) hu hr hv rfl hroom

end

/-! ### Whole commands of one burst (R110, R111, R130) -/

/-- Settles O43: a burst from its begin step, with nothing to follow it. -/
theorem burstRunsToItsEnd : Obligations.BurstRunsToItsEnd :=
  fun _ _ _ hu hr hv hm hcount hclock => steps_of_begin hu hr hv hm ⟨hcount, hclock⟩

/-- Settles O44: dispatch leaves the begin of a burst of the command's tone, and that burst runs to its end. -/
theorem toneAndBitCommandsRunToTheirEnd : Obligations.ToneAndBitCommandsRunToTheirEnd := by
  intro s i f k hu hr hv hi hcount hclock
  have hexec : exec i s = .next (setMs (.atBegin f k .single) s) := by
    rcases hi with ⟨d, rfl, rfl, rfl⟩ | ⟨d, rfl, rfl, rfl⟩ | ⟨rfl, rfl, rfl⟩ | ⟨rfl, rfl, rfl⟩ <;> rfl
  exact ⟨_, hexec, burstRunsToItsEnd (setMs (.atBegin f k .single) s) f k hu hr hv rfl hcount hclock⟩

end Sys2Proof.Machine
end

section
/-! The Byte Framer: the slots of a byte in order (R132), and a byte that runs undisturbed, slot by slot (R131, R133, R135). -/
namespace Sys2Proof.Machine
open Sys2Proof.Safety

/-! ### The slots' bits and tones (R132) -/

section
variable (v : Byte)

/-- The start bit is 0. -/
theorem slotBit_start : slotBit v 0 = false := rfl

/-- Slot `i + 1` carries data bit `i`. -/
theorem slotBit_data {i : Nat} (hi : i < 8) : slotBit v (i + 1) = v.getLsbD i := by
  rw [slotBit, if_neg i.succ_ne_zero, if_pos (Nat.succ_le_of_lt hi), Nat.add_sub_cancel]

/-- The slots from 9 on carry 1. -/
theorem slotBit_stop {j : Nat} (hj : 9 ≤ j) : slotBit v j = true := by
  rw [slotBit, if_neg (by omega), if_neg (by omega)]

/-- The bits of a byte's slots in order: 0, the data bits, and `n` ones. -/
theorem map_slotBit_range (n : Nat) :
    (List.range (9 + n)).map (slotBit v) = false :: (List.range 8).map v.getLsbD ++ List.replicate n true := by
  have hstart : (List.range 9).map (slotBit v) = false :: (List.range 8).map v.getLsbD := by
    rw [List.range_succ_eq_map, List.map_cons, List.map_map, slotBit_start]
    exact congrArg _ (List.map_congr_left fun i hi => slotBit_data v (List.mem_range.mp hi))
  have hstop : slotBit v ∘ (9 + ·) = fun _ => true := funext fun i => slotBit_stop v (Nat.le_add_right 9 i)
  rw [List.range_add, List.map_append, List.map_map, hstart, hstop, List.map_const', List.length_range]

end

/-- Settles O36: the tones are those of the slots' bits, and the micro-state goes to the next slot while there is one. -/
theorem slotSequencing : Obligations.SlotSequencing := by
  intro c v
  refine ⟨rfl, fun j h1 h8 => ?_, fun j h9 => ?_, ?_, ?_⟩
  · obtain ⟨i, rfl⟩ := Nat.exists_eq_add_of_le' h1
    rw [RunConfig.slotFreq, slotBit_data v h8]
    rfl
  · rw [RunConfig.slotFreq, slotBit_stop v h9]
    rfl
  · have htones : c.slotFreq v = c.toneOf ∘ slotBit v := rfl
    rw [htones, ← List.map_map, map_slotBit_range, List.map_append, List.map_cons, List.map_map, List.map_replicate]
    rfl
  · rintro s j rfl
    rw [endOfBurst_eq]
    exact ⟨fun h => congrArg (setMs · s) (if_pos h), fun h => congrArg (setMs · s) (if_neg h)⟩

/-! ### The clock after a byte (R135) -/

/-- CLOCK after one bit burst more is that of a burst begun at the clock the others leave. -/
theorem bitsClock_succ (c : RunConfig) (m n : Nat) : bitsClock c (m + 1) n = burstClock c c.kbit (bitsClock c m n) := by
  induction m generalizing n with
  | zero => rfl
  | succ m ih => rw [bitsClock, ih, bitsClock]

/-- Bit bursts in a row leave CLOCK a whole burst after the last one's origin on the grid. -/
theorem bitsClock_succ_eq {c : RunConfig} (hv : c.validate = .none) (m n : Nat) :
    bitsClock c (m + 1) n = c.snap n + m * c.cyclesPerBit * c.sr + c.kbit * c.fL := by
  rw [bitsClock_succ, burstClock, snap_bitsClock hv, Nat.mul_assoc]

/-! ### Slots in a row (R131, R132) -/

/-- The micro-state at which slot `j` of byte `v` is next, or none is (R132). -/
def msAtSlot (c : RunConfig) (v : Byte) (j : Nat) : MicroState :=
  if j < c.slots then .atBegin (c.slotFreq v j) c.kbit (.byte v j) else .ready

/-- After the burst of a slot the next slot is next. -/
theorem msAfterBurst_byte (c : RunConfig) (v : Byte) (j : Nat) : msAfterBurst c (.byte v j) = msAtSlot c v (j + 1) := rfl

/-- What the last `n` slots of byte `v`, from slot `j` on, make of the state in which they begin (R131, R133). -/
def afterSlots (v : Byte) (n j : Nat) (s : State) : State :=
  { s with
    ms := .ready
    clock := bitsClock s.cfg n s.clock
    bytesWritten := s.bytesWritten + n * s.cfg.kbit * s.cfg.frameBytes
    stream := s.stream ++ slotBytes s.build s.cfg v n j }

/-- No slots leave a finished command as it is. -/
theorem afterSlots_zero (v : Byte) (j : Nat) {s : State} (hm : s.ms = .ready) : afterSlots v 0 j s = s := by
  simp [afterSlots, bitsClock, slotBytes, ← hm]

/-- One slot's burst and then `n` slots more are `n + 1` slots. -/
theorem afterSlots_succ (v : Byte) (n j : Nat) (m : MicroState) (s : State) :
    afterSlots v n (j + 1)
        (setMs m (emitFrames s.cfg.kbit (burstBytes s.build s.cfg (s.cfg.slotFreq v j) s.cfg.kbit 0) (snapClock s))) =
      afterSlots v (n + 1) j s := by
  simp [afterSlots, setMs, emitFrames, snapClock, bitsClock, burstClock, slotBytes, Nat.add_mul, Nat.add_assoc,
    Nat.add_comm]

section
variable {s : State} {v : Byte} {n j : Nat} (hu : undisturbed s) (hr : s.state = .run) (hv : s.cfg.validate = .none)
include hu hr hv

/-- The last `n` slots of a byte run to the byte's end, each in its begin step and `Kbit` frame steps (R131, R132). -/
theorem steps_of_slots (hm : s.ms = msAtSlot s.cfg v j) (hn : j + n = s.cfg.slots)
    (hcount : s.bytesWritten + n * s.cfg.kbit * s.cfg.frameBytes ≤ 2 ^ s.build.countWidth - 1)
    (hclock : bitsClock s.cfg n s.clock ≤ 2 ^ s.build.clockWidth - 1) :
    steps (n * (s.cfg.kbit + 1)) s = .next (afterSlots v n j s) := by
  induction n generalizing s j with
  | zero =>
    have hready : s.ms = .ready := hm.trans (if_neg (by omega))
    rw [Nat.zero_mul, steps, afterSlots_zero v j hready]
  | succ n ih =>
    have hbegin : s.ms = .atBegin (s.cfg.slotFreq v j) s.cfg.kbit (.byte v j) := hm.trans (if_pos (by omega))
    rw [Nat.succ_mul, Nat.add_mul] at hcount
    have hroom : roomFor s.cfg.kbit (snapClock s) := by
      rw [bitsClock_succ_eq hv] at hclock
      simp only [roomFor, snapClock_bytesWritten, snapClock_clock, snapClock_cfg, snapClock_build]
      constructor <;> omega
    have hslot := steps_of_begin hu hr hv hbegin hroom
    rw [msAfterBurst_byte] at hslot
    rw [Nat.succ_mul, Nat.add_comm, steps_add _ hslot, ← afterSlots_succ v n j (msAtSlot s.cfg v (j + 1)) s]
    refine ih (s := setMs _ (emitFrames _ _ (snapClock s))) hu hr hv rfl ((Nat.add_right_comm j 1 n).trans hn) ?_ hclock
    show s.bytesWritten + s.cfg.kbit * s.cfg.frameBytes + n * s.cfg.kbit * s.cfg.frameBytes ≤ 2 ^ s.build.countWidth - 1
    omega

end

/-- Settles O45: dispatch leaves the begin of slot 0, and the byte's slots run to their end. -/
theorem byteRunsToItsEnd : Obligations.ByteRunsToItsEnd := by
  intro s v hu hr hv hcount hclock
  have hgrid : bitsClock s.cfg (9 + s.cfg.stops) s.clock =
      s.cfg.snap s.clock + (8 + s.cfg.stops) * s.cfg.cyclesPerBit * s.cfg.sr + s.cfg.kbit * s.cfg.fL := by
    rw [← bitsClock_succ_eq hv, Nat.add_right_comm]
  have hms : msAtSlot s.cfg (BitVec.ofNat 8 v) 0 =
      .atBegin (s.cfg.slotFreq (BitVec.ofNat 8 v) 0) s.cfg.kbit (.byte (BitVec.ofNat 8 v) 0) :=
    if_pos (Nat.lt_of_lt_of_le (by decide) (slots_ge s.cfg))
  refine ⟨beginSlot (BitVec.ofNat 8 v) 0 s, rfl, ?_⟩
  rw [← hgrid] at hclock ⊢
  exact steps_of_slots (s := beginSlot _ 0 s) (j := 0) hu hr hv hms.symm (Nat.zero_add _) hcount hclock

end Sys2Proof.Machine
end

section
/-! The byte tally (R154): BYTES_WRITTEN changes with an emitted frame, at a START and at a reset, and in no other way. -/
namespace Sys2Proof.Machine
open Sys2Proof.Safety

/-- The engine's move keeps the stream and the tally, or emits one frame of `FB` bytes (R107, R172). -/
theorem engineMove_tally {s u : State} (h : EngineMove s u) :
    (u.stream = s.stream ∧ u.bytesWritten = s.bytesWritten) ∨
      ∃ frame, u.stream = s.stream ++ frame ∧ frame.length = s.cfg.frameBytes ∧
        u.bytesWritten = s.bytesWritten + s.cfg.frameBytes := by
  cases h with
  | rests | starts | finishes | begins => exact .inl ⟨rfl, rfl⟩
  | faults c info s₀ _ hs _ =>
    rw [raise_stream, raise_bytesWritten]
    rcases hs with rfl | ⟨w, rest, -, -, rfl⟩ <;> exact .inl ⟨rfl, rfl⟩
  | toneFrame f r P ctx _ _ hv _ _ _ => exact .inr ⟨_, rfl, frame_length hv _, rfl⟩
  | midFrame r _ _ hv _ _ _ => exact .inr ⟨_, rfl, frame_length hv _, rfl⟩

/-- A register write keeps the tally, resets the block or begins a run. -/
theorem writeEffect_tally {off : BitVec 8} {v : Word} {s u : State} (h : WriteEffect off v s u) :
    u.bytesWritten = s.bytesWritten ∨ u = resetBlock s ∨ ((s.state = .idle ∨ s.state = .done) ∧ u = beginRun s) := by
  cases h with
  | faults c info _ _ => exact .inl (raise_bytesWritten c info s)
  | resets _ => exact .inr (.inl rfl)
  | beginsRun _ hs _ => exact .inr (.inr ⟨hs, rfl⟩)
  | ignored | configures | appends | holds => exact .inl rfl

/-- The host's move keeps the tally, resets the block or begins a run. -/
theorem hostMove_tally {s u : State} (h : HostMove s u) :
    u.bytesWritten = s.bytesWritten ∨ (∃ s₀, u = resetBlock s₀) ∨
      ((s.state = .idle ∨ s.state = .done) ∧ ∃ s₀, u = beginRun s₀) := by
  cases h with
  | waits | reads | polls => exact .inl rfl
  | writes _ off v rest _ _ _ =>
    rcases writeEffect_tally (s := { s with hostProg := rest }) (hostWrite_effect off v _) with h | h | ⟨hs, h⟩
    · exact .inl h
    · exact .inr (.inl ⟨_, h⟩)
    · exact .inr (.inr ⟨hs, _, h⟩)

/-- Settles O38: the invariant after the step gives the count, and the inversion lemma of a step the ways it changes. -/
theorem tallyCountsTheEmittedBytes : Obligations.TallyCountsTheEmittedBytes := by
  intro s t hi h
  refine ⟨(bytesWritten_of_inv (everyStepKeepsTheInvariant s t hi h)).symm, ?_⟩
  obtain ⟨u, rfl, hu | hu | ⟨b, rfl⟩ | ⟨rfl, -⟩⟩ := step_cases h
  · rw [completeHeld_stream, completeHeld_bytesWritten]
    exact (engineMove_tally hu).imp_right .inl
  · have hstream : (completeHeld u).stream = s.stream := (completeHeld_stream u).trans (hostMove_stream (s := advance s) hu)
    rcases hostMove_tally hu with hb | ⟨s₀, rfl⟩ | ⟨hs, s₀, rfl⟩
    · exact .inl ⟨hstream, (completeHeld_bytesWritten u).trans hb⟩
    · exact .inr (.inr ⟨hstream, completeHeld_bytesWritten _, .inl (blockIsReset_completeHeld_resetBlock s₀)⟩)
    · have hne : (advance s).state ≠ .run := by rcases hs with hs | hs <;> simp [hs]
      exact .inr (.inr ⟨hstream, completeHeld_bytesWritten _, .inr ⟨hne, completeHeld_state _⟩⟩)
  · exact .inl ⟨completeHeld_stream _, completeHeld_bytesWritten _⟩
  · exact .inr (.inr ⟨completeHeld_stream _, completeHeld_bytesWritten _, .inl (blockIsReset_completeHeld_resetBlock _)⟩)

end Sys2Proof.Machine
end

section
/-! The quantizers (R150, R151): the machine's integer formulas are the real ones, their ranges (R157), their symmetry and its
exception at ties (R158). -/
namespace Sys2Proof.Machine
open Sys2Proof.Safety

/-! ### Rounding half away from zero (R12) -/

/-- A value less than one half from an integer rounds to it. -/
theorem roundHalfAway_eq_of_abs_sub_lt {x : ℝ} {n : ℤ} (h : |x - n| < 1 / 2) : roundHalfAway x = n := by
  obtain ⟨hlo, hhi⟩ := roundHalfAway_near x
  obtain ⟨hl, hu⟩ := abs_lt.mp h
  have h1 : (roundHalfAway x : ℝ) < n + 1 := by linarith
  have h2 : (n : ℝ) < roundHalfAway x + 1 := by linarith
  have h1' : roundHalfAway x < n + 1 := by exact_mod_cast h1
  have h2' : n < roundHalfAway x + 1 := by exact_mod_cast h2
  omega

/-- Rounding keeps an integer. -/
theorem roundHalfAway_intCast (n : ℤ) : roundHalfAway n = n :=
  roundHalfAway_eq_of_abs_sub_lt (by norm_num)

/-- A value between two integers rounds to one between them. -/
theorem roundHalfAway_mem_Icc {x : ℝ} {m n : ℤ} (hm : (m : ℝ) ≤ x) (hn : x ≤ n) : m ≤ roundHalfAway x ∧ roundHalfAway x ≤ n :=
  ⟨(roundHalfAway_intCast m).ge.trans (roundHalfAway_mono hm), (roundHalfAway_mono hn).trans (roundHalfAway_intCast n).le⟩

/-- Rounding is odd. -/
theorem roundHalfAway_neg (x : ℝ) : roundHalfAway (-x) = -roundHalfAway x := by
  rcases lt_trichotomy x 0 with hx | rfl | hx
  · rw [roundHalfAway, roundHalfAway, if_pos (by linarith), if_neg (by linarith), neg_neg]
  · have h := roundHalfAway_intCast 0
    rw [Int.cast_zero] at h
    rw [neg_zero, h, neg_zero]
  · rw [roundHalfAway, roundHalfAway, if_neg (by linarith), if_pos hx.le, neg_neg]

/-- A tie above zero rounds up. -/
theorem roundHalfAway_tie {k : ℤ} (hk : 0 ≤ k) : roundHalfAway (k + 1 / 2) = k + 1 := by
  have hk' : (0 : ℝ) ≤ k := by exact_mod_cast hk
  rw [roundHalfAway, if_pos (by linarith), add_assoc, add_halves, ← Int.cast_one, ← Int.cast_add, Int.floor_intCast]

/-- Off the ties rounding is symmetric about every integer and half-integer. -/
theorem roundHalfAway_intCast_sub {x : ℝ} (hx : ∀ k : ℤ, x ≠ k + 1 / 2) (n : ℤ) :
    roundHalfAway (n - x) = n - roundHalfAway x := by
  obtain ⟨hlo, hhi⟩ := roundHalfAway_near x
  have hhi' := lt_of_le_of_ne hhi (hx _)
  have hlo' : (roundHalfAway x : ℝ) - 1 / 2 < x := by
    refine lt_of_le_of_ne hlo fun h => hx (roundHalfAway x - 1) ?_
    push_cast
    linarith
  apply roundHalfAway_eq_of_abs_sub_lt
  rw [abs_lt]
  push_cast
  constructor <;> linarith

/-! ### The two formulas and their ranges (R150, R151, R157) -/

/-- The machine's 8-bit quantizer is the real formula. -/
theorem quantize8_eq (num : ℤ) {den : ℕ} (hd : 0 < den) :
    quantize8 num den = roundHalfAway (128 - 127 * ((num : ℝ) / den)) := by
  have hdr : (den : ℝ) ≠ 0 := by positivity
  rw [quantize8, rhaDiv_eq _ _ hd]
  congr 1
  push_cast
  field_simp

/-- The machine's 16-bit quantizer is the real formula. -/
theorem quantize16_eq (num : ℤ) {den : ℕ} (hd : 0 < den) :
    quantize16 num den = roundHalfAway (-32767 * ((num : ℝ) / den)) := by
  rw [quantize16, rhaDiv_eq _ _ hd]
  congr 1
  push_cast
  exact mul_div_assoc _ _ _

/-- An amplitude inside the unit has an 8-bit code from 1 to 255. -/
theorem code8_in_range {a : ℝ} (h : |a| ≤ 1) :
    1 ≤ roundHalfAway (128 - 127 * a) ∧ roundHalfAway (128 - 127 * a) ≤ 255 := by
  obtain ⟨hl, hu⟩ := abs_le.mp h
  apply roundHalfAway_mem_Icc <;> push_cast <;> linarith

/-- An amplitude inside the unit has a 16-bit code from -32767 to 32767. -/
theorem code16_in_range {a : ℝ} (h : |a| ≤ 1) :
    -32767 ≤ roundHalfAway (-32767 * a) ∧ roundHalfAway (-32767 * a) ≤ 32767 := by
  obtain ⟨hl, hu⟩ := abs_le.mp h
  apply roundHalfAway_mem_Icc <;> push_cast <;> linarith

/-- A fraction whose numerator is at most its denominator lies inside the unit. -/
theorem abs_amplitude_le_one {num : ℤ} {den : ℕ} (hd : 0 < den) (h : |num| ≤ den) : |(num : ℝ) / den| ≤ 1 := by
  have hdr : (0 : ℝ) < den := by exact_mod_cast hd
  rw [abs_div, Nat.abs_cast, div_le_one hdr]
  exact_mod_cast h

/-- Settles O53: the integer quotients round as the real ones do, and rounding keeps the formulas' ranges. -/
theorem quantizersAreTheFormulas : Obligations.QuantizersAreTheFormulas := by
  intro num den hd
  refine ⟨quantize8_eq num hd, quantize16_eq num hd, fun h => ?_⟩
  have ha := abs_amplitude_le_one hd h
  rw [quantize8_eq num hd, quantize16_eq num hd]
  obtain ⟨h8l, h8u⟩ := code8_in_range ha
  exact ⟨h8l, h8u, code16_in_range ha⟩

/-! ### Symmetry (R158) -/

/-- The 16-bit quantizer is odd. -/
theorem quantize16_neg (num : ℤ) {den : ℕ} (hd : 0 < den) : quantize16 (-num) den = -quantize16 num den := by
  rw [quantize16_eq _ hd, quantize16_eq _ hd, ← roundHalfAway_neg, Int.cast_neg, neg_div, mul_neg]

/-- The 8-bit code of the opposite amplitude is that of the value mirrored at 128. -/
theorem quantize8_neg (num : ℤ) {den : ℕ} (hd : 0 < den) :
    quantize8 (-num) den = roundHalfAway ((256 : ℤ) - (128 - 127 * ((num : ℝ) / den))) := by
  rw [quantize8_eq _ hd]
  congr 1
  push_cast
  ring

/-- The scaled value of an amplitude is a half-integer exactly where the integer numerators say so. -/
theorem scaled_eq_tie_iff (num : ℤ) {den : ℕ} (hd : 0 < den) (k : ℤ) :
    128 - 127 * ((num : ℝ) / den) = k + 1 / 2 ↔ 2 * (128 * (den : ℤ) - 127 * num) = (2 * k + 1) * den := by
  have hdr : (den : ℝ) ≠ 0 := by positivity
  rw [← @Int.cast_inj ℝ]
  push_cast
  field_simp

/-- Settles O59: rounding is odd and, off the ties, symmetric about 128; at a tie both mirrored values lie above zero and round
up. -/
theorem quantizerSymmetry : Obligations.QuantizerSymmetry := by
  intro num den hd h
  obtain ⟨hl, hu⟩ := abs_le.mp (abs_amplitude_le_one hd h)
  refine ⟨quantize16_neg num hd, fun hoff => ?_, fun k htie => ?_⟩
  · rw [quantize8_neg num hd, quantize8_eq num hd]
    exact roundHalfAway_intCast_sub (fun k => mt (scaled_eq_tie_iff num hd k).mp (hoff k)) 256
  · have hx := (scaled_eq_tie_iff num hd k).mpr htie
    have hklo : (-1 : ℝ) < k := by linarith
    have hkhi : (k : ℝ) < 256 := by linarith
    have hklo' : -1 < k := by exact_mod_cast hklo
    have hkhi' : k < 256 := by exact_mod_cast hkhi
    have hmirror : ((256 : ℤ) : ℝ) - (k + 1 / 2) = (255 - k : ℤ) + 1 / 2 := by
      push_cast
      ring
    rw [quantize8_neg num hd, quantize8_eq num hd, hx, hmirror, roundHalfAway_tie (by omega), roundHalfAway_tie (by omega)]
    omega

end Sys2Proof.Machine
end

section
/-! The codes of a burst (R152): their ranges (R157), the mid-level and the polarity (R155, R156), and the ties (R159). -/
namespace Sys2Proof.Machine
open Sys2Proof.Safety

/-! ### The exact code of the two sample widths -/

theorem exactQuantize_of_8 {c : RunConfig} (h : c.qbits = 8) (a : ℝ) : exactQuantize c a = roundHalfAway (128 - 127 * a) := by
  rw [exactQuantize, scaled, if_pos (by rw [h]; rfl)]

theorem exactQuantize_of_16 {c : RunConfig} (h : c.qbits = 16) (a : ℝ) : exactQuantize c a = roundHalfAway (-32767 * a) := by
  rw [exactQuantize, scaled, if_neg (by rw [h]; decide)]

/-- Settles O54: `sineCode` is the exact code, and without a table the frame carries it. -/
theorem sineCodeIsExact : Obligations.SineCodeIsExact := by
  intro c P _ hP
  refine ⟨sineCode_eq_exact c hP, fun b hb => ?_⟩
  rw [Build.toneFrame, sineQ_of_empty hb, sineCode_eq_exact c hP]

/-- Settles O56: the sine lies inside the unit, where the exact codes keep their ranges. -/
theorem codesStayInRange : Obligations.CodesStayInRange := by
  intro c P _ hP
  have hsin : |sinPhase P c.sr| ≤ 1 := Real.abs_sin_le_one _
  rw [sineCode_eq_exact c hP, exactSineCode]
  constructor <;> intro hq
  · rw [exactQuantize_of_8 hq]
    exact code8_in_range hsin
  · rw [exactQuantize_of_16 hq]
    exact code16_in_range hsin

/-! ### The twelfths of a cycle (R159) -/

/-- At the `m`-th twelfth of a cycle the sine is that of `m` sixths of a half turn. -/
theorem sinPhase_twelfth {P sr m : ℕ} (hsr : 0 < sr) (h : 12 * P = m * sr) : sinPhase P sr = Real.sin (m * (Real.pi / 6)) := by
  have hr : (12 : ℝ) * P = m * sr := by exact_mod_cast h
  have hsr' : (sr : ℝ) ≠ 0 := by positivity
  rw [sinPhase]
  congr 1
  field_simp
  linarith

/-- The sine is 1/2 at the first and the fifth twelfth of a cycle. -/
theorem sinPhase_eq_half {P sr : ℕ} (hsr : 0 < sr) (h : 12 * P = sr ∨ 12 * P = 5 * sr) : sinPhase P sr = 1 / 2 := by
  rcases h with h | h
  · rw [sinPhase_twelfth (m := 1) hsr (by omega), Nat.cast_one, one_mul, Real.sin_pi_div_six]
  · rw [sinPhase_twelfth hsr h, ← Real.sin_pi_div_six, ← Real.sin_pi_sub (Real.pi / 6)]
    congr 1
    push_cast
    ring

/-- The sine is -1/2 at the seventh and the eleventh twelfth of a cycle. -/
theorem sinPhase_eq_neg_half {P sr : ℕ} (hsr : 0 < sr) (h : 12 * P = 7 * sr ∨ 12 * P = 11 * sr) :
    sinPhase P sr = -(1 / 2) := by
  rcases h with h | h
  · rw [sinPhase_twelfth hsr h, ← Real.sin_pi_div_six, ← Real.sin_add_pi]
    congr 1
    push_cast
    ring
  · rw [sinPhase_twelfth hsr h, ← Real.sin_pi_div_six, ← Real.sin_two_pi_sub]
    congr 1
    push_cast
    ring

/-- The tie of amplitude 1/2 rounds away from zero. -/
theorem exactQuantize_half (c : RunConfig) :
    (c.qbits = 8 → exactQuantize c (1 / 2) = 65) ∧ (c.qbits = 16 → exactQuantize c (1 / 2) = -16384) := by
  constructor <;> intro hq
  · rw [exactQuantize_of_8 hq, show (128 : ℝ) - 127 * (1 / 2) = (64 : ℤ) + 1 / 2 by norm_num]
    exact roundHalfAway_tie (by decide)
  · rw [exactQuantize_of_16 hq, show (-32767 : ℝ) * (1 / 2) = -((16383 : ℤ) + 1 / 2) by norm_num, roundHalfAway_neg,
      roundHalfAway_tie (by decide)]
    rfl

/-- The tie of amplitude -1/2 rounds away from zero. -/
theorem exactQuantize_neg_half (c : RunConfig) :
    (c.qbits = 8 → exactQuantize c (-(1 / 2)) = 192) ∧ (c.qbits = 16 → exactQuantize c (-(1 / 2)) = 16384) := by
  constructor <;> intro hq
  · rw [exactQuantize_of_8 hq, show (128 : ℝ) - 127 * -(1 / 2) = (191 : ℤ) + 1 / 2 by norm_num]
    exact roundHalfAway_tie (by decide)
  · rw [exactQuantize_of_16 hq, show (-32767 : ℝ) * -(1 / 2) = (16383 : ℤ) + 1 / 2 by norm_num]
    exact roundHalfAway_tie (by decide)

/-- Settles O60: the code is the exact one, and the sine is 1/2 or -1/2 at the four phases. -/
theorem exactTies : Obligations.ExactTies := by
  intro c P hv hP
  have hsr := (legal_pos hv).1
  rw [sineCode_eq_exact c hP, exactSineCode]
  constructor <;> intro h
  · rw [sinPhase_eq_half hsr h]
    exact exactQuantize_half c
  · rw [sinPhase_eq_neg_half hsr h]
    exact exactQuantize_neg_half c

/-! ### The mid-level and the polarity (R155, R156) -/

theorem midCode_of_8 {c : RunConfig} (h : c.qbits = 8) : c.midCode = 128 := by
  rw [RunConfig.midCode, RunConfig.quantize, if_pos (by rw [h]; rfl)]
  decide

theorem midCode_of_16 {c : RunConfig} (h : c.qbits = 16) : c.midCode = 0 := by
  rw [RunConfig.midCode, RunConfig.quantize, if_neg (by rw [h]; decide)]
  decide

/-- The mid-level code is the exact code of amplitude 0. -/
theorem midCode_eq_exact (c : RunConfig) : c.midCode = exactQuantize c 0 := by
  rw [RunConfig.midCode, quantize_eq c 0 1 one_pos, Int.cast_zero, zero_div]

/-- At amplitude 0 the value to round is an integer. -/
theorem scaled_zero (c : RunConfig) : ∃ m : ℤ, scaled c 0 = m := by
  rw [scaled]
  split
  · exact ⟨128, by norm_num⟩
  · exact ⟨0, by norm_num⟩

/-- An integer lies at least one half from every half-integer. -/
theorem half_le_abs_sub_half (m k : ℤ) : (1 : ℝ) / 2 ≤ |(m : ℝ) - (k + 1 / 2)| := by
  rw [le_abs]
  rcases lt_or_ge k m with h | h
  · have h' : (k : ℝ) + 1 ≤ m := by exact_mod_cast h
    exact .inl (by linarith)
  · have h' : (m : ℝ) ≤ k := by exact_mod_cast h
    exact .inr (by linarith)

theorem sinPhase_zero (sr : ℕ) : sinPhase 0 sr = 0 := by simp [sinPhase]

/-- The code of a burst's first frame is the mid-level code, for every table that I2 admits: no tie is near. -/
theorem sineQ_zero {b : Build} {c : RunConfig} (hv : c.validate = .none) (hb : tableAdmissible b) :
    b.sineQ c 0 = c.midCode := by
  obtain ⟨-, hexact⟩ := namedProperty_sineQ hv (legal_pos hv).1 hb
  obtain ⟨m, hm⟩ := scaled_zero c
  rw [midCode_eq_exact, ← sinPhase_zero c.sr]
  refine hexact fun k => ?_
  rw [sinPhase_zero, hm]
  exact le_trans (by norm_num) (half_le_abs_sub_half m k)

/-- The mid-level frame of 8 bits: byte 0x80 on every channel. -/
theorem midFrame_of_8 {c : RunConfig} (h : c.qbits = 8) : c.midFrame = List.replicate c.channels.toNat 0x80 := by
  have hbytes : c.sampleBytes 128 = [0x80] := by
    rw [RunConfig.sampleBytes, if_pos (by rw [h]; rfl)]
    rfl
  rw [RunConfig.midFrame, midCode_of_8 h, RunConfig.frame, hbytes, List.flatten_replicate_singleton]

/-- The mid-level frame of 16 bits: two bytes 0x00 on every channel. -/
theorem midFrame_of_16 {c : RunConfig} (h : c.qbits = 16) : c.midFrame = List.replicate (2 * c.channels.toNat) 0x00 := by
  have hbytes : c.sampleBytes 0 = List.replicate 2 0x00 := by
    rw [RunConfig.sampleBytes, if_neg (by rw [h]; decide)]
    rfl
  rw [RunConfig.midFrame, midCode_of_16 h, RunConfig.frame, hbytes, List.flatten_replicate_replicate, Nat.mul_comm]

/-- In the first half of a cycle the sine is not negative. -/
theorem sinPhase_nonneg {P sr : ℕ} (h : 2 * P ≤ sr) : 0 ≤ sinPhase P sr := by
  apply Real.sin_nonneg_of_nonneg_of_le_pi (by positivity)
  apply div_le_of_le_mul₀ (by positivity) Real.pi_pos.le
  have h' : (2 : ℝ) * P ≤ sr := by exact_mod_cast h
  nlinarith [Real.pi_pos]

/-- In the second half of a cycle the sine is not positive. -/
theorem sinPhase_nonpos {P sr : ℕ} (h : sr ≤ 2 * P) (hP : P < sr) : sinPhase P sr ≤ 0 := by
  have hsr : (sr : ℝ) ≠ 0 := Nat.cast_ne_zero.mpr (by omega)
  have hhalf : 0 ≤ sinPhase (2 * P - sr) (2 * sr) := sinPhase_nonneg (by omega)
  have hangle : 2 * Real.pi * P / sr = 2 * Real.pi * ((2 * P - sr : ℕ) : ℝ) / ((2 * sr : ℕ) : ℝ) + Real.pi := by
    rw [Nat.cast_sub h]
    push_cast
    field_simp
    ring
  rw [sinPhase, hangle, Real.sin_add_pi]
  exact neg_nonpos.mpr hhalf

/-- Settles O57: the first frame's scaled value lies far from every tie, and the quantizers reverse the order of amplitudes. -/
theorem midLevelAndPolarity : Obligations.MidLevelAndPolarity := by
  refine ⟨by decide, fun c hv => ⟨fun h => ⟨midCode_of_8 h, midFrame_of_8 h⟩, fun h => ⟨midCode_of_16 h, midFrame_of_16 h⟩,
    fun b hb => ⟨sineQ_zero hv hb, ?_⟩, fun P hP => ?_⟩⟩
  · rw [Build.toneFrame, sineQ_zero hv hb, RunConfig.midFrame]
  · rw [sineCode_eq_exact c hP, midCode_eq_exact]
    exact ⟨fun h => exactQuantize_anti c (sinPhase_nonneg h.le), fun h => exactQuantize_anti c (sinPhase_nonpos h hP)⟩

end Sys2Proof.Machine
end

section
/-! The bytes of a frame (R153). -/
namespace Sys2Proof.Machine

/-- One channel of 8 bits: one byte, which is the code where a byte holds it. -/
theorem sampleBytes_of_8 {c : RunConfig} (h : c.qbits = 8) (code : ℤ) :
    ∃ byte : Byte, c.sampleBytes code = [byte] ∧ (0 ≤ code → code ≤ 255 → (byte.toNat : ℤ) = code) := by
  refine ⟨_, if_pos (by rw [h]; rfl), fun h0 h255 => ?_⟩
  rw [if_pos ⟨h0, h255⟩, BitVec.toNat_ofInt]
  omega

/-- One channel of 16 bits: the code's two's complement, low byte first. -/
theorem sampleBytes_of_16 {c : RunConfig} (h : c.qbits = 16) (code : ℤ) :
    c.sampleBytes code = [(BitVec.ofInt 16 code).extractLsb' 0 8, (BitVec.ofInt 16 code).extractLsb' 8 8] :=
  if_neg (by rw [h]; decide)

theorem frame_of_mono {c : RunConfig} (h : c.channels = 1) (code : ℤ) : c.frame code = c.sampleBytes code := by
  rw [RunConfig.frame, h]
  exact List.append_nil _

theorem frame_of_stereo {c : RunConfig} (h : c.channels = 2) (code : ℤ) :
    c.frame code = c.sampleBytes code ++ c.sampleBytes code := by
  rw [RunConfig.frame, h]
  exact congrArg _ (List.append_nil _)

theorem frameBytes_of_format {c : RunConfig} {qb ch : Byte} (hq : c.qbits = qb) (hc : c.channels = ch) :
    c.frameBytes = ch.toNat * qb.toNat / 8 := by rw [RunConfig.frameBytes, hq, hc]

/-- Settles O58: one sample per channel, in the two sample widths. -/
theorem frameLayout : Obligations.FrameLayout := by
  intro c code
  refine ⟨fun hq hc => ?_, fun hq hc => ?_, fun hq hc => ?_, fun hq hc => ?_⟩
  · obtain ⟨byte, hbytes, hcode⟩ := sampleBytes_of_8 hq code
    exact ⟨byte, (frame_of_mono hc code).trans hbytes, frameBytes_of_format hq hc, hcode⟩
  · obtain ⟨byte, hbytes, hcode⟩ := sampleBytes_of_8 hq code
    exact ⟨byte, by rw [frame_of_stereo hc, hbytes]; rfl, frameBytes_of_format hq hc, hcode⟩
  · exact ⟨(frame_of_mono hc code).trans (sampleBytes_of_16 hq code), frameBytes_of_format hq hc⟩
  · exact ⟨by rw [frame_of_stereo hc, sampleBytes_of_16 hq]; rfl, frameBytes_of_format hq hc⟩

end Sys2Proof.Machine
end

section
/-! The dispatch step (R170): the word at the FIFO's head is popped, decoded and run; what a command's dispatch changes is said
once, by an inversion lemma of `exec`. -/
namespace Sys2Proof.Machine

/-- Setting the micro-state to what it is changes nothing. -/
theorem setMs_self {m : MicroState} {s : State} (h : s.ms = m) : setMs m s = s := by
  rw [← h]
  rfl

/-! ### END (R174) -/

theorem exec_endRun_of_nil {s : State} (h : s.queue = []) : exec .endRun s = .next (finish s) := by
  rw [exec, execEnd, h]

theorem exec_endRun_of_cons {s : State} {w : Word} {rest : List Word} (h : s.queue = w :: rest) :
    exec .endRun s = .next (raise .cmdNotRunning w s) := by
  rw [exec, execEnd, h]

/-- Settles O31: END goes by whether the FIFO is empty. -/
theorem endCompletesOrTraps : Obligations.EndCompletesOrTraps :=
  ⟨fun _ h => exec_endRun_of_nil h, fun _ _ _ h => exec_endRun_of_cons h⟩

/-! ### What a dispatched command changes -/

/-- All that a command's dispatch can do: a command other than END sets the micro-state, and END finishes the run or faults. -/
theorem exec_cases {i : Instr} {s t : State} (h : exec i s = .next t) :
    (i ≠ .endRun ∧ t = setMs (msAtDispatch s.build s.cfg i) s) ∨
      (i = .endRun ∧ (t = finish s ∨ ∃ w, t = raise .cmdNotRunning w s)) := by
  by_cases hi : i = .endRun
  · subst hi
    refine .inr ⟨rfl, ?_⟩
    cases hq : s.queue with
    | nil =>
      rw [exec_endRun_of_nil hq] at h
      cases h
      exact .inl rfl
    | cons w rest =>
      rw [exec_endRun_of_cons hq] at h
      cases h
      exact .inr ⟨w, rfl⟩
  · rw [exec_eq hi] at h
    cases h
    exact .inl ⟨hi, rfl⟩

/-- Settles O32: setting the micro-state, finishing the run and taking an error each leave the named fields as they are. -/
theorem dispatchFrame : Obligations.DispatchFrame := by
  intro i s t h
  rcases exec_cases h with ⟨-, rfl⟩ | ⟨rfl, rfl | ⟨w, rfl⟩⟩
  · simp
  · simp
  · simp

/-! ### The engine's move between commands -/

/-- Dispatch of a word that decodes runs its command on the state with the word popped. -/
theorem dispatchWord_of_ok {w : Word} {i : Instr} (h : decode w = .ok i) (rest : List Word) (s : State) :
    dispatchWord w rest s = exec i (popTo w rest s) := by
  rw [dispatchWord, h]

/-- In RUN between commands the engine dispatches the FIFO's head. -/
theorem engineStep_of_word {s : State} {w : Word} {rest : List Word} (hr : s.state = .run) (hm : s.ms = .ready)
    (hq : s.queue = w :: rest) : engineStep s = dispatchWord w rest s := by
  simp only [engineStep, hr, hm, dispatchStep, hq]

/-- With the engine's move first in the schedule, a step is that move and the completion of a held push. -/
theorem step_of_engineTurn {s : State} {sched : List Move} (h : s.schedule = .engine :: sched) :
    step s = settle (engineStep { s with schedule := sched }) := by
  rw [step, agentMove, h]
  rfl

/-- Settles O28: the engine's turn is the dispatch of the FIFO's head. -/
theorem stepRunsTheDecodedCommand : Obligations.StepRunsTheDecodedCommand := by
  intro s w rest sched i hsched hr hm hq hd
  rw [step_of_engineTurn hsched, engineStep_of_word (s := { s with schedule := sched }) hr hm hq, dispatchWord_of_ok hd]
  rfl

/-- Settles O29: each command's own effect on the popped state, in which the micro-state is already Ready. -/
theorem dispatchRule : Obligations.DispatchRule := by
  intro s s₀ w rest hr hm hq hs₀
  obtain rfl : s₀ = popTo w rest s := hs₀
  have hready : setMs .ready (popTo w rest s) = popTo w rest s := setMs_self hm
  have hrun : ∀ {i}, decode w = .ok i → engineStep s = exec i (popTo w rest s) := fun hd => by
    rw [engineStep_of_word hr hm hq, dispatchWord_of_ok hd]
  obtain ⟨hnop, hbyte, hbit, htoneS, htoneM, hsilence⟩ := commandsComplete (popTo w rest s)
  refine ⟨fun ⟨e, he⟩ => ?_, fun hd => ?_, fun v hd => (hrun hd).trans (hbyte v), fun b hd => (hrun hd).trans (hbit b),
    fun d hd => (hrun hd).trans (htoneS d), fun d hd => (hrun hd).trans (htoneM d),
    fun d hd => (hrun hd).trans (hsilence d), fun hd => ⟨fun hnil => ?_, fun w' rest' hcons => ?_⟩⟩
  · rw [engineStep_of_word hr hm hq, Laws.dispatchWord_of_illegal he]
  · exact (hrun hd).trans (hnop.trans (congrArg _ hready))
  · have hdone : finish (popTo w rest s) = { popTo w rest s with state := .done } :=
      congrArg (fun u : State => { u with state := .done }) hready
    rw [hrun hd, exec_endRun_of_nil hnil, hdone]
  · rw [hrun hd, exec_endRun_of_cons hcons]

end Sys2Proof.Machine
end

section
/-! The START operation (R176). -/
namespace Sys2Proof.Machine

/-- In RUN and in ERROR, START changes nothing. -/
theorem start_of_run_or_error {s : State} (h : s.state = .run ∨ s.state = .error) : start s = s := by
  rcases h with h | h
  · rw [start, h]
  · rw [start, h]

/-- In IDLE and in DONE, START goes by the configuration's checks. -/
theorem start_of_idle_or_done {s : State} (h : s.state = .idle ∨ s.state = .done) :
    start s = if s.cfg.validate = .none then beginRun s else raise s.cfg.validate 0 s := by
  rcases h with h | h
  · rw [start, h]
  · rw [start, h]

/-- Settles O19: a CTRL write that asks for START alone, and START in each state. -/
theorem startRule : Obligations.StartRule := by
  refine fun s => ⟨fun v hstart hreset => ?_, start_of_run_or_error, fun h hv => ?_, fun h hv => ?_⟩
  · rw [(ctrlRequestsActions s v).2, if_neg (ne_true_of_eq_false hreset), if_pos hstart]
  · rw [start_of_idle_or_done h, if_neg hv]
  · rw [start_of_idle_or_done h, if_pos hv]
    rfl

end Sys2Proof.Machine
end

section
/-! The silence frame step (R172), and SILENCE from its dispatch to its last frame (R173). -/
namespace Sys2Proof.Machine
open Sys2Proof.Safety

/-! ### The silence frame step (R172) -/

/-- In a silence the engine takes the frame step that bursts share. -/
theorem engineStep_of_silence {s : State} {r : Nat} (hr : s.state = .run) (hv : s.cfg.validate = .none)
    (hm : s.ms = .silence r) : engineStep s = frameStepWith s.cfg.midFrame (afterSilence r) s := by
  simp only [engineStep, hr, hm, silenceStep_of_legal hv]

/-- Settles O35: the cases of the frame step that burst and silence share, with the mid-level frame. -/
theorem silenceStepRule : Obligations.SilenceStepRule := by
  intro s r hr hv hm
  rw [engineStep_of_silence hr hv hm]
  refine ⟨fun h1 => frameStepWith_of_countOverflow _ _ (decide_eq_true h1), fun h1 => ?_⟩
  have hcount : s.countOverflows = false := decide_eq_false (Nat.not_lt.mpr h1)
  have hclock : s.clock + s.cfg.fL ≤ 2 ^ s.build.clockWidth - 1 → s.clockOverflows = false :=
    fun h2 => decide_eq_false (Nat.not_lt.mpr h2)
  refine ⟨fun h2 => frameStepWith_of_clockOverflow _ _ hcount (decide_eq_true h2), fun h2 h3 => ?_, fun h2 h3 => ?_⟩
  · exact frameStepWith_of_not_enabled _ _ (by simp [h3, hcount, hclock h2])
  · rw [frameStepWith_of_accepts _ _ hcount (hclock h2) h3, afterSilence_eq]
    rfl

/-! ### Mid-level frames in a row -/

/-- The micro-state in which `k` mid-level frames are to come (R172, R173). -/
def msOfSilence (k : Nat) : MicroState := if k = 0 then .ready else .silence k

theorem msAfterSilence_succ (k : Nat) : msAfterSilence (k + 1) = msOfSilence k := by
  simp [msAfterSilence, msOfSilence]

theorem silenceBytes_succ (c : RunConfig) (k : Nat) : silenceBytes c (k + 1) = c.midFrame ++ silenceBytes c k := by
  rw [silenceBytes, List.replicate_succ, List.flatten_cons, silenceBytes]

section
variable {s : State} {k : Nat} (hu : undisturbed s) (hr : s.state = .run) (hv : s.cfg.validate = .none)
include hu hr hv

/-- The step that emits a silence's next frame (R172). -/
theorem step_of_silence (hm : s.ms = .silence (k + 1)) (hroom : roomFor (k + 1) s) :
    step s = .next (setMs (msOfSilence k) (emit s.cfg.midFrame s)) := by
  obtain ⟨hsched, hsink, hheld⟩ := hu
  obtain ⟨hcount, hclock⟩ := not_overflows_of_roomFor hroom
  have he : s.engineEnabled = true := by simp only [State.engineEnabled, hr, hm, hsink, Bool.true_or]
  have hstep : engineStep s = .next (setMs (msOfSilence k) (emit s.cfg.midFrame s)) := by
    rw [engineStep_of_silence hr hv hm, frameStepWith_of_accepts _ _ hcount hclock hsink, afterSilence_eq,
      msAfterSilence_succ]
  exact step_of_engine hsched he hstep hheld

/-- The `k` frames of a silence, one per step (R172). -/
theorem steps_of_silence (hm : s.ms = msOfSilence k) (hroom : roomFor k s) :
    steps k s = .next (setMs .ready (emitFrames k (silenceBytes s.cfg k) s)) := by
  induction k generalizing s with
  | zero => rw [steps, silenceBytes, List.replicate_zero, List.flatten_nil, emitFrames_zero, setMs_self (m := .ready) hm]
  | succ k ih =>
    have hstep := step_of_silence hu hr hv (hm.trans (if_neg k.succ_ne_zero)) hroom
    have hrest := ih (s := setMs (msOfSilence k) (emit s.cfg.midFrame s)) hu hr hv rfl (roomFor_emit hroom _ _)
    rw [Nat.add_comm, steps_add k (steps_one hstep), hrest, setMs_emitFrames_emit, setMs_cfg, emit_cfg,
      ← silenceBytes_succ, Nat.add_comm]

end

/-- Settles O46: dispatch leaves `Kdur(D)` mid-level frames to come, and they go out one per step. -/
theorem silenceRunsToItsEnd : Obligations.SilenceRunsToItsEnd := by
  intro s d hu hr _ hv hcount hclock
  exact ⟨setMs (msOfSilence (s.build.kdur s.cfg d)) s, exec_eq (by simp) s,
    steps_of_silence (s := setMs _ s) hu hr hv rfl ⟨hcount, hclock⟩⟩

end Sys2Proof.Machine
end

section
/-! Faults: the configuration checks in their order (R203, R204), taking an error (R201), and that nothing but a reset leaves
ERROR or changes what it recorded (R202). -/
namespace Sys2Proof.Machine
open Sys2Proof.Safety

/-! ### The configuration checks (R203, R204) -/

/-- What R203 lists of a configuration that passes its checks: the bounds of its rates, and a whole number of low-carrier cycles
in one bit. -/
theorem legal_consequences {c : RunConfig} (h : c.validate = .none) :
    8 ≤ c.sampleRate.toNat ∧ c.baud.toNat ≤ c.carrier.toNat ∧ 1 ≤ c.baud.toNat ∧
      ∃ M, 1 ≤ M ∧ c.carrier.toNat = M * c.baud.toNat := by
  obtain ⟨hb, -, -, hf, h8, hm⟩ := legal_checks h
  have hle : c.baudRate ≤ c.fL := Nat.le_of_dvd (Nat.pos_of_ne_zero hf) (Nat.dvd_of_mod_eq_zero hm)
  have hM : c.fL = c.fL / c.baudRate * c.baudRate := (Nat.div_mul_cancel (Nat.dvd_of_mod_eq_zero hm)).symm
  exact ⟨by show 8 ≤ c.sr; omega, hle, Nat.pos_of_ne_zero hb, _, Nat.div_pos hle (Nat.pos_of_ne_zero hb), hM⟩

/-- `validate()` on the registers themselves: the fields of FORMAT are bytes, and a byte is known by its number. -/
theorem validate_eq_registers (c : RunConfig) :
    c.validate =
      if c.baud.toNat = 0 then .cfgBaud
      else if ¬(c.channels = 1 ∨ c.channels = 2) then .cfgChannels
      else if ¬(c.qbits = 8 ∨ c.qbits = 16) then .cfgQuant
      else if c.carrier.toNat = 0 then .cfgCarrierZero
      else if c.sampleRate.toNat < 8 * c.carrier.toNat then .cfgRate
      else if c.carrier.toNat % c.baud.toNat ≠ 0 then .cfgMultiple
      else .none := by
  simp only [← BitVec.toNat_inj]
  rfl

/-- Settles O20: the first check that fails, in the order of R204, fixes the result and every check before it, and so decides
all seven equivalences at once; the consequences are those of a legal configuration. -/
theorem validationReportsTheFirstFault : Obligations.ValidationReportsTheFirstFault := by
  intro c
  have hlegal := legal_consequences (c := c)
  have hv := validate_eq_registers c
  split_ifs at hv with hbaud hchannels hqbits hcarrier hrate hmultiple
  all_goals grind

/-! ### Taking an error (R201) -/

/-- Settles O22: outside ERROR and in it. -/
theorem errorEntry : Obligations.ErrorEntry :=
  fun s c info => ⟨raise_of_ne c info s, raise_of_error c info s⟩

/-! ### ERROR (R202) -/

/-- In ERROR the engine takes no step. -/
theorem engineStep_of_error {s : State} (h : s.state = .error) : engineStep s = .next s := by
  rw [engineStep, h]

/-- `u` is in ERROR with the fault that `s` recorded, and with its CLOCK, BYTES_WRITTEN and stream. -/
def FaultKept (s u : State) : Prop :=
  u.state = .error ∧ u.errCode = s.errCode ∧ u.errInfo = s.errInfo ∧ u.clock = s.clock ∧
    u.bytesWritten = s.bytesWritten ∧ u.stream = s.stream

/-- The completion of a held push keeps the record. -/
theorem FaultKept.completeHeld {s u : State} (h : FaultKept s u) : FaultKept s (completeHeld u) := by
  simpa [FaultKept] using h

/-- In ERROR the engine's move changes nothing: every move but a rest is one of RUN. -/
theorem engineMove_of_error {s u : State} (he : s.state = .error) (h : EngineMove s u) : u = s := by
  cases h with
  | rests => rfl
  | starts | finishes | faults | begins | toneFrame | midFrame => simp_all

/-- In ERROR a register write keeps the record or resets the block. -/
theorem writeEffect_of_error {off : BitVec 8} {v : Word} {s u : State} (he : s.state = .error)
    (h : WriteEffect off v s u) : FaultKept s u ∨ u = resetBlock s := by
  cases h with
  | ignored | configures => exact .inl ⟨he, rfl, rfl, rfl, rfl, rfl⟩
  | resets => exact .inr rfl
  | faults _ _ hs _ => exact absurd he hs
  | beginsRun _ hs _ => simp [he] at hs
  | appends _ hs _ | holds _ hs _ => simp [he] at hs

/-- In ERROR the host's move keeps the record or resets the block. -/
theorem hostMove_of_error {s u : State} (he : s.state = .error) (h : HostMove s u) :
    FaultKept s u ∨ ∃ s₀, u = resetBlock s₀ := by
  cases h with
  | waits | reads | polls => exact .inl ⟨he, rfl, rfl, rfl, rfl, rfl⟩
  | writes _ off v rest _ _ _ =>
    exact (writeEffect_of_error (s := { s with hostProg := rest }) he (hostWrite_effect off v _)).imp_right fun h => ⟨_, h⟩

/-- A step from ERROR keeps the record or resets the block. -/
theorem step_of_error {s t : State} (he : s.state = .error) (h : step s = .next t) : FaultKept s t ∨ blockIsReset t := by
  have hkept : FaultKept s (advance s) := ⟨he, rfl, rfl, rfl, rfl, rfl⟩
  obtain ⟨u, rfl, hu | hu | ⟨b, rfl⟩ | ⟨rfl, -⟩⟩ := step_cases h
  · rw [engineMove_of_error (s := advance s) he hu]
    exact .inl hkept.completeHeld
  · rcases hostMove_of_error (s := advance s) he hu with hk | ⟨s₀, rfl⟩
    · exact .inl (FaultKept.completeHeld (s := s) hk)
    · exact .inr (blockIsReset_completeHeld_resetBlock s₀)
  · exact .inl (FaultKept.completeHeld (s := s) hkept)
  · exact .inr (blockIsReset_completeHeld_resetBlock _)

/-- Settles O23: each access in ERROR by its own rule, and the step by its inversion lemma. -/
theorem errorIsSticky : Obligations.ErrorIsSticky := by
  intro s he
  have hne : s.state ≠ .run := by simp [he]
  exact ⟨engineStep_of_error he, fun w => push_of_error w he, start_of_run_or_error (.inr he), fun _ => rfl,
    fun v => configurationLock.2 s v hne, fun _ => step_of_error he⟩

end Sys2Proof.Machine
end

section
/-! Reset (R230): a write to CTRL with SOFT_RESET set and power-on reset run the one operation `resetBlock`. -/
namespace Sys2Proof.Machine
open Sys2Proof.Safety

/-- With no push held after it, reset leaves no completion to run in its step. -/
theorem completeHeld_resetBlock (s : State) : completeHeld (resetBlock s) = resetBlock s :=
  completeHeld_of_none (resetBlock_heldPush s)

/-- Reset gives every piece of the block its reset value (R43, R230). -/
theorem blockIsReset_resetBlock (s : State) : blockIsReset (resetBlock s) :=
  completeHeld_resetBlock s ▸ blockIsReset_completeHeld_resetBlock s

/-- SOFT_RESET resets the block, whatever the other bits of the written word (R23). -/
theorem hostWrite_softReset {v : Word} (h : v.getLsbD 1 = true) (s : State) : hostWrite 0x00 v s = resetBlock s :=
  (ctrlRequestsActions s v).2.trans (if_pos h)

/-- A step whose move is power-on reset is the reset of the block, from the state whose schedule has moved on (R230). -/
theorem step_of_powerOn {s : State} {rest : List Move} (h : s.schedule = .powerOn :: rest) :
    step s = .next (resetBlock { s with schedule := rest }) := by
  have hmove : agentMove s = .next (resetBlock { s with schedule := rest }) := by
    rw [agentMove, h]
    rfl
  rw [step_of_agentMove hmove, completeHeld_resetBlock]

/-- Settles O8: both ways of reset are `resetBlock`, which gives the block its reset values and keeps the accepted frames. -/
theorem resetFromEveryState : Obligations.ResetFromEveryState := by
  refine ⟨fun s v hv => ?_, fun s rest hs => ?_⟩
  · rw [hostWrite_softReset hv]
    exact ⟨blockIsReset_resetBlock s, resetBlock_stream s⟩
  · exact ⟨_, step_of_powerOn hs, blockIsReset_resetBlock _, resetBlock_stream _⟩

end Sys2Proof.Machine
end
